-- ==== Sys2Proof/Word.lean ====
section
/-! DEFINITION. The word types of the machine: an 8-bit byte and a 16-bit address (00_scope.md R6, R8), and text. -/

namespace Sys2Proof

/-- DATA_WIDTH: every memory access moves one byte (00_scope.md R6, R8). -/
abbrev Byte := BitVec 8

/-- ADDR_WIDTH: addresses are 0x0000 to 0xFFFF (00_scope.md R6). -/
abbrev Addr := BitVec 16

/-- A file path, a register name or the text of a region id, as its list of characters (log 12). -/
abbrev Text := List Char

/-- The text has no NUL character. -/
def noNul (cs : Text) : Bool := cs.all fun c => decide (c.toNat ≠ 0)

/-- A region id: "Ids contain no NUL character" (20_memory.md R93). -/
structure RegionId where
  chars : Text
  wf : noNul chars = true
  deriving DecidableEq, Repr

end Sys2Proof
end

