-- ==== Sys2Proof/Config.lean ====
section
/-! DEFINITION. What is fixed for one machine: the implementation parameters of 00_scope.md R6. -/

namespace Sys2Proof

/-- DECIMAL_MODE (42_alu_arith.md R235). -/
inductive DecimalMode where
  | nmos
  | binary
  deriving DecidableEq, Repr

/-- POINTER_WRAP (20_memory.md R103, R104). -/
inductive PointerWrap where
  | nmos
  | linear
  deriving DecidableEq, Repr

/-- RESET_VALUES: the `resetValue` of each CPU register (10_state.md R40). -/
structure ResetValues where
  pc : Addr
  sp : Byte
  a : Byte
  x : Byte
  y : Byte
  p : Byte
  deriving DecidableEq, Repr

/-- `size` bytes, held sparsely: the listed (offset, byte) pairs, and 0x00 at every other offset (log 6).
It is the form of a ROM image, of a caller-owned buffer and of a file. -/
structure Image where
  size : Nat
  cells : List (Nat × Byte)
  deriving DecidableEq, Repr

/-- The parameters of 00_scope.md R6 that have more than one setting. No step and no host call changes them (log 1). -/
structure Config where
  decimalMode : DecimalMode
  pointerWrap : PointerWrap
  resetValues : ResetValues
  romBase : Addr
  romPath : Text
  romImage : Image
  deriving DecidableEq, Repr

namespace Config

/-- RESET_VECTOR: low byte at 0xFFFC, high byte at 0xFFFD (00_scope.md R6, 92_eei_decisions.md D5). -/
def resetVector : Addr := 0xFFFC#16

/-- BRK_VECTOR: low byte at 0xFFFE, high byte at 0xFFFF (00_scope.md R6, 92_eei_decisions.md D6). -/
def brkVector : Addr := 0xFFFE#16

/-- ID_COMPARE_LEN: an unmap compares at most 16 characters (00_scope.md R6, 20_memory.md R93). -/
def idCompareLen : Nat := 16

/-- The decided reset values (10_state.md R40, 92_eei_decisions.md D4). -/
def decidedResetValues : ResetValues :=
  { pc := 0x0000#16, sp := 0xFD#8, a := 0x00#8, x := 0x00#8, y := 0x00#8, p := 0x04#8 }

/-- The decided defaults of 00_scope.md R6. ROM_BASE and ROM_IMAGE are OPEN there: DESIGN CHOICE, the base of the
spec's examples and an image of zero bytes that reaches the top of the space (log 2). -/
def default : Config :=
  { decimalMode := .nmos
    pointerWrap := .nmos
    resetValues := decidedResetValues
    romBase := 0xD000#16
    romPath := ['r', 'o', 'm']
    romImage := { size := 0x3000, cells := [] } }

end Config

end Sys2Proof
end

