-- ==== Sys2Proof/Machine/Bits.lean ====
section
/-! DEFINITION. Byte order, extension and single bits (00_scope.md R8, R9; 20_memory.md R101). -/

namespace Sys2Proof.Machine

/-- The pair `{hi, lo}` is `hi * 256 + lo` (R8); little-endian: `lo` lies at the lower address (R101). -/
def pair (hi lo : Byte) : Addr := hi ++ lo

/-- Bits 7..0 of an address. -/
def lowByte (v : Addr) : Byte := v.extractLsb' 0 8

/-- Bits 15..8 of an address. -/
def highByte (v : Addr) : Byte := v.extractLsb' 8 8

/-- `zext_16` (R9). -/
def zext (b : Byte) : Addr := b.setWidth 16

/-- `sext_16` (R9), the only sign extension of the machine: a branch offset (30_encoding.md R145). -/
def sext (b : Byte) : Addr := b.signExtend 16

/-- `v` with bit `k` replaced by `b`. -/
def withBit (v : Byte) (k : Nat) (b : Bool) : Byte :=
  if b then v ||| (1#8 <<< k) else v &&& ~~~(1#8 <<< k)

end Sys2Proof.Machine
end

