-- ==== Sys2Proof/Machine/Flags.lean ====
section
/-! DEFINITION. The FLAGS register (10_state.md R45-R53) and the 6502_alu block with every flag computation
(42_alu_arith.md R230-R237, 43_alu_logic_shift.md R260-R275). -/

namespace Sys2Proof.Machine

/-! ## The bits of P (R45) -/

def flagC (p : Byte) : Bool := p.getLsbD 0
def flagZ (p : Byte) : Bool := p.getLsbD 1
def flagI (p : Byte) : Bool := p.getLsbD 2
def flagD (p : Byte) : Bool := p.getLsbD 3
def flagB (p : Byte) : Bool := p.getLsbD 4
def flagV (p : Byte) : Bool := p.getLsbD 6
def flagN (p : Byte) : Bool := p.getLsbD 7

def putC (p : Byte) (b : Bool) : Byte := withBit p 0 b
def putZ (p : Byte) (b : Bool) : Byte := withBit p 1 b
def putI (p : Byte) (b : Bool) : Byte := withBit p 2 b
def putD (p : Byte) (b : Bool) : Byte := withBit p 3 b
def putV (p : Byte) (b : Bool) : Byte := withBit p 6 b
def putN (p : Byte) (b : Bool) : Byte := withBit p 7 b

/-- FLAGS has `maskOff = 0x20`: bit 5 is hard-wired 0 (R40, R46). -/
def maskP (v : Byte) : Byte := v &&& 0xDF#8

/-- The byte that PHP and BRK push: `P | 0x30` (41_transfer_stack.md R218, 44_control.md R311). -/
def pushedP (p : Byte) : Byte := p ||| 0x30#8

/-- `SetNZ(v)` on a status byte (00_scope.md R13). -/
def putNZ (p v : Byte) : Byte := putZ (putN p v.msb) (v == 0#8)

/-! ## Addition, subtraction, comparison -/

/-- What an addition or subtraction returns: `(r, N, V, Z, C)` (R231). -/
structure Sum where
  r : Byte
  n : Bool
  v : Bool
  z : Bool
  c : Bool
  deriving DecidableEq, Repr

/-- `AddBin(a, m, c)` (R231, R232). -/
def addBin (a m : Byte) (c : Bool) : Sum :=
  let s := a.toNat + m.toNat + c.toNat
  let r := BitVec.ofNat 8 s
  { r := r, n := r.msb, v := ((a ^^^ r) &&& (m ^^^ r)).msb, z := r == 0#8, c := s.testBit 8 }

/-- `SubBin(a, m, c)`: addition of the ones' complement (R233). -/
def subBin (a m : Byte) (c : Bool) : Sum := addBin a (~~~m) c

/-- `AddDec(a, m, c)` (R236). -/
def addDec (a m : Byte) (c : Bool) : Sum :=
  let lo0 := a.toNat % 16 + m.toNat % 16 + c.toNat
  let lo := if 0x0A ≤ lo0 then (lo0 + 0x06) % 16 + 0x10 else lo0
  let s0 := (a &&& 0xF0#8).toNat + (m &&& 0xF0#8).toNat + lo
  let sv : Int := (a &&& 0xF0#8).toInt + (m &&& 0xF0#8).toInt + lo
  let s := if 0xA0 ≤ s0 then s0 + 0x60 else s0
  { r := BitVec.ofNat 8 s, n := s0.testBit 7, v := decide (sv < -128) || decide (127 < sv),
    z := BitVec.ofNat 8 (a.toNat + m.toNat + c.toNat) == 0#8, c := decide (0x100 ≤ s) }

/-- The result byte of `SubDec(a, m, c)` (R237). -/
def subDecByte (a m : Byte) (c : Bool) : Byte :=
  let lo0 : Int := (a.toNat % 16 : Nat) - (m.toNat % 16 : Nat) + (c.toNat : Nat) - 1
  let lo : Int := if lo0 < 0 then (lo0 - 0x06) % 16 - 0x10 else lo0
  let s0 : Int := ((a &&& 0xF0#8).toNat : Nat) - ((m &&& 0xF0#8).toNat : Nat) + lo
  let s : Int := if s0 < 0 then s0 - 0x60 else s0
  BitVec.ofInt 8 s

/-- `SubDec(a, m, c)`: all four flags are the binary ones (R237). -/
def subDec (a m : Byte) (c : Bool) : Sum := { subBin a m c with r := subDecByte a m c }

/-- ADC and SBC compute in decimal: `DECIMAL_MODE = nmos` and `P.D = 1` (R235). -/
def decimalActive (dm : DecimalMode) (p : Byte) : Bool := flagD p && decide (dm = .nmos)

/-- N, V, Z and C of a sum in a status byte, the other bits kept. -/
def putSum (p : Byte) (s : Sum) : Byte := putC (putZ (putV (putN p s.n) s.v) s.z) s.c

/-- The flags of `Compare(reg, m)` (R234). -/
def putCompare (p reg m : Byte) : Byte :=
  putN (putZ (putC p (decide (m.toNat ≤ reg.toNat))) (reg == m)) (reg - m).msb

/-- The flags of a shift with carry out `c` and result `r` (R265). -/
def putShift (p r : Byte) (c : Bool) : Byte := putNZ (putC p c) r

/-! ## The ALU transaction (R230) -/

/-- The operations of the ALU (R230). -/
inductive AluOp where
  | add | sub | cmp | and | ora | eor | bit | asl | lsr | rol | ror | inc | dec
  deriving DecidableEq, Repr

/-- The shift and rotate results (R265): result byte and carry out. -/
def shiftOut (op : AluOp) (v : Byte) (c : Bool) : Byte × Bool :=
  match op with
  | .asl => (v <<< 1, v.getLsbD 7)
  | .lsr => (v >>> 1, v.getLsbD 0)
  | .rol => ((v <<< 1) ||| BitVec.ofNat 8 c.toNat, v.getLsbD 7)
  | .ror => ((v >>> 1) ||| (BitVec.ofNat 8 c.toNat <<< 7), v.getLsbD 0)
  | .add | .sub | .cmp | .and | .ora | .eor | .bit | .inc | .dec => (v, c)

/-- `alu(op, a, m, p) → (r, p')` (R230). A one-operand operation works on `m`. CMP and BIT have no result that is
written anywhere; theirs is given as `a - m` and `a & m` (log 13). -/
def alu (dm : DecimalMode) (op : AluOp) (a m p : Byte) : Byte × Byte :=
  match op with
  | .add =>
    let s := if decimalActive dm p then addDec a m (flagC p) else addBin a m (flagC p)
    (s.r, putSum p s)
  | .sub =>
    let s := if decimalActive dm p then subDec a m (flagC p) else subBin a m (flagC p)
    (s.r, putSum p s)
  | .cmp => (a - m, putCompare p a m)
  | .and => (a &&& m, putNZ p (a &&& m))
  | .ora => (a ||| m, putNZ p (a ||| m))
  | .eor => (a ^^^ m, putNZ p (a ^^^ m))
  | .bit => (a &&& m, putZ (putV (putN p (m.getLsbD 7)) (m.getLsbD 6)) ((a &&& m) == 0#8))
  | .asl | .lsr | .rol | .ror =>
    let o := shiftOut op m (flagC p)
    (o.1, putShift p o.1 o.2)
  | .inc => (m + 1#8, putNZ p (m + 1#8))
  | .dec => (m - 1#8, putNZ p (m - 1#8))

end Sys2Proof.Machine
end

