-- ==== Sys2Proof/Syntax.lean ====
section
/-! DEFINITION. The instructions: one constructor per mnemonic of spec/opcode_table.json, whose operand form is the
addressing mode of one of its rows (30_encoding.md R146, R170, R172). -/

namespace Sys2Proof

/-- The addressing modes with an effective address in data memory (30_encoding.md R153-R155, R157-R159, R161, R162).
The argument is the assembled operand: `d`, a byte, or `d16`, an address (R145). -/
inductive MemMode where
  | zp (d : Byte)
  | zpX (d : Byte)
  | zpY (d : Byte)
  | abs (d : Addr)
  | absX (d : Addr)
  | absY (d : Addr)
  | indX (d : Byte)
  | indY (d : Byte)
  deriving DecidableEq, Repr

/-- A read operand: Immediate (R152), or the byte at an effective address. -/
inductive Src where
  | imm (d : Byte)
  | mem (m : MemMode)
  deriving DecidableEq, Repr

/-- The operand of a shift or rotate: Accumulator (R151), or the byte at an effective address. -/
inductive Target where
  | acc
  | mem (m : MemMode)
  deriving DecidableEq, Repr

/-- The operand of JMP: Absolute (R157) or Indirect (R160). -/
inductive JumpMode where
  | abs (d : Addr)
  | ind (d : Addr)
  deriving DecidableEq, Repr

/-- The instructions of 30_encoding.md R170, one constructor per mnemonic of the opcode table (log 8). A Relative
operand is its offset byte (R156). `unknown op` stands for the 105 Unknown rows, `op` being the opcode byte (R176). -/
inductive Instr where
  -- 40_load_store.md
  | lda (src : Src)
  | ldx (src : Src)
  | ldy (src : Src)
  | sta (m : MemMode)
  | stx (m : MemMode)
  | sty (m : MemMode)
  -- 41_transfer_stack.md
  | tax
  | tay
  | txa
  | tya
  | tsx
  | txs
  | php
  | pha
  | pla
  | plp
  -- 42_alu_arith.md
  | adc (src : Src)
  | sbc (src : Src)
  | cmp (src : Src)
  | cpx (src : Src)
  | cpy (src : Src)
  -- 43_alu_logic_shift.md
  | and (src : Src)
  | ora (src : Src)
  | eor (src : Src)
  | bit (m : MemMode)
  | asl (t : Target)
  | lsr (t : Target)
  | rol (t : Target)
  | ror (t : Target)
  | inc (m : MemMode)
  | dec (m : MemMode)
  | inx
  | iny
  | dex
  | dey
  -- 44_control.md
  | bpl (rr : Byte)
  | bmi (rr : Byte)
  | bvc (rr : Byte)
  | bvs (rr : Byte)
  | bcc (rr : Byte)
  | bcs (rr : Byte)
  | bne (rr : Byte)
  | beq (rr : Byte)
  | jmp (j : JumpMode)
  | jsr (d : Addr)
  | rts
  | rti
  | brk
  -- 45_flags_misc.md
  | clc
  | sec
  | cli
  | sei
  | cld
  | sed
  | clv
  | nop
  | unknown (op : Byte)
  deriving DecidableEq, Repr

end Sys2Proof
end

