-- ==== Sys2Proof/Machine/State.lean ====
section
/-! DEFINITION. The state of the core as plain data (10_state.md R59), the reasons a transition can stop, and the state
after reset (10_state.md R61, 70_reset_and_hazards.md R380). -/

namespace Sys2Proof.Machine

/-- `engineState` (10_state.md R55). -/
inductive EngineState where
  | uninitialized
  | running
  deriving DecidableEq, Repr

/-- The kind of access that an `UnmappedAccess` records (60_exceptions.md R341, R342). -/
inductive Access where
  | read
  | write
  | pointer
  deriving DecidableEq, Repr

/-- The events of 60_exceptions.md R341 with the information each records. -/
inductive Event where
  | unmappedAccess (kind : Access) (addr : Addr)
  | readOnlyViolation (addr : Addr)
  | unmappedRegionId (id : RegionId)
  | unknownOpcode (op : Byte) (pc0 : Addr)
  | fileOpenFailure (path : Text)
  | notFound (name : Text)
  deriving DecidableEq, Repr

/-- Bytes by offset, held sparsely: offsets strictly rising, and no entry equal to what an unlisted offset reads as
(log 6). -/
abbrev Cells := List Host.Cell

/-- The storage kinds of 20_memory.md R81. A Borrowed buffer and a mapped file are named by their index in
`Memory.buffers` and `Memory.files`, so that two regions can share one (R111). -/
inductive Storage where
  | owned (cells : Cells)
  | borrowed (buffer : Nat)
  | mappedFile (file : Nat)
  deriving DecidableEq, Repr

/-- A region (20_memory.md R80): byte `storage[i]` is what it shows at address `base + i`, for `i < size`. -/
structure Region where
  id : RegionId
  base : Addr
  size : Nat
  storage : Storage
  writable : Bool
  deriving DecidableEq, Repr

/-- A file of the host's file system (60_exceptions.md R372; log 5). -/
structure HostFile where
  path : Text
  content : Image
  deriving DecidableEq, Repr

/-- The memory state: the region list, oldest first (20_memory.md R90), and the storage behind Borrowed and MappedFile
regions (R81). -/
structure Memory where
  regions : List Region
  buffers : List Image
  files : List HostFile
  deriving DecidableEq, Repr

/-- What the decoded-instruction latch says of the operand: "the EA, the operand, or none" (10_state.md R56). -/
inductive Resolved where
  | none
  | operand (v : Byte)
  | ea (addr : Addr)
  deriving DecidableEq, Repr

/-- The decoded-instruction latch of the last executed instruction (10_state.md R56; log 7). `instr` gives the mnemonic
(or Unknown) and the addressing mode. `pc0` is the address of the opcode byte, which 30_encoding.md R142 keeps for the latch;
the other fields are R56's list. -/
structure DecodedInstr where
  pc0 : Addr
  opcode : Byte
  instr : Instr
  rawBytes : List Byte
  resolved : Resolved
  deriving DecidableEq, Repr

/-- The state of the core (10_state.md R59), with the latch of R56 and the machine's configuration (log 1). -/
structure State where
  /-- PC (R43) -/
  pc : Addr
  /-- SP: the stack byte is at 0x0100 + SP (R44) -/
  sp : Byte
  /-- the accumulator (R42) -/
  a : Byte
  /-- index register X (R42) -/
  x : Byte
  /-- index register Y (R42) -/
  y : Byte
  /-- FLAGS (R45) -/
  p : Byte
  /-- engineState (R55) -/
  engine : EngineState
  /-- the memory state (R58) -/
  mem : Memory
  /-- the event log, oldest first (R60) -/
  log : List Event
  /-- the decoded-instruction latch (R56) -/
  latch : Option DecodedInstr
  /-- the parameters of 00_scope.md R6: the model's own field, constant (log 1) -/
  config : Config
  deriving DecidableEq, Repr

/-- Why a transition has no successor state. -/
inductive Fault where
  /-- Raised by a host map operation whose owned buffer cannot be allocated: "treated as fatal", no successor state
  (60_exceptions.md R347). Never raised by `step`. Safe: the spec gives no state after it. -/
  | allocationFailure
  deriving DecidableEq, Repr

/-- Why the model offers no such transition. -/
inductive Refusal where
  /-- Raised by an arm of `exec` for an instruction that has no meaning yet. Safe. No arm raises it. -/
  | notModelled (mnemonic : String)
  /-- Raised by a host map call with `size = 0`, "a host call with no meaning" (20_memory.md R82). Safe. -/
  | zeroSizeMap
  /-- Raised by a host `mapBuffer` whose buffer holds fewer than `size` bytes (20_memory.md R85). Safe. -/
  | shortBuffer
  /-- Raised by a host call that names a caller-owned buffer, or a byte of one, that does not exist (log 5). Safe. -/
  | noSuchBuffer
  /-- Raised by a host access through a pointer handle past the region's storage (20_memory.md R80, R94), or at a byte at or
  above address 0x10000, which "can never be reached" (R82; log 9). Safe. -/
  | pastStorage
  /-- Raised by a host change of a file that a region maps: "must not be changed by anyone else while it is mapped"
  (60_exceptions.md R372). Safe. -/
  | fileIsMapped
  deriving DecidableEq, Repr

/-- The id of the RAM region (20_memory.md R120). -/
def ramId : RegionId := { chars := ['R', 'A', 'M'], wf := rfl }

/-- The id of the ROM region (20_memory.md R120). -/
def romId : RegionId := { chars := ['R', 'O', 'M'], wf := rfl }

/-- The RAM region of the Machine layout: `mapZeroed("RAM", 0x0000, ROM_BASE, true)` (20_memory.md R120). -/
def ramRegion (c : Config) : Region :=
  { id := ramId, base := 0x0000#16, size := c.romBase.toNat, storage := .owned [], writable := true }

/-- The ROM region of the Machine layout: a read-only copy of the image, whose length is its size (20_memory.md R87,
R120, R121). -/
def romRegion (c : Config) : Region :=
  { id := romId, base := c.romBase, size := c.romImage.size, storage := .owned c.romImage.cells,
    writable := false }

/-- The machine right after reset: a freshly built Machine of the default configuration (10_state.md R61, 20_memory.md
R120), every register at its reset value and the engine Uninitialized (70_reset_and_hazards.md R380). -/
def State.reset : State :=
  { pc := 0x0000#16
    sp := 0xFD#8
    a := 0x00#8
    x := 0x00#8
    y := 0x00#8
    p := 0x04#8
    engine := .uninitialized
    mem :=
      { regions := [ramRegion Config.default, romRegion Config.default]
        buffers := []
        files := [{ path := Config.default.romPath, content := Config.default.romImage }] }
    log := []
    latch := none
    config := Config.default }

end Sys2Proof.Machine
end

