-- ==== Sys2Proof/Machine/Memory.lean ====
section
/-! DEFINITION. The memory_region_arbiter: storage bytes, containment and resolution (20_memory.md R80-R93), and the
canonical form of the memory state. -/

namespace Sys2Proof.Machine

/-- What an offset that no cell lists holds: 0x00, the fill of `mapZeroed` (R84) and of an extended file (R86) (log 6). -/
def unlistedByte : Byte := 0x00#8

/-- The byte at an offset. -/
def Cells.get : Cells → Nat → Byte
  | [], _ => unlistedByte
  | (k, v) :: cs, i => if k = i then v else Cells.get cs i

/-- `cs` without any entry at offset `i`. -/
def Cells.erase (cs : Cells) (i : Nat) : Cells := cs.filter fun c => c.1 ≠ i

/-- `cs` with an entry at offset `i`, before the first larger offset. -/
def Cells.insert : Cells → Nat → Byte → Cells
  | [], i, v => [(i, v)]
  | (k, w) :: cs, i, v => if i < k then (i, v) :: (k, w) :: cs else (k, w) :: Cells.insert cs i v

/-- Writes the byte at an offset; writing what an unlisted offset holds removes the entry. -/
def Cells.put (cs : Cells) (i : Nat) (v : Byte) : Cells :=
  if v = unlistedByte then Cells.erase cs i else Cells.insert (Cells.erase cs i) i v

/-- The canonical form from offset `lo` up: offsets strictly rising and below `size`, no entry with the unlisted byte. -/
def Cells.canonicalFrom : Nat → Nat → Cells → Bool
  | _, _, [] => true
  | lo, size, (k, v) :: cs =>
    decide (lo ≤ k) && decide (k < size) && decide (v ≠ unlistedByte) && Cells.canonicalFrom (k + 1) size cs

/-- The canonical form of `size` bytes. -/
def Cells.canonical (size : Nat) (cs : Cells) : Bool := Cells.canonicalFrom 0 size cs

/-- Cells from a list of bytes, the first at offset `i`. -/
def Cells.ofBytesFrom : Nat → List Byte → Cells
  | _, [] => []
  | i, v :: vs => if v = unlistedByte then Cells.ofBytesFrom (i + 1) vs else (i, v) :: Cells.ofBytesFrom (i + 1) vs

/-- An image holding exactly the listed bytes. -/
def imageOf (bytes : List Byte) : Image := { size := bytes.length, cells := Cells.ofBytesFrom 0 bytes }

/-- An image with the byte at an offset written. -/
def putImage (im : Image) (i : Nat) (v : Byte) : Image := { im with cells := Cells.put im.cells i v }

/-- Containment, in unbounded integers (R83). -/
def Region.contains (r : Region) (addr : Nat) : Bool :=
  decide (r.base.toNat ≤ addr) && decide (addr < r.base.toNat + r.size)

/-- What resolution finds: region index `k`, the region, and the offset `o = a - base` (R91). -/
structure Hit where
  k : Nat
  region : Region
  o : Nat
  deriving DecidableEq, Repr

/-- Resolution in a region list whose first region has index `k`: the newest, that is the last, region that contains the
address (R91). -/
def resolveFrom : Nat → List Region → Nat → Option Hit
  | _, [], _ => none
  | k, r :: rs, addr =>
    match resolveFrom (k + 1) rs addr with
    | some h => some h
    | none => if r.contains addr then some { k := k, region := r, o := addr - r.base.toNat } else none

/-- Resolution, whatever the `writable` flags say (R91, R92). -/
def Memory.resolve (m : Memory) (addr : Addr) : Option Hit := resolveFrom 0 m.regions addr.toNat

/-- One storage byte: of a region's own buffer, of a caller-owned buffer, or of a file (R81). -/
inductive Site where
  | owned (k o : Nat)
  | buffer (b o : Nat)
  | file (f o : Nat)
  deriving DecidableEq, Repr

/-- The storage byte that a region shows: `storage[o]` (R80, R81). -/
def Hit.site (h : Hit) : Site :=
  match h.region.storage with
  | .owned _ => .owned h.k h.o
  | .borrowed b => .buffer b h.o
  | .mappedFile f => .file f h.o

/-- The cells of a region's own buffer. -/
def Storage.ownedCells : Storage → Cells
  | .owned cells => cells
  | .borrowed _ | .mappedFile _ => []

/-- A region's own buffer with a byte written; other storage is not in the region. -/
def Storage.putOwned (st : Storage) (o : Nat) (v : Byte) : Storage :=
  match st with
  | .owned cells => .owned (Cells.put cells o v)
  | .borrowed b => .borrowed b
  | .mappedFile f => .mappedFile f

/-- The byte a storage byte holds. -/
def Memory.byteAt (m : Memory) : Site → Byte
  | .owned k o => match m.regions[k]? with
    | some r => Cells.get r.storage.ownedCells o
    | none => unlistedByte
  | .buffer b o => match m.buffers[b]? with
    | some im => Cells.get im.cells o
    | none => unlistedByte
  | .file f o => match m.files[f]? with
    | some hf => Cells.get hf.content.cells o
    | none => unlistedByte

/-- Writes one storage byte (R97: a write to a MappedFile changes the file, to a Borrowed region the caller's buffer). -/
def Memory.putAt (m : Memory) (site : Site) (v : Byte) : Memory :=
  match site with
  | .owned k o => { m with regions := m.regions.modify k fun r => { r with storage := r.storage.putOwned o v } }
  | .buffer b o => { m with buffers := m.buffers.modify b fun im => putImage im o v }
  | .file f o => { m with files := m.files.modify f fun hf => { hf with content := putImage hf.content o v } }

/-- The storage byte that an address shows, if any region contains it. -/
def Memory.siteOf (m : Memory) (addr : Addr) : Option Site := (m.resolve addr).map Hit.site

/-- What a read of the address returns (R95). -/
def Memory.peek (m : Memory) (addr : Addr) : Byte :=
  match m.siteOf addr with
  | some site => m.byteAt site
  | none => 0x00#8

/-- A write to the address changes a storage byte: the region it resolves to exists and is writable (R97). -/
def Memory.storable (m : Memory) (addr : Addr) : Bool :=
  match m.resolve addr with
  | some h => h.region.writable
  | none => false

/-- The region with its bytes left out: what resolution and protection look at. -/
structure Shape where
  id : RegionId
  base : Addr
  size : Nat
  kind : Storage
  writable : Bool
  deriving DecidableEq, Repr

/-- A storage without its own bytes. -/
def Storage.kind : Storage → Storage
  | .owned _ => .owned []
  | .borrowed b => .borrowed b
  | .mappedFile f => .mappedFile f

/-- The shape of a region. -/
def Region.shape (r : Region) : Shape :=
  { id := r.id, base := r.base, size := r.size, kind := r.storage.kind, writable := r.writable }

/-- The address map: the shapes of the region list, oldest first. -/
def Memory.map (m : Memory) : List Shape := m.regions.map Region.shape

/-- `idMatch`: equal in their first 16 characters (R93). -/
def idMatch (s t : RegionId) : Bool := decide (s.chars.take Config.idCompareLen = t.chars.take Config.idCompareLen)

/-- The index of the newest region whose id matches, the first region having index `k` (R89). -/
def newestMatchFrom : Nat → List Region → RegionId → Option Nat
  | _, [], _ => none
  | k, r :: rs, id =>
    match newestMatchFrom (k + 1) rs id with
    | some j => some j
    | none => if idMatch r.id id then some k else none

/-- The index of the newest region that `unmap(id)` removes (R89). -/
def Memory.newestMatch (m : Memory) (id : RegionId) : Option Nat := newestMatchFrom 0 m.regions id

/-- The memory with one more region, the newest (R90). -/
def Memory.addRegion (m : Memory) (r : Region) : Memory := { m with regions := m.regions ++ [r] }

/-- The memory without region `k`, the order of the others unchanged (R89). An owned buffer goes with its region; a
caller's buffer and a file keep their bytes. -/
def Memory.dropRegion (m : Memory) (k : Nat) : Memory := { m with regions := m.regions.eraseIdx k }

/-- The index of the file at `path`, the first file having index `f`. -/
def fileIndexFrom : Nat → List HostFile → Text → Option Nat
  | _, [], _ => none
  | f, hf :: hfs, path => if hf.path = path then some f else fileIndexFrom (f + 1) hfs path

/-- The index of the file at `path`. -/
def Memory.fileIndex (m : Memory) (path : Text) : Option Nat := fileIndexFrom 0 m.files path

/-! ## The canonical form -/

/-- `size` bytes in canonical form. -/
def imageWf (im : Image) : Bool := Cells.canonical im.size im.cells

/-- A region is well-formed: `size > 0` (R82), its storage holds `size` bytes (R80, R85), its own bytes are in canonical
form, and a MappedFile region is writable (R81, R86). -/
def Memory.regionWf (m : Memory) (r : Region) : Bool :=
  decide (0 < r.size) &&
    match r.storage with
    | .owned cells => Cells.canonical r.size cells
    | .borrowed b => match m.buffers[b]? with
      | some im => decide (r.size ≤ im.size)
      | none => false
    | .mappedFile f => match m.files[f]? with
      | some hf => decide (r.size ≤ hf.content.size) && r.writable
      | none => false

/-- The memory state is in canonical form: every region, buffer and file well-formed, and no path twice. -/
def Memory.wf (m : Memory) : Bool :=
  m.regions.all m.regionWf && m.buffers.all imageWf && m.files.all (fun hf => imageWf hf.content) &&
    decide (m.files.map HostFile.path).Nodup

end Sys2Proof.Machine
end

