-- ==== Sys2Proof/Machine/Ops.lean ====
section
/-! DEFINITION. The named operations over registers and memory: register writes (10_state.md R31), events (00_scope.md
R12), the byte read and write (20_memory.md R95, R97), two-byte reads (R102-R104), the stack (41_transfer_stack.md R210,
R211), and trap entry and return (60_exceptions.md R352, R353). -/

namespace Sys2Proof.Machine

/-! ## Register writes: `R <- v` is `set(v)`, masked (10_state.md R31, R40) -/

def State.setPC (s : State) (v : Addr) : State := { s with pc := v }
def State.setSP (s : State) (v : Byte) : State := { s with sp := v }
def State.setA (s : State) (v : Byte) : State := { s with a := v }
def State.setX (s : State) (v : Byte) : State := { s with x := v }
def State.setY (s : State) (v : Byte) : State := { s with y := v }

/-- FLAGS is the one register with a mask: bit 5 becomes 0 (R46). -/
def State.setP (s : State) (v : Byte) : State := { s with p := maskP v }

def State.setEngine (s : State) (e : EngineState) : State := { s with engine := e }
def State.setMem (s : State) (m : Memory) : State := { s with mem := m }
def State.setLatch (s : State) (l : DecodedInstr) : State := { s with latch := some l }

/-- `SetNZ(v)` (00_scope.md R13). -/
def State.setNZ (s : State) (v : Byte) : State := s.setP (putNZ s.p v)

/-- The code number of an event's kind (60_exceptions.md R341, 92_eei_decisions.md D22). -/
def Event.code : Event → Nat
  | .unmappedAccess _ _ => 1
  | .readOnlyViolation _ => 2
  | .unmappedRegionId _ => 3
  | .unknownOpcode _ _ => 4
  | .fileOpenFailure _ => 5
  | .notFound _ => 6

/-- `raise E(info)`: appends to the log and goes on (00_scope.md R12). -/
def State.raise (s : State) (e : Event) : State := { s with log := s.log ++ [e] }

/-! ## Memory accesses -/

/-- `MemRead(a, 1)` (20_memory.md R95). -/
def memRead (addr : Addr) (s : State) : Byte × State :=
  match s.mem.resolve addr with
  | some h => (s.mem.byteAt h.site, s)
  | none => (0x00#8, s.raise (.unmappedAccess .read addr))

/-- `MemWrite(a, 1, v)` (20_memory.md R97). -/
def memWrite (addr : Addr) (v : Byte) (s : State) : State :=
  match s.mem.resolve addr with
  | some h => if h.region.writable then s.setMem (s.mem.putAt h.site v) else s.raise (.readOnlyViolation addr)
  | none => s.raise (.unmappedAccess .write addr)

/-- Two byte reads, the low byte first, as a little-endian pair (20_memory.md R101, R106). -/
def readPair (loAddr hiAddr : Addr) (s : State) : Addr × State :=
  let lo := memRead loAddr s
  let hi := memRead hiAddr lo.2
  (pair hi.1 lo.1, hi.2)

/-- `Read16(a)` (20_memory.md R102). -/
def read16 (addr : Addr) (s : State) : Addr × State := readPair addr (addr + 1#16) s

/-- Where the high byte of a zero-page pointer at `z` lies (20_memory.md R103). -/
def zpPointerHigh (w : PointerWrap) (z : Byte) : Addr :=
  match w with
  | .nmos => zext (z + 1#8)
  | .linear => zext z + 1#16

/-- `ZPRead16(z)` (20_memory.md R103). -/
def zpRead16 (z : Byte) (s : State) : Addr × State := readPair (zext z) (zpPointerHigh s.config.pointerWrap z) s

/-- Where the high byte of an absolute pointer at `a` lies (20_memory.md R104). -/
def absPointerHigh (w : PointerWrap) (addr : Addr) : Addr :=
  match w with
  | .nmos => (addr &&& 0xFF00#16) ||| ((addr + 1#16) &&& 0x00FF#16)
  | .linear => addr + 1#16

/-- `IndRead16(a)` (20_memory.md R104). -/
def indRead16 (addr : Addr) (s : State) : Addr × State := readPair addr (absPointerHigh s.config.pointerWrap addr) s

/-! ## The stack -/

/-- The stack byte that `SP` names: `0x0100 + SP` (10_state.md R44). -/
def stackAddr (sp : Byte) : Addr := 0x0100#16 + zext sp

/-- `Push(b)`: write, then decrement, whether or not the write was dropped (R210). -/
def push (b : Byte) (s : State) : State := (memWrite (stackAddr s.sp) b s).setSP (s.sp - 1#8)

/-- `Pop()`: increment, then read (R211). -/
def pop (s : State) : Byte × State := memRead (stackAddr (s.sp + 1#8)) (s.setSP (s.sp + 1#8))

/-- Pushes an address, high byte first (44_control.md R301, R311). -/
def pushAddr (addr : Addr) (s : State) : State := push (lowByte addr) (push (highByte addr) s)

/-- Pops an address, low byte first (44_control.md R302, R310). -/
def popAddr (s : State) : Addr × State :=
  let lo := pop s
  let hi := pop lo.2
  (pair hi.1 lo.1, hi.2)

/-! ## Trap entry and return -/

/-- Trap entry (44_control.md R311, 60_exceptions.md R352): saves the return address and `P | 0x30` on the stack, sets I,
and goes to the address held at the BRK vector. -/
def takeBreak (ret : Addr) (s : State) : State :=
  let s := pushAddr ret s
  let s := push (pushedP s.p) s
  let s := s.setP (putI s.p true)
  let target := read16 Config.brkVector s
  target.2.setPC target.1

/-- Trap return (44_control.md R310, 60_exceptions.md R353): pulls P through `set`, then PC low, then PC high, no +1. -/
def returnFromBreak (s : State) : State :=
  let p := pop s
  let ret := popAddr (p.2.setP p.1)
  ret.2.setPC ret.1

end Sys2Proof.Machine
end

