-- ==== Sys2Proof/Machine/Operands.lean ====
section
/-! DEFINITION. The operand forms: effective addresses (30_encoding.md R150-R163), operand values (R164), branch targets
(R156), and what the decoded-instruction latch says of the operand (10_state.md R56). -/

namespace Sys2Proof.Machine

/-- Zero Page,X and Zero Page,Y: the sum wraps within page 0 (R154, R155). -/
def zpIndexed (d index : Byte) : Addr := zext (d + index)

/-- Absolute,X, Absolute,Y and the last sum of (zp),Y: a 16-bit sum (R158, R159, R162). -/
def indexed (base : Addr) (index : Byte) : Addr := base + zext index

/-- The effective address, formed once, with the pointer reads of the mode (R153-R155, R157-R159, R161-R163). -/
def effectiveAddr (m : MemMode) (s : State) : Addr × State :=
  match m with
  | .zp d => (zext d, s)
  | .zpX d => (zpIndexed d s.x, s)
  | .zpY d => (zpIndexed d s.y, s)
  | .abs d => (d, s)
  | .absX d => (indexed d s.x, s)
  | .absY d => (indexed d s.y, s)
  | .indX d => zpRead16 (d + s.x) s
  | .indY d =>
    let base := zpRead16 d s
    (indexed base.1 s.y, base.2)

/-- The operand value `M = MEM[EA]` of a memory mode, read once (R164). -/
def loadMem (m : MemMode) (s : State) : Byte × State :=
  let ea := effectiveAddr m s
  memRead ea.1 ea.2

/-- The operand value `M` (R152, R164). -/
def loadSrc (src : Src) (s : State) : Byte × State :=
  match src with
  | .imm d => (d, s)
  | .mem m => loadMem m s

/-- A store: the effective address is not read (R164). -/
def storeMem (m : MemMode) (v : Byte) (s : State) : State :=
  let ea := effectiveAddr m s
  memWrite ea.1 v ea.2

/-- The target of a jump, with the pointer reads of Indirect (R157, R160). -/
def jumpTarget (j : JumpMode) (s : State) : Addr × State :=
  match j with
  | .abs d => (d, s)
  | .ind d => indRead16 d s

/-- The target of a branch, `PC` being the address after it (R156). -/
def branchTarget (rr : Byte) (s : State) : Addr := s.pc + sext rr

/-- What the latch keeps of a memory mode: its EA (10_state.md R56). -/
def resolvedMem (m : MemMode) (s : State) : Resolved := .ea (effectiveAddr m s).1

/-- What the latch keeps of a read operand: the immediate value or the EA. -/
def resolvedSrc (src : Src) (s : State) : Resolved :=
  match src with
  | .imm d => .operand d
  | .mem m => resolvedMem m s

/-- What the latch keeps of a shift operand: "operand is the accumulator itself" (30_encoding.md R150, R151), or the EA. -/
def resolvedTarget (t : Target) (s : State) : Resolved :=
  match t with
  | .acc => .operand s.a
  | .mem m => resolvedMem m s

/-- "The EA, the operand, or none" of an instruction about to execute (10_state.md R56; log 7). -/
def resolved (i : Instr) (s : State) : Resolved :=
  match i with
  | .lda src | .ldx src | .ldy src | .adc src | .sbc src | .cmp src | .cpx src | .cpy src => resolvedSrc src s
  | .and src | .ora src | .eor src => resolvedSrc src s
  | .sta m | .stx m | .sty m | .bit m | .inc m | .dec m => resolvedMem m s
  | .asl t | .lsr t | .rol t | .ror t => resolvedTarget t s
  | .bpl d | .bmi d | .bvc d | .bvs d | .bcc d | .bcs d | .bne d | .beq d => .operand d
  | .jmp j => .ea (jumpTarget j s).1
  | .jsr d => .ea d
  | .tax | .tay | .txa | .tya | .tsx | .txs | .php | .pha | .pla | .plp | .inx | .iny | .dex | .dey => .none
  | .rts | .rti | .brk | .clc | .sec | .cli | .sei | .cld | .sed | .clv | .nop | .unknown _ => .none

end Sys2Proof.Machine
end

