-- ==== Sys2Proof/Machine/Control.lean ====
section
/-! DEFINITION. Control transfer (44_control.md). -/

namespace Sys2Proof.Machine

/-- `Branch(cond)` (R290). -/
def branch (cond : Bool) (rr : Byte) (s : State) : State :=
  if cond then s.setPC (branchTarget rr s) else s

/-- BPL: `Branch(P.N = 0)` (R291). -/
def execBpl (rr : Byte) (s : State) : Host.Outcome State Fault Refusal :=
  .next (branch (!flagN s.p) rr s)

/-- BMI: `Branch(P.N = 1)` (R292). -/
def execBmi (rr : Byte) (s : State) : Host.Outcome State Fault Refusal :=
  .next (branch (flagN s.p) rr s)

/-- BVC: `Branch(P.V = 0)` (R293). -/
def execBvc (rr : Byte) (s : State) : Host.Outcome State Fault Refusal :=
  .next (branch (!flagV s.p) rr s)

/-- BVS: `Branch(P.V = 1)` (R294). -/
def execBvs (rr : Byte) (s : State) : Host.Outcome State Fault Refusal :=
  .next (branch (flagV s.p) rr s)

/-- BCC: `Branch(P.C = 0)` (R295). -/
def execBcc (rr : Byte) (s : State) : Host.Outcome State Fault Refusal :=
  .next (branch (!flagC s.p) rr s)

/-- BCS: `Branch(P.C = 1)` (R296). -/
def execBcs (rr : Byte) (s : State) : Host.Outcome State Fault Refusal :=
  .next (branch (flagC s.p) rr s)

/-- BNE: `Branch(P.Z = 0)` (R297). -/
def execBne (rr : Byte) (s : State) : Host.Outcome State Fault Refusal :=
  .next (branch (!flagZ s.p) rr s)

/-- BEQ: `Branch(P.Z = 1)` (R298). -/
def execBeq (rr : Byte) (s : State) : Host.Outcome State Fault Refusal :=
  .next (branch (flagZ s.p) rr s)

/-- JMP: `PC <- EA` (R300). -/
def execJmp (j : JumpMode) (s : State) : Host.Outcome State Fault Refusal :=
  let target := jumpTarget j s
  .next (target.2.setPC target.1)

/-- JSR: pushes the address of its own last byte, then `PC <- d16` (R301). -/
def execJsr (d : Addr) (s : State) : Host.Outcome State Fault Refusal :=
  .next ((pushAddr (s.pc - 1#16) s).setPC d)

/-- RTS: pops low then high, adds 1 (R302). -/
def execRts (s : State) : Host.Outcome State Fault Refusal :=
  let ret := popAddr s
  .next (ret.2.setPC (ret.1 + 1#16))

/-- RTI: trap return (R310). -/
def execRti (s : State) : Host.Outcome State Fault Refusal :=
  .next (returnFromBreak s)

/-- BRK: trap entry with return address BRK + 2, `PC` being BRK + 1 (R311). -/
def execBrk (s : State) : Host.Outcome State Fault Refusal :=
  .next (takeBreak (s.pc + 1#16) s)

end Sys2Proof.Machine
end

