-- ==== Sys2Proof/Machine/FlagOps.lean ====
section
/-! DEFINITION. Flag instructions, NOP and Unknown opcodes (45_flags_misc.md). -/

namespace Sys2Proof.Machine

/-- CLC: `P.C <- 0` (R320). -/
def execClc (s : State) : Host.Outcome State Fault Refusal :=
  .next (s.setP (putC s.p false))

/-- SEC: `P.C <- 1` (R321). -/
def execSec (s : State) : Host.Outcome State Fault Refusal :=
  .next (s.setP (putC s.p true))

/-- CLI: `P.I <- 0` (R322). -/
def execCli (s : State) : Host.Outcome State Fault Refusal :=
  .next (s.setP (putI s.p false))

/-- SEI: `P.I <- 1` (R323). -/
def execSei (s : State) : Host.Outcome State Fault Refusal :=
  .next (s.setP (putI s.p true))

/-- CLD: `P.D <- 0` (R324). -/
def execCld (s : State) : Host.Outcome State Fault Refusal :=
  .next (s.setP (putD s.p false))

/-- SED: `P.D <- 1` (R325). -/
def execSed (s : State) : Host.Outcome State Fault Refusal :=
  .next (s.setP (putD s.p true))

/-- CLV: `P.V <- 0` (R326). -/
def execClv (s : State) : Host.Outcome State Fault Refusal :=
  .next (s.setP (putV s.p false))

/-- NOP: nothing beyond the fetch (R327). -/
def execNop (s : State) : Host.Outcome State Fault Refusal :=
  .next s

/-- Unknown: `raise UnknownOpcode(op, pc0)` and nothing else; `pc0` is the address of the 1-byte opcode, `PC - 1` after its
fetch (R328; log 11). -/
def execUnknown (op : Byte) (s : State) : Host.Outcome State Fault Refusal :=
  .next (s.raise (.unknownOpcode op (s.pc - 1#16)))

end Sys2Proof.Machine
end

