-- ==== Sys2Proof/Machine/LoadStore.lean ====
section
/-! DEFINITION. Loads and stores (40_load_store.md). -/

namespace Sys2Proof.Machine

/-! A load writes its register and N and Z; a store writes no register and no flag (R196). -/

/-- LDA: `A <- M; SetNZ(A)` (R190). -/
def execLda (src : Src) (s : State) : Host.Outcome State Fault Refusal :=
  let v := loadSrc src s
  .next ((v.2.setA v.1).setNZ v.1)

/-- LDX: `X <- M; SetNZ(X)` (R191). -/
def execLdx (src : Src) (s : State) : Host.Outcome State Fault Refusal :=
  let v := loadSrc src s
  .next ((v.2.setX v.1).setNZ v.1)

/-- LDY: `Y <- M; SetNZ(Y)` (R192). -/
def execLdy (src : Src) (s : State) : Host.Outcome State Fault Refusal :=
  let v := loadSrc src s
  .next ((v.2.setY v.1).setNZ v.1)

/-- STA: `MemWrite(EA, 1, A)` (R193). -/
def execSta (m : MemMode) (s : State) : Host.Outcome State Fault Refusal :=
  .next (storeMem m s.a s)

/-- STX: `MemWrite(EA, 1, X)` (R194). -/
def execStx (m : MemMode) (s : State) : Host.Outcome State Fault Refusal :=
  .next (storeMem m s.x s)

/-- STY: `MemWrite(EA, 1, Y)` (R195). -/
def execSty (m : MemMode) (s : State) : Host.Outcome State Fault Refusal :=
  .next (storeMem m s.y s)

end Sys2Proof.Machine
end

