-- ==== Sys2Proof/Machine/Arith.lean ====
section
/-! DEFINITION. ALU arithmetic: ADC, SBC, CMP, CPX, CPY (42_alu_arith.md). -/

namespace Sys2Proof.Machine

/-- The ALU's result and flags from A and `m`, written to A and P. -/
def aluToA (op : AluOp) (m : Byte) (s : State) : State :=
  let o := alu s.config.decimalMode op s.a m s.p
  (s.setA o.1).setP o.2

/-- The ALU's flags from `reg` and `m`, written to P; no register is written. -/
def aluToFlags (op : AluOp) (reg m : Byte) (s : State) : State :=
  s.setP (alu s.config.decimalMode op reg m s.p).2

/-- ADC: `A` and N, V, Z, C from `AddDec` or `AddBin` (R240). -/
def execAdc (src : Src) (s : State) : Host.Outcome State Fault Refusal :=
  let v := loadSrc src s
  .next (aluToA .add v.1 v.2)

/-- SBC: `A` and N, V, Z, C from `SubDec` or `SubBin` (R241). -/
def execSbc (src : Src) (s : State) : Host.Outcome State Fault Refusal :=
  let v := loadSrc src s
  .next (aluToA .sub v.1 v.2)

/-- CMP: `Compare(A, M)` (R242). -/
def execCmp (src : Src) (s : State) : Host.Outcome State Fault Refusal :=
  let v := loadSrc src s
  .next (aluToFlags .cmp v.2.a v.1 v.2)

/-- CPX: `Compare(X, M)` (R243). -/
def execCpx (src : Src) (s : State) : Host.Outcome State Fault Refusal :=
  let v := loadSrc src s
  .next (aluToFlags .cmp v.2.x v.1 v.2)

/-- CPY: `Compare(Y, M)` (R244). -/
def execCpy (src : Src) (s : State) : Host.Outcome State Fault Refusal :=
  let v := loadSrc src s
  .next (aluToFlags .cmp v.2.y v.1 v.2)

end Sys2Proof.Machine
end

