-- ==== Sys2Proof/Machine/Logic.lean ====
section
/-! DEFINITION. ALU logic, shifts and increments (43_alu_logic_shift.md). -/

namespace Sys2Proof.Machine

/-- AND: `A <- A & M; SetNZ(A)` (R261). -/
def execAnd (src : Src) (s : State) : Host.Outcome State Fault Refusal :=
  let v := loadSrc src s
  .next (aluToA .and v.1 v.2)

/-- ORA: `A <- A | M; SetNZ(A)` (R262). -/
def execOra (src : Src) (s : State) : Host.Outcome State Fault Refusal :=
  let v := loadSrc src s
  .next (aluToA .ora v.1 v.2)

/-- EOR: `A <- A ^ M; SetNZ(A)` (R263). -/
def execEor (src : Src) (s : State) : Host.Outcome State Fault Refusal :=
  let v := loadSrc src s
  .next (aluToA .eor v.1 v.2)

/-- BIT: `P.N <- M[7]; P.V <- M[6]; P.Z <- ((A & M) = 0)` (R264). -/
def execBit (m : MemMode) (s : State) : Host.Outcome State Fault Refusal :=
  let v := loadMem m s
  .next (aluToFlags .bit v.2.a v.1 v.2)

/-- A read-modify-write: the EA is formed once, read once and written once (30_encoding.md R163; R266, R270). -/
def modifyMem (op : AluOp) (m : MemMode) (s : State) : State :=
  let ea := effectiveAddr m s
  let v := memRead ea.1 ea.2
  let o := alu v.2.config.decimalMode op v.2.a v.1 v.2.p
  memWrite ea.1 o.1 (v.2.setP o.2)

/-- A shift or rotate of A or of memory (R266). -/
def shiftTarget (op : AluOp) (t : Target) (s : State) : State :=
  match t with
  | .acc => aluToA op s.a s
  | .mem m => modifyMem op m s

/-- ASL of A or memory; C, N, Z (R266). -/
def execAsl (t : Target) (s : State) : Host.Outcome State Fault Refusal :=
  .next (shiftTarget .asl t s)

/-- LSR of A or memory; C, N, Z (R267). -/
def execLsr (t : Target) (s : State) : Host.Outcome State Fault Refusal :=
  .next (shiftTarget .lsr t s)

/-- ROL of A or memory; C, N, Z (R268). -/
def execRol (t : Target) (s : State) : Host.Outcome State Fault Refusal :=
  .next (shiftTarget .rol t s)

/-- ROR of A or memory; C, N, Z (R269). -/
def execRor (t : Target) (s : State) : Host.Outcome State Fault Refusal :=
  .next (shiftTarget .ror t s)

/-- INC: `r <- u8(MEM[EA] + 1); SetNZ(r); MemWrite(EA, 1, r)` (R270). -/
def execInc (m : MemMode) (s : State) : Host.Outcome State Fault Refusal :=
  .next (modifyMem .inc m s)

/-- DEC: `r <- u8(MEM[EA] - 1); SetNZ(r); MemWrite(EA, 1, r)` (R271). -/
def execDec (m : MemMode) (s : State) : Host.Outcome State Fault Refusal :=
  .next (modifyMem .dec m s)

/-- INX: `X <- X + 1; SetNZ(X)` (R272). -/
def execInx (s : State) : Host.Outcome State Fault Refusal :=
  .next ((s.setX (s.x + 1#8)).setNZ (s.x + 1#8))

/-- INY: `Y <- Y + 1; SetNZ(Y)` (R273). -/
def execIny (s : State) : Host.Outcome State Fault Refusal :=
  .next ((s.setY (s.y + 1#8)).setNZ (s.y + 1#8))

/-- DEX: `X <- X - 1; SetNZ(X)` (R274). -/
def execDex (s : State) : Host.Outcome State Fault Refusal :=
  .next ((s.setX (s.x - 1#8)).setNZ (s.x - 1#8))

/-- DEY: `Y <- Y - 1; SetNZ(Y)` (R275). -/
def execDey (s : State) : Host.Outcome State Fault Refusal :=
  .next ((s.setY (s.y - 1#8)).setNZ (s.y - 1#8))

end Sys2Proof.Machine
end

