-- ==== Sys2Proof/Machine/Transfer.lean ====
section
/-! DEFINITION. Register transfers and the stack instructions (41_transfer_stack.md). -/

namespace Sys2Proof.Machine

/-- TAX: `X <- A; SetNZ(X)` (R212). -/
def execTax (s : State) : Host.Outcome State Fault Refusal :=
  .next ((s.setX s.a).setNZ s.a)

/-- TAY: `Y <- A; SetNZ(Y)` (R213). -/
def execTay (s : State) : Host.Outcome State Fault Refusal :=
  .next ((s.setY s.a).setNZ s.a)

/-- TXA: `A <- X; SetNZ(A)` (R214). -/
def execTxa (s : State) : Host.Outcome State Fault Refusal :=
  .next ((s.setA s.x).setNZ s.x)

/-- TYA: `A <- Y; SetNZ(A)` (R215). -/
def execTya (s : State) : Host.Outcome State Fault Refusal :=
  .next ((s.setA s.y).setNZ s.y)

/-- TSX: `X <- SP; SetNZ(X)` (R216). -/
def execTsx (s : State) : Host.Outcome State Fault Refusal :=
  .next ((s.setX s.sp).setNZ s.sp)

/-- TXS: `SP <- X`, no flag (R217). -/
def execTxs (s : State) : Host.Outcome State Fault Refusal :=
  .next (s.setSP s.x)

/-- PHP: `Push(P | 0x30)` (R218). -/
def execPhp (s : State) : Host.Outcome State Fault Refusal :=
  .next (push (pushedP s.p) s)

/-- PHA: `Push(A)` (R219). -/
def execPha (s : State) : Host.Outcome State Fault Refusal :=
  .next (push s.a s)

/-- PLA: `A <- Pop(); SetNZ(A)` (R220). -/
def execPla (s : State) : Host.Outcome State Fault Refusal :=
  let v := pop s
  .next ((v.2.setA v.1).setNZ v.1)

/-- PLP: `P <- Pop()`, through `set` (R221). -/
def execPlp (s : State) : Host.Outcome State Fault Refusal :=
  let v := pop s
  .next (v.2.setP v.1)

end Sys2Proof.Machine
end

