-- ==== Sys2Proof/WellFormed.lean ====
section
/-! DEFINITION. Which instructions exist: the modes each mnemonic takes (30_encoding.md R172) and the Unknown bytes
(R176). Also which parameters make a Machine well-formed for boot (70_reset_and_hazards.md R390). -/

namespace Sys2Proof

namespace MemMode

/-- The memory modes of ADC, AND, CMP, EOR, LDA, ORA, SBC and STA (R172): all but Zero Page,Y. -/
def accumulatorForm : MemMode → Bool
  | .zp _ | .zpX _ | .abs _ | .absX _ | .absY _ | .indX _ | .indY _ => true
  | .zpY _ => false

/-- The memory modes of ASL, LSR, ROL, ROR, INC, DEC and LDY (R172). -/
def indexedXForm : MemMode → Bool
  | .zp _ | .zpX _ | .abs _ | .absX _ => true
  | .zpY _ | .absY _ | .indX _ | .indY _ => false

/-- The memory modes of LDX (R172). -/
def indexedYForm : MemMode → Bool
  | .zp _ | .zpY _ | .abs _ | .absY _ => true
  | .zpX _ | .absX _ | .indX _ | .indY _ => false

/-- The modes of STX (R172). -/
def storeXForm : MemMode → Bool
  | .zp _ | .zpY _ | .abs _ => true
  | .zpX _ | .absX _ | .absY _ | .indX _ | .indY _ => false

/-- The modes of STY (R172). -/
def storeYForm : MemMode → Bool
  | .zp _ | .zpX _ | .abs _ => true
  | .zpY _ | .absX _ | .absY _ | .indX _ | .indY _ => false

/-- The modes of CPX, CPY and BIT (R172). -/
def plainForm : MemMode → Bool
  | .zp _ | .abs _ => true
  | .zpX _ | .zpY _ | .absX _ | .absY _ | .indX _ | .indY _ => false

end MemMode

/-- An immediate operand is always a form; a memory operand is one when `f` says so. -/
def Src.form (f : MemMode → Bool) : Src → Bool
  | .imm _ => true
  | .mem m => f m

/-- The accumulator is always a form; a memory operand is one when `f` says so. -/
def Target.form (f : MemMode → Bool) : Target → Bool
  | .acc => true
  | .mem m => f m

/-- The 105 Unknown opcode bytes, row by row as 30_encoding.md R176 lists them. -/
def unknownOpcodes : List Byte :=
  [0x02#8, 0x03#8, 0x04#8, 0x07#8, 0x0B#8, 0x0C#8, 0x0F#8]
  ++ [0x12#8, 0x13#8, 0x14#8, 0x17#8, 0x1A#8, 0x1B#8, 0x1C#8, 0x1F#8]
  ++ [0x22#8, 0x23#8, 0x27#8, 0x2B#8, 0x2F#8]
  ++ [0x32#8, 0x33#8, 0x34#8, 0x37#8, 0x3A#8, 0x3B#8, 0x3C#8, 0x3F#8]
  ++ [0x42#8, 0x43#8, 0x44#8, 0x47#8, 0x4B#8, 0x4F#8]
  ++ [0x52#8, 0x53#8, 0x54#8, 0x57#8, 0x5A#8, 0x5B#8, 0x5C#8, 0x5F#8]
  ++ [0x62#8, 0x63#8, 0x64#8, 0x67#8, 0x6B#8, 0x6F#8]
  ++ [0x72#8, 0x73#8, 0x74#8, 0x77#8, 0x7A#8, 0x7B#8, 0x7C#8, 0x7F#8]
  ++ [0x80#8, 0x82#8, 0x83#8, 0x87#8, 0x89#8, 0x8B#8, 0x8F#8]
  ++ [0x92#8, 0x93#8, 0x97#8, 0x9B#8, 0x9C#8, 0x9E#8, 0x9F#8]
  ++ [0xA3#8, 0xA7#8, 0xAB#8, 0xAF#8]
  ++ [0xB2#8, 0xB3#8, 0xB7#8, 0xBB#8, 0xBF#8]
  ++ [0xC2#8, 0xC3#8, 0xC7#8, 0xCB#8, 0xCF#8]
  ++ [0xD2#8, 0xD3#8, 0xD4#8, 0xD7#8, 0xDA#8, 0xDB#8, 0xDC#8, 0xDF#8]
  ++ [0xE2#8, 0xE3#8, 0xE7#8, 0xEB#8, 0xEF#8]
  ++ [0xF2#8, 0xF3#8, 0xF4#8, 0xF7#8, 0xFA#8, 0xFB#8, 0xFC#8, 0xFF#8]

/-- The instruction is one that some row of the opcode table stands for (30_encoding.md R172, R176). -/
def Instr.wellFormed : Instr → Bool
  | .lda src | .adc src | .sbc src | .cmp src | .and src | .ora src | .eor src => src.form MemMode.accumulatorForm
  | .ldx src => src.form MemMode.indexedYForm
  | .ldy src => src.form MemMode.indexedXForm
  | .cpx src | .cpy src => src.form MemMode.plainForm
  | .sta m => m.accumulatorForm
  | .stx m => m.storeXForm
  | .sty m => m.storeYForm
  | .bit m => m.plainForm
  | .asl t | .lsr t | .rol t | .ror t => t.form MemMode.indexedXForm
  | .inc m | .dec m => m.indexedXForm
  | .unknown op => unknownOpcodes.contains op
  | .tax | .tay | .txa | .tya | .tsx | .txs | .php | .pha | .pla | .plp => true
  | .inx | .iny | .dex | .dey => true
  | .bpl _ | .bmi _ | .bvc _ | .bvs _ | .bcc _ | .bcs _ | .bne _ | .beq _ => true
  | .jmp _ | .jsr _ | .rts | .rti | .brk => true
  | .clc | .sec | .cli | .sei | .cld | .sed | .clv | .nop => true

/-- What R390 asks of the parameters: the image reaches exactly the top of the space and is long enough for its last 6
bytes to hold the vectors, and RAM up to ROM_BASE holds the zero page and the stack page (70_reset_and_hazards.md R390,
20_memory.md R121). What it asks of the built Machine is `Machine.State.bootWellFormed`. That
`ROM_BASE ≥ 0x0200` is a condition, and not only a remark on what RAM then holds, is the model's reading of R390 (log 2). No step and no host operation asks for it. -/
def Config.bootWellFormed (c : Config) : Bool :=
  decide (c.romBase.toNat + c.romImage.size = 0x10000) && decide (6 ≤ c.romImage.size) &&
    decide (0x0200 ≤ c.romBase.toNat)

end Sys2Proof
end

