-- ==== Sys2Proof/Decode.lean ====
section
/-! DEFINITION. The 6502_decoder block: the opcode table (30_encoding.md R140-R147, R170, R176), the decoder over bytes,
and the encoder, written from each instruction rule's own list of encodings. -/

namespace Sys2Proof

/-- One row of the table: what the bytes after the opcode complete to (R143, R145). `one`: the opcode is the whole
instruction; `two`: one operand byte `d`; `three`: a little-endian address `d16`. -/
inductive Row where
  | one (i : Instr)
  | two (f : Byte → Instr)
  | three (f : Addr → Instr)

/-- The number of operand bytes after the opcode, `Length(mode) - 1` (R142, R143). -/
def Row.operands : Row → Nat
  | .one _ => 0
  | .two _ => 1
  | .three _ => 2

/-- The eight rows of an instruction with every accumulator mode, in opcode order as R170 lists them. -/
def accumulatorRows (k : Src → Instr) (indX zp imm abs indY zpX absY absX : Byte) : List (Byte × Row) :=
  [(indX, .two fun d => k (.mem (.indX d))), (zp, .two fun d => k (.mem (.zp d))),
    (imm, .two fun d => k (.imm d)), (abs, .three fun d => k (.mem (.abs d))),
    (indY, .two fun d => k (.mem (.indY d))), (zpX, .two fun d => k (.mem (.zpX d))),
    (absY, .three fun d => k (.mem (.absY d))), (absX, .three fun d => k (.mem (.absX d)))]

/-- The five rows of a shift or rotate, in opcode order as R170 lists them. -/
def shiftRows (k : Target → Instr) (zp acc abs zpX absX : Byte) : List (Byte × Row) :=
  [(zp, .two fun d => k (.mem (.zp d))), (acc, .one (k .acc)), (abs, .three fun d => k (.mem (.abs d))),
    (zpX, .two fun d => k (.mem (.zpX d))), (absX, .three fun d => k (.mem (.absX d)))]

/-- The four rows of INC or DEC, in opcode order as R170 lists them. -/
def incrementRows (k : MemMode → Instr) (zp abs zpX absX : Byte) : List (Byte × Row) :=
  [(zp, .two fun d => k (.zp d)), (abs, .three fun d => k (.abs d)),
    (zpX, .two fun d => k (.zpX d)), (absX, .three fun d => k (.absX d))]

/-- The three rows of CPX or CPY, in opcode order as R170 lists them. -/
def compareRows (k : Src → Instr) (imm zp abs : Byte) : List (Byte × Row) :=
  [(imm, .two fun d => k (.imm d)), (zp, .two fun d => k (.mem (.zp d))), (abs, .three fun d => k (.mem (.abs d)))]

/-- R170, the instructions of 40_load_store.md. -/
def loadStoreRows : List (Byte × Row) :=
  accumulatorRows .lda 0xA1#8 0xA5#8 0xA9#8 0xAD#8 0xB1#8 0xB5#8 0xB9#8 0xBD#8
  ++ [(0xA2#8, .two fun d => .ldx (.imm d)), (0xA6#8, .two fun d => .ldx (.mem (.zp d))),
    (0xAE#8, .three fun d => .ldx (.mem (.abs d))), (0xB6#8, .two fun d => .ldx (.mem (.zpY d))),
    (0xBE#8, .three fun d => .ldx (.mem (.absY d)))]
  ++ [(0xA0#8, .two fun d => .ldy (.imm d)), (0xA4#8, .two fun d => .ldy (.mem (.zp d))),
    (0xAC#8, .three fun d => .ldy (.mem (.abs d))), (0xB4#8, .two fun d => .ldy (.mem (.zpX d))),
    (0xBC#8, .three fun d => .ldy (.mem (.absX d)))]
  ++ [(0x81#8, .two fun d => .sta (.indX d)), (0x85#8, .two fun d => .sta (.zp d)),
    (0x8D#8, .three fun d => .sta (.abs d)), (0x91#8, .two fun d => .sta (.indY d)),
    (0x95#8, .two fun d => .sta (.zpX d)), (0x99#8, .three fun d => .sta (.absY d)),
    (0x9D#8, .three fun d => .sta (.absX d))]
  ++ [(0x86#8, .two fun d => .stx (.zp d)), (0x8E#8, .three fun d => .stx (.abs d)),
    (0x96#8, .two fun d => .stx (.zpY d))]
  ++ [(0x84#8, .two fun d => .sty (.zp d)), (0x8C#8, .three fun d => .sty (.abs d)),
    (0x94#8, .two fun d => .sty (.zpX d))]

/-- R170, the instructions of 41_transfer_stack.md. -/
def transferStackRows : List (Byte × Row) :=
  [(0xAA#8, .one .tax), (0xA8#8, .one .tay), (0x8A#8, .one .txa), (0x98#8, .one .tya), (0xBA#8, .one .tsx),
    (0x9A#8, .one .txs), (0x48#8, .one .pha), (0x08#8, .one .php), (0x68#8, .one .pla), (0x28#8, .one .plp)]

/-- R170, the instructions of 42_alu_arith.md. -/
def arithRows : List (Byte × Row) :=
  accumulatorRows .adc 0x61#8 0x65#8 0x69#8 0x6D#8 0x71#8 0x75#8 0x79#8 0x7D#8
  ++ accumulatorRows .sbc 0xE1#8 0xE5#8 0xE9#8 0xED#8 0xF1#8 0xF5#8 0xF9#8 0xFD#8
  ++ accumulatorRows .cmp 0xC1#8 0xC5#8 0xC9#8 0xCD#8 0xD1#8 0xD5#8 0xD9#8 0xDD#8
  ++ compareRows .cpx 0xE0#8 0xE4#8 0xEC#8
  ++ compareRows .cpy 0xC0#8 0xC4#8 0xCC#8

/-- R170, the instructions of 43_alu_logic_shift.md. -/
def logicRows : List (Byte × Row) :=
  accumulatorRows .and 0x21#8 0x25#8 0x29#8 0x2D#8 0x31#8 0x35#8 0x39#8 0x3D#8
  ++ accumulatorRows .ora 0x01#8 0x05#8 0x09#8 0x0D#8 0x11#8 0x15#8 0x19#8 0x1D#8
  ++ accumulatorRows .eor 0x41#8 0x45#8 0x49#8 0x4D#8 0x51#8 0x55#8 0x59#8 0x5D#8
  ++ [(0x24#8, .two fun d => .bit (.zp d)), (0x2C#8, .three fun d => .bit (.abs d))]
  ++ shiftRows .asl 0x06#8 0x0A#8 0x0E#8 0x16#8 0x1E#8
  ++ shiftRows .lsr 0x46#8 0x4A#8 0x4E#8 0x56#8 0x5E#8
  ++ shiftRows .rol 0x26#8 0x2A#8 0x2E#8 0x36#8 0x3E#8
  ++ shiftRows .ror 0x66#8 0x6A#8 0x6E#8 0x76#8 0x7E#8
  ++ incrementRows .inc 0xE6#8 0xEE#8 0xF6#8 0xFE#8
  ++ incrementRows .dec 0xC6#8 0xCE#8 0xD6#8 0xDE#8
  ++ [(0xE8#8, .one .inx), (0xC8#8, .one .iny), (0xCA#8, .one .dex), (0x88#8, .one .dey)]

/-- R170, the instructions of 44_control.md. -/
def controlRows : List (Byte × Row) :=
  [(0x10#8, .two .bpl), (0x30#8, .two .bmi), (0x50#8, .two .bvc), (0x70#8, .two .bvs),
    (0x90#8, .two .bcc), (0xB0#8, .two .bcs), (0xD0#8, .two .bne), (0xF0#8, .two .beq)]
  ++ [(0x4C#8, .three fun d => .jmp (.abs d)), (0x6C#8, .three fun d => .jmp (.ind d)), (0x20#8, .three .jsr),
    (0x60#8, .one .rts), (0x40#8, .one .rti), (0x00#8, .one .brk)]

/-- R170, the instructions of 45_flags_misc.md. -/
def flagRows : List (Byte × Row) :=
  [(0x18#8, .one .clc), (0x38#8, .one .sec), (0x58#8, .one .cli), (0x78#8, .one .sei),
    (0xD8#8, .one .cld), (0xF8#8, .one .sed), (0xB8#8, .one .clv), (0xEA#8, .one .nop)]

/-- The 151 rows of R170. -/
def opcodeTable : List (Byte × Row) :=
  loadStoreRows ++ transferStackRows ++ arithRows ++ logicRows ++ controlRows ++ flagRows

/-- The row of `op` in a table. -/
def findRow : List (Byte × Row) → Byte → Option Row
  | [], _ => none
  | (k, r) :: rows, op => if k = op then some r else findRow rows op

/-- The decode transaction of R147: every byte not in the table is Unknown and 1 byte long (R170, R176). -/
def lookup (op : Byte) : Row := (findRow opcodeTable op).getD (.one (.unknown op))

/-- Why a list of bytes is no whole instruction. Safe: the machine never meets these, since it fetches as many bytes as
the opcode asks for (R142). -/
inductive DecodeError where
  /-- There is no opcode byte. -/
  | noOpcode
  /-- The opcode's operand bytes are not all there. -/
  | missingOperand (op : Byte)
  deriving DecidableEq, Repr

/-- Reads one instruction from the front of a list of bytes, in fetch order, and returns the bytes after it. -/
def decode : List Byte → Except DecodeError (Instr × List Byte)
  | [] => .error .noOpcode
  | op :: rest =>
    match lookup op, rest with
    | .one i, _ => .ok (i, rest)
    | .two f, d :: rest => .ok (f d, rest)
    | .three f, lo :: hi :: rest => .ok (f (Machine.pair hi lo), rest)
    | _, _ => .error (.missingOperand op)

/-! ## The encoder -/

/-- The opcode of a memory mode, from an instruction rule's own list of encodings; `none` where R172 gives no form. -/
def MemMode.opcode (zp zpX zpY abs absX absY indX indY : Option Byte) : MemMode → Option Byte
  | .zp _ => zp
  | .zpX _ => zpX
  | .zpY _ => zpY
  | .abs _ => abs
  | .absX _ => absX
  | .absY _ => absY
  | .indX _ => indX
  | .indY _ => indY

/-- Encodings in the order of R190: Immediate, Zero Page, Zero Page,X, Absolute, Absolute,X, Absolute,Y, (X), (Y). -/
def accumulatorOpcode (imm zp zpX abs absX absY indX indY : Byte) : Src → Option Byte
  | .imm _ => some imm
  | .mem m => m.opcode (some zp) (some zpX) none (some abs) (some absX) (some absY) (some indX) (some indY)

/-- Encodings in the order of R266: Accumulator, Zero Page, Zero Page,X, Absolute, Absolute,X. -/
def shiftOpcode (acc zp zpX abs absX : Byte) : Target → Option Byte
  | .acc => some acc
  | .mem m => m.opcode (some zp) (some zpX) none (some abs) (some absX) none none none

/-- Encodings in the order of R270: Zero Page, Zero Page,X, Absolute, Absolute,X. -/
def incrementOpcode (zp zpX abs absX : Byte) (m : MemMode) : Option Byte :=
  m.opcode (some zp) (some zpX) none (some abs) (some absX) none none none

/-- Encodings in the order of R243: Immediate, Zero Page, Absolute. -/
def compareOpcode (imm zp abs : Byte) : Src → Option Byte
  | .imm _ => some imm
  | .mem m => m.opcode (some zp) none none (some abs) none none none none

/-- The opcode byte of an instruction, from the "Encodings" line of its own rule; `none` for a form that does not exist. -/
def Instr.opcode : Instr → Option Byte
  | .lda src => accumulatorOpcode 0xA9#8 0xA5#8 0xB5#8 0xAD#8 0xBD#8 0xB9#8 0xA1#8 0xB1#8 src
  | .ldx (.imm _) => some 0xA2#8
  | .ldx (.mem m) => m.opcode (some 0xA6#8) none (some 0xB6#8) (some 0xAE#8) none (some 0xBE#8) none none
  | .ldy (.imm _) => some 0xA0#8
  | .ldy (.mem m) => m.opcode (some 0xA4#8) (some 0xB4#8) none (some 0xAC#8) (some 0xBC#8) none none none
  | .sta m =>
    m.opcode (some 0x85#8) (some 0x95#8) none (some 0x8D#8) (some 0x9D#8) (some 0x99#8) (some 0x81#8) (some 0x91#8)
  | .stx m => m.opcode (some 0x86#8) none (some 0x96#8) (some 0x8E#8) none none none none
  | .sty m => m.opcode (some 0x84#8) (some 0x94#8) none (some 0x8C#8) none none none none
  | .tax => some 0xAA#8
  | .tay => some 0xA8#8
  | .txa => some 0x8A#8
  | .tya => some 0x98#8
  | .tsx => some 0xBA#8
  | .txs => some 0x9A#8
  | .php => some 0x08#8
  | .pha => some 0x48#8
  | .pla => some 0x68#8
  | .plp => some 0x28#8
  | .adc src => accumulatorOpcode 0x69#8 0x65#8 0x75#8 0x6D#8 0x7D#8 0x79#8 0x61#8 0x71#8 src
  | .sbc src => accumulatorOpcode 0xE9#8 0xE5#8 0xF5#8 0xED#8 0xFD#8 0xF9#8 0xE1#8 0xF1#8 src
  | .cmp src => accumulatorOpcode 0xC9#8 0xC5#8 0xD5#8 0xCD#8 0xDD#8 0xD9#8 0xC1#8 0xD1#8 src
  | .cpx src => compareOpcode 0xE0#8 0xE4#8 0xEC#8 src
  | .cpy src => compareOpcode 0xC0#8 0xC4#8 0xCC#8 src
  | .and src => accumulatorOpcode 0x29#8 0x25#8 0x35#8 0x2D#8 0x3D#8 0x39#8 0x21#8 0x31#8 src
  | .ora src => accumulatorOpcode 0x09#8 0x05#8 0x15#8 0x0D#8 0x1D#8 0x19#8 0x01#8 0x11#8 src
  | .eor src => accumulatorOpcode 0x49#8 0x45#8 0x55#8 0x4D#8 0x5D#8 0x59#8 0x41#8 0x51#8 src
  | .bit m => m.opcode (some 0x24#8) none none (some 0x2C#8) none none none none
  | .asl t => shiftOpcode 0x0A#8 0x06#8 0x16#8 0x0E#8 0x1E#8 t
  | .lsr t => shiftOpcode 0x4A#8 0x46#8 0x56#8 0x4E#8 0x5E#8 t
  | .rol t => shiftOpcode 0x2A#8 0x26#8 0x36#8 0x2E#8 0x3E#8 t
  | .ror t => shiftOpcode 0x6A#8 0x66#8 0x76#8 0x6E#8 0x7E#8 t
  | .inc m => incrementOpcode 0xE6#8 0xF6#8 0xEE#8 0xFE#8 m
  | .dec m => incrementOpcode 0xC6#8 0xD6#8 0xCE#8 0xDE#8 m
  | .inx => some 0xE8#8
  | .iny => some 0xC8#8
  | .dex => some 0xCA#8
  | .dey => some 0x88#8
  | .bpl _ => some 0x10#8
  | .bmi _ => some 0x30#8
  | .bvc _ => some 0x50#8
  | .bvs _ => some 0x70#8
  | .bcc _ => some 0x90#8
  | .bcs _ => some 0xB0#8
  | .bne _ => some 0xD0#8
  | .beq _ => some 0xF0#8
  | .jmp (.abs _) => some 0x4C#8
  | .jmp (.ind _) => some 0x6C#8
  | .jsr _ => some 0x20#8
  | .rts => some 0x60#8
  | .rti => some 0x40#8
  | .brk => some 0x00#8
  | .clc => some 0x18#8
  | .sec => some 0x38#8
  | .cli => some 0x58#8
  | .sei => some 0x78#8
  | .cld => some 0xD8#8
  | .sed => some 0xF8#8
  | .clv => some 0xB8#8
  | .nop => some 0xEA#8
  | .unknown op => if unknownOpcodes.contains op then some op else none

/-- A 16-bit operand as its bytes in fetch order, low byte first (R143, R145). -/
def addrBytes (d : Addr) : List Byte := [Machine.lowByte d, Machine.highByte d]

/-- The operand bytes of a memory mode, in fetch order (R143). -/
def MemMode.bytes : MemMode → List Byte
  | .zp d | .zpX d | .zpY d | .indX d | .indY d => [d]
  | .abs d | .absX d | .absY d => addrBytes d

/-- The operand bytes of a read operand (R143). -/
def Src.bytes : Src → List Byte
  | .imm d => [d]
  | .mem m => m.bytes

/-- The operand bytes of a shift or rotate (R143). -/
def Target.bytes : Target → List Byte
  | .acc => []
  | .mem m => m.bytes

/-- The operand bytes of an instruction, in fetch order (R143). -/
def Instr.operandBytes : Instr → List Byte
  | .lda src | .ldx src | .ldy src | .adc src | .sbc src | .cmp src | .cpx src | .cpy src => src.bytes
  | .and src | .ora src | .eor src => src.bytes
  | .sta m | .stx m | .sty m | .bit m | .inc m | .dec m => m.bytes
  | .asl t | .lsr t | .rol t | .ror t => t.bytes
  | .bpl d | .bmi d | .bvc d | .bvs d | .bcc d | .bcs d | .bne d | .beq d => [d]
  | .jmp (.abs d) | .jmp (.ind d) | .jsr d => addrBytes d
  | .tax | .tay | .txa | .tya | .tsx | .txs | .php | .pha | .pla | .plp | .inx | .iny | .dex | .dey => []
  | .rts | .rti | .brk | .clc | .sec | .cli | .sei | .cld | .sed | .clv | .nop | .unknown _ => []

/-- The length of an instruction in bytes (R143). -/
def Instr.length (i : Instr) : Nat := 1 + i.operandBytes.length

/-- The bytes of an instruction, in fetch order; `none` when it is no instruction of the table. -/
def encode (i : Instr) : Option (List Byte) := i.opcode.map (· :: i.operandBytes)

/-- Byte `k` of a table word: bits 8k+7 to 8k, the bits from `nbits` up being 0. -/
def tableByte (nbits w k : Nat) : Byte := BitVec.ofNat 8 ((w % 2 ^ nbits) / 2 ^ (8 * k))

/-- The bytes of a table word in fetch order, up to the longest instruction's three. -/
def tableBytes (nbits w : Nat) : List Byte := [tableByte nbits w 0, tableByte nbits w 1, tableByte nbits w 2]

/-- The instruction the decoder reads from a table word: bit 0 is bit 0 of the opcode byte, and each later byte's bits
count on from the one before. -/
def decodeTableWord (nbits w : Nat) : Option Instr :=
  match decode (tableBytes nbits w) with
  | .ok r => some r.1
  | .error _ => none

end Sys2Proof
end

