-- ==== Sys2Proof/Machine/Fetch.lean ====
section
/-! DEFINITION. The sequencer around the execute part: fetch and decode (30_encoding.md R141, R142), the reset-vector step
(70_reset_and_hazards.md R383), and where a byte is placed so that the next fetch reads it. -/

namespace Sys2Proof.Machine

/-- `Fetch()`: the byte at PC, then PC + 1 (R141). -/
def fetch (s : State) : Byte × State :=
  let b := memRead s.pc s
  (b.1, b.2.setPC (b.2.pc + 1#16))

/-- Fills the decoded-instruction latch, `pc0` being PC before the fetch (R142, 10_state.md R56; log 7). -/
def latchInstr (pc0 : Addr) (i : Instr) (raw : List Byte) (op : Byte) (s : State) : State :=
  s.setLatch { pc0 := pc0, opcode := op, instr := i, rawBytes := raw, resolved := resolved i s }

/-- `DecodeAndFetch()`: the opcode, then the operand bytes its row asks for, in address order (R142, R143). -/
def fetchInstr (s : State) : Instr × State :=
  let op := fetch s
  match lookup op.1 with
  | .one i => (i, latchInstr s.pc i [op.1] op.1 op.2)
  | .two f =>
    let d := fetch op.2
    (f d.1, latchInstr s.pc (f d.1) [op.1, d.1] op.1 d.2)
  | .three f =>
    let lo := fetch op.2
    let hi := fetch lo.2
    (f (pair hi.1 lo.1), latchInstr s.pc (f (pair hi.1 lo.1)) [op.1, lo.1, hi.1] op.1 hi.2)

/-- The step in the Uninitialized state: loads PC from the reset vector, and runs no instruction (R383). -/
def resetVectorStep (s : State) : State :=
  let v := read16 Config.resetVector s
  (v.2.setPC v.1).setEngine .running

/-- A one-byte region that shows `v` at `addr`. -/
def byteRegion (addr : Addr) (v : Byte) : Region :=
  { id := { chars := ['f', 'e', 't', 'c', 'h'], wf := rfl }
    base := addr
    size := 1
    storage := .owned (Cells.put [] 0 v)
    writable := true }

/-- Makes `addr` read as `v` and no other address change: in place where `addr` shows a byte of a region's own buffer,
else through a new one-byte region (log 3). -/
def placeByte (addr : Addr) (v : Byte) (s : State) : State :=
  match s.mem.siteOf addr with
  | some (.owned k o) => s.setMem (s.mem.putAt (.owned k o) v)
  | some (.buffer _ _) | some (.file _ _) | none => s.setMem (s.mem.addRegion (byteRegion addr v))

/-- Places bytes at `addr` and the addresses after it, wrapping at 16 bits. -/
def placeBytes : Addr → List Byte → State → State
  | _, [], s => s
  | addr, v :: vs, s => placeBytes (addr + 1#16) vs (placeByte addr v s)

end Sys2Proof.Machine
end

