-- ==== Sys2Proof/Machine/Step.lean ====
section
/-! DEFINITION. `step()` (70_reset_and_hazards.md R383, R385), and the state whose next step runs a given table word. -/

namespace Sys2Proof.Machine

/-- `step()`: the reset-vector load when Uninitialized (R383), else exactly one instruction (R385). -/
def step (s : State) : Host.Outcome State Fault Refusal :=
  match s.engine with
  | .uninitialized => .next (resetVectorStep s)
  | .running =>
    let f := fetchInstr s
    exec f.1 f.2

/-- `s` with the instruction of a table word stored at PC, and the engine Running, so that the next step runs it (log 3). -/
def State.withFetchWord (s : State) (nbits w : Nat) : State :=
  (placeBytes s.pc (tableBytes nbits w) s).setEngine .running

end Sys2Proof.Machine
end

