-- ==== Sys2Proof/Machine/Register.lean ====
section
/-! DEFINITION. The register_file block: the Register mechanism (10_state.md R30-R35), the RegisterFile (R36-R39), and the
six CPU registers as one RegisterFile (R40, R41). -/

namespace Sys2Proof.Machine

/-! ## The Register mechanism -/

/-- A Register (R30), less its display attributes. -/
structure Register where
  width : Nat
  value : Nat
  resetValue : Nat
  maskOn : Nat
  maskOff : Nat
  deriving DecidableEq, Repr

/-- `v & ~m`. -/
def clearBits (v m : Nat) : Nat := v ^^^ (v &&& m)

/-- `widthMask = 2^width - 1` (R30). -/
def Register.widthMask (r : Register) : Nat := 2 ^ r.width - 1

/-- `((u_width(v) & widthMask) | maskOn) & ~maskOff`, a negative input being its two's-complement pattern (R31). -/
def Register.masked (r : Register) (v : Int) : Nat :=
  clearBits (((v % (2 ^ r.width : Nat)).toNat &&& r.widthMask) ||| r.maskOn) r.maskOff

/-- `set(v)` (R31). -/
def Register.set (r : Register) (v : Int) : Register := { r with value := r.masked v }

/-- `get()` (R32). -/
def Register.get (r : Register) : Nat := r.value

/-- `reset()` is `set(resetValue)` (R33). -/
def Register.reset (r : Register) : Register := r.set r.resetValue

/-- `preIncrement()`: the register and the new value (R34). -/
def Register.preIncrement (r : Register) : Register × Nat := (r.set (r.value + 1), (r.set (r.value + 1)).value)

/-- `postIncrement()`: the register and the old value (R34). -/
def Register.postIncrement (r : Register) : Register × Nat := (r.set (r.value + 1), r.value)

/-- `preDecrement()`: the register and the new value (R34). -/
def Register.preDecrement (r : Register) : Register × Nat := (r.set (r.value - 1), (r.set (r.value - 1)).value)

/-- `postDecrement()`: the register and the old value (R34). -/
def Register.postDecrement (r : Register) : Register × Nat := (r.set (r.value - 1), r.value)

/-- The Register invariant (R30). -/
def Register.ok (r : Register) : Bool :=
  decide (r.value = clearBits ((r.value &&& r.widthMask) ||| r.maskOn) r.maskOff)

/-! ## The RegisterFile -/

/-- Names to Registers, in insertion order (R36); read from front to back it is `forEach()` (R39). -/
abbrev RegisterFile := List (Text × Register)

/-- `get(name)`; `none` is `NotFound` (R38). -/
def RegisterFile.find : RegisterFile → Text → Option Register
  | [], _ => none
  | (n, r) :: rf, name => if n = name then some r else RegisterFile.find rf name

/-- The status of an `add` (R37). -/
inductive AddStatus where
  | added
  | duplicateName
  deriving DecidableEq, Repr

/-- `add(name, register)`: fails on a name that is present, and leaves the file unchanged (R37). -/
def RegisterFile.add (rf : RegisterFile) (name : Text) (r : Register) : AddStatus × RegisterFile :=
  if (RegisterFile.find rf name).isSome then (.duplicateName, rf) else (.added, rf ++ [(name, r)])

/-- `resetAll()` (R39). -/
def RegisterFile.resetAll (rf : RegisterFile) : RegisterFile := rf.map fun nr => (nr.1, nr.2.reset)

/-! ## The CPU register set -/

/-- The fixed handles of the six CPU registers (R41). -/
inductive CpuReg where
  | pc | sp | a | x | y | flags
  deriving DecidableEq, Repr

/-- The six registers in the order of R40. -/
def cpuRegs : List CpuReg := [.pc, .sp, .a, .x, .y, .flags]

/-- The names of R40. -/
def CpuReg.name : CpuReg → Text
  | .pc => ['P', 'C']
  | .sp => ['S', 'P']
  | .a => ['A']
  | .x => ['X']
  | .y => ['Y']
  | .flags => ['F', 'L', 'A', 'G', 'S']

/-- A CPU register as a Register: its width and masks (R40), its reset value from the configuration (00_scope.md R6). -/
def CpuReg.view (r : CpuReg) (s : State) : Register :=
  match r with
  | .pc => { width := 16, value := s.pc.toNat, resetValue := s.config.resetValues.pc.toNat, maskOn := 0, maskOff := 0 }
  | .sp => { width := 8, value := s.sp.toNat, resetValue := s.config.resetValues.sp.toNat, maskOn := 0, maskOff := 0 }
  | .a => { width := 8, value := s.a.toNat, resetValue := s.config.resetValues.a.toNat, maskOn := 0, maskOff := 0 }
  | .x => { width := 8, value := s.x.toNat, resetValue := s.config.resetValues.x.toNat, maskOn := 0, maskOff := 0 }
  | .y => { width := 8, value := s.y.toNat, resetValue := s.config.resetValues.y.toNat, maskOn := 0, maskOff := 0 }
  | .flags =>
    { width := 8, value := s.p.toNat, resetValue := s.config.resetValues.p.toNat, maskOn := 0, maskOff := 0x20 }

/-- Stores a Register's value in its CPU register. -/
def CpuReg.store (r : CpuReg) (v : Nat) (s : State) : State :=
  match r with
  | .pc => s.setPC (BitVec.ofNat 16 v)
  | .sp => s.setSP (BitVec.ofNat 8 v)
  | .a => s.setA (BitVec.ofNat 8 v)
  | .x => s.setX (BitVec.ofNat 8 v)
  | .y => s.setY (BitVec.ofNat 8 v)
  | .flags => s.setP (BitVec.ofNat 8 v)

/-- `R.set(v)` on a CPU register (R31, 60_exceptions.md R371). -/
def CpuReg.set (r : CpuReg) (v : Int) (s : State) : State := r.store (r.view s |>.set v).value s

/-- The CPU register set as one RegisterFile (R40). -/
def State.registerFile (s : State) : RegisterFile := cpuRegs.map fun r => (r.name, r.view s)

/-- The handle of a name. -/
def findCpuReg : List CpuReg → Text → Option CpuReg
  | [], _ => none
  | r :: rs, name => if r.name = name then some r else findCpuReg rs name

/-- `reset()` of the engine: every register is set to its reset value, and the engine is Uninitialized
(70_reset_and_hazards.md R380). Memory, the log and the latch are left (R381; log 7). -/
def resetCore (s : State) : State :=
  let rv := s.config.resetValues
  State.setEngine
    ((((((s.setPC rv.pc).setSP rv.sp).setA rv.a).setX rv.x).setY rv.y).setP rv.p) .uninitialized

end Sys2Proof.Machine
end

