-- ==== Sys2Proof/Machine/HostOps.lean ====
section
/-! DEFINITION. The host interface (60_exceptions.md R370-R373): each operation is one atomic transition between two steps.
The region operations (20_memory.md R84-R89), the Machine layout (R120) and overlays (R122, R123). -/

namespace Sys2Proof.Machine

/-- What a host operation returns to its caller. The spec gives a return to the reads, to `pointer`, to `get` and to a
failed `mapFile`; of `write`, `set`, `unmap` and the other maps it says only what they change and log, and which of `done`
and `failed` they answer is the model's choice (log 20). -/
inductive HostReply where
  /-- nothing to return -/
  | done
  /-- a failure status, beside the event that the log gains -/
  | failed
  /-- a byte read -/
  | byte (v : Byte)
  /-- a register's value, or the number of a new buffer -/
  | value (v : Nat)
  /-- a pointer handle to `regions[k].storage[o..]` (20_memory.md R94) -/
  | handle (k o : Nat)
  /-- the sequence of `forEach()` (10_state.md R39) -/
  | registers (rs : List (Text × Nat))
  /-- the event log (10_state.md R60) -/
  | events (es : List Event)
  /-- the decoded-instruction latch (10_state.md R56) -/
  | latch (l : Option DecodedInstr)
  deriving DecidableEq, Repr

/-- The host's operations (60_exceptions.md R370, R372). `opened` and `allocated` are what the environment answers to an
open or create (R346) and to an allocation (R347) (log 5, log 16). -/
inductive HostOp where
  | reset
  | getRegister (name : Text)
  | setRegister (name : Text) (v : Int)
  | forEach
  | read (addr : Addr)
  | write (addr : Addr) (v : Byte)
  | pointer (addr : Addr)
  | readThrough (addr : Addr) (i : Nat)
  | writeThrough (addr : Addr) (i : Nat) (v : Byte)
  | mapZeroed (id : RegionId) (base : Addr) (size : Nat) (writable allocated : Bool)
  | mapBuffer (id : RegionId) (base : Addr) (size : Nat) (buffer : Nat) (writable : Bool)
  | mapFile (id : RegionId) (base : Addr) (size : Nat) (path : Text) (writable opened allocated : Bool)
  | unmap (id : RegionId)
  | loadOverlay (path : Text) (addr : Addr) (size : Nat) (opened : Bool)
  | unloadOverlay
  | readLog
  | readLatch
  | newBuffer (bytes : List Byte)
  | writeBuffer (buffer i : Nat) (v : Byte)
  | writeFile (path : Text) (bytes : List Byte)
  deriving DecidableEq, Repr

/-! ## Region operations -/

/-- `mapZeroed` (20_memory.md R84). "A map operation with `size = 0` creates no region" (R82). -/
def mapZeroed (id : RegionId) (base : Addr) (size : Nat) (writable : Bool) (s : State) : State :=
  if size = 0 then s
  else s.setMem (s.mem.addRegion { id := id, base := base, size := size, storage := .owned [], writable := writable })

/-- `mapBuffer`: the region's bytes are the buffer's bytes, not copied (20_memory.md R85). -/
def mapBuffer (id : RegionId) (base : Addr) (size buffer : Nat) (writable : Bool) (s : State) : State :=
  s.setMem
    (s.mem.addRegion { id := id, base := base, size := size, storage := .borrowed buffer, writable := writable })

/-- A `mapFile` that fails: the log gains `FileOpenFailure(path)` and nothing is mapped (20_memory.md R88). -/
def fileOpenFailure (path : Text) (s : State) : HostReply × State := (.failed, s.raise (.fileOpenFailure path))

/-- An image of at least `size` bytes; added bytes are 0x00 (20_memory.md R86). -/
def extendImage (im : Image) (size : Nat) : Image := { im with size := max im.size size }

/-- The memory with the file at `path` created or extended to `size` bytes, and the file's index (20_memory.md R86). -/
def Memory.openWritable (m : Memory) (path : Text) (size : Nat) : Memory × Nat :=
  match m.fileIndex path with
  | some f =>
    ({ m with files := m.files.modify f fun hf => { hf with content := extendImage hf.content size } }, f)
  | none => ({ m with files := m.files ++ [{ path := path, content := { size := size, cells := [] } }] }, m.files.length)

/-- `mapFile` with `writable = true` (20_memory.md R86). -/
def mapFileWritable (id : RegionId) (base : Addr) (size : Nat) (path : Text) (opened : Bool) (s : State) :
    HostReply × State :=
  if opened then
    let o := s.mem.openWritable path size
    let region : Region := { id := id, base := base, size := size, storage := .mappedFile o.2, writable := true }
    (.done, s.setMem (o.1.addRegion region))
  else fileOpenFailure path s

/-- The file that a read-only `mapFile` copies: one that can be opened and is not empty (20_memory.md R87). -/
def readableFile (path : Text) (opened : Bool) (s : State) : Option Image :=
  match s.mem.fileIndex path with
  | some f => match s.mem.files[f]? with
    | some hf => if opened && decide (0 < hf.content.size) then some hf.content else none
    | none => none
  | none => none

/-- `mapFile` with `writable = false`: a copy in an owned buffer sized to the file (20_memory.md R87). -/
def mapFileReadOnly (id : RegionId) (base : Addr) (path : Text) (opened : Bool) (s : State) : HostReply × State :=
  match readableFile path opened s with
  | some im =>
    (.done, s.setMem (s.mem.addRegion
      { id := id, base := base, size := im.size, storage := .owned im.cells, writable := false }))
  | none => fileOpenFailure path s

/-- `unmap(id)` (20_memory.md R89). That an `unmap` with no match answers `failed` is the model's choice (log 20). Flushing
changes nothing here, a mapped file being written as its region is (R97). -/
def unmap (id : RegionId) (s : State) : HostReply × State :=
  match s.mem.newestMatch id with
  | some k => (.done, s.setMem (s.mem.dropRegion k))
  | none => (.failed, s.raise (.unmappedRegionId id))

/-- The id of an overlay (20_memory.md R122). -/
def overlayId : RegionId := { chars := ['o', 'v', 'e', 'r', 'l', 'a', 'y'], wf := rfl }

/-! ## The Machine layout -/

/-- The state before the Machine maps anything: every register `set` to its reset value (10_state.md R61), the engine
Uninitialized (R55), no region, an empty log, and the ROM image as a file. -/
def State.blank (c : Config) : State :=
  { pc := c.resetValues.pc
    sp := c.resetValues.sp
    a := c.resetValues.a
    x := c.resetValues.x
    y := c.resetValues.y
    p := maskP c.resetValues.p
    engine := .uninitialized
    mem := { regions := [], buffers := [], files := [{ path := c.romPath, content := c.romImage }] }
    log := []
    latch := none
    config := c }

/-- Builds the Machine: RAM, then ROM (20_memory.md R120). A ROM that cannot be opened is not mapped (R88). ROM_BASE is
0x0001 to 0xFFFF (R120); with 0 the RAM would have no bytes, and no RAM region is created (R82). -/
def State.build (c : Config) (romOpened : Bool) : State :=
  (mapFileReadOnly romId c.romBase c.romPath romOpened
    (mapZeroed ramId 0x0000#16 c.romBase.toNat true (State.blank c))).2

/-- The ROM image is read-only-mapped at ROM_BASE (70_reset_and_hazards.md R390, 20_memory.md R120). -/
def State.romMapped (s : State) : Bool := decide (romRegion s.config ∈ s.mem.regions)

/-- RAM covers 0x0000 to ROM_BASE - 1, whatever it holds by now (70_reset_and_hazards.md R390, 20_memory.md R120). -/
def State.ramMapped (s : State) : Bool := decide ((ramRegion s.config).shape ∈ s.mem.map)

/-- The Machine is well-formed for boot (70_reset_and_hazards.md R390): its parameters are, its RAM is mapped, and its ROM
image is mapped, which it is not when the image could not be opened. It is about the regions of R120, whatever overlays the
host maps over them afterwards; that is the model's reading, R390 being silent on overlays (log 2). "A Machine that
is not well-formed is still a valid machine": no step and no host operation asks for it. -/
def State.bootWellFormed (s : State) : Bool := s.config.bootWellFormed && s.romMapped && s.ramMapped

/-! ## Register and memory access by the host -/

/-- `get(name)` (10_state.md R38). -/
def hostGet (name : Text) (s : State) : HostReply × State :=
  match findCpuReg cpuRegs name with
  | some r => (.value (r.view s).get, s)
  | none => (.failed, s.raise (.notFound name))

/-- `get(name).set(v)` (60_exceptions.md R371). -/
def hostSet (name : Text) (v : Int) (s : State) : HostReply × State :=
  match findCpuReg cpuRegs name with
  | some r => (.done, r.set v s)
  | none => (.failed, s.raise (.notFound name))

/-- `pointer(a)` (20_memory.md R94). -/
def hostPointer (addr : Addr) (s : State) : HostReply × State :=
  match s.mem.resolve addr with
  | some h => (.handle h.k h.o, s)
  | none => (.failed, s.raise (.unmappedAccess .pointer addr))

/-- Storage byte `o + i` through the handle of `pointer(a)`, if the region's storage holds it (20_memory.md R80, R94) and
its address is below 0x10000, since the bytes of a region above that "can never be reached" (R82, R121). -/
def Hit.past (h : Hit) (i : Nat) : Option Site :=
  if h.o + i < h.region.size ∧ h.region.base.toNat + (h.o + i) < 0x10000 then some { h with o := h.o + i }.site
  else none

/-- Reads `storage[o + i]` through the handle of `pointer(a)`. The model's choice, with `hostWriteThrough`: the handle
reaches the byte also where a newer region shadows it (log 9). -/
def hostReadThrough (addr : Addr) (i : Nat) (s : State) : Host.Outcome (HostReply × State) Fault Refusal :=
  match s.mem.resolve addr with
  | some h => match h.past i with
    | some site => .next (.byte (s.mem.byteAt site), s)
    | none => .refused .pastStorage
  | none => .next (.failed, s.raise (.unmappedAccess .pointer addr))

/-- Writes `storage[o + i]` through the handle of `pointer(a)`, whatever `writable` says, with no event (60_exceptions.md
R373). The model's choice: a handle taken while a newer region B lies over part of its region A reaches all of A's storage,
A's bytes under B included, as 20_memory.md R94 gives a handle to `storage[o..]`; R100 says of writes to those bytes only
that a pointer obtained before B was mapped could make them (log 9). -/
def hostWriteThrough (addr : Addr) (i : Nat) (v : Byte) (s : State) :
    Host.Outcome (HostReply × State) Fault Refusal :=
  match s.mem.resolve addr with
  | some h => match h.past i with
    | some site => .next (.done, s.setMem (s.mem.putAt site v))
    | none => .refused .pastStorage
  | none => .next (.failed, s.raise (.unmappedAccess .pointer addr))

/-- A region maps file `f`. -/
def Memory.maps (m : Memory) (f : Nat) : Bool := m.regions.any fun r => decide (r.storage = .mappedFile f)

/-- The host writes a whole file that no region maps, creating it if need be (60_exceptions.md R372; log 5). -/
def hostWriteFile (path : Text) (bytes : List Byte) (s : State) : Host.Outcome (HostReply × State) Fault Refusal :=
  match s.mem.fileIndex path with
  | some f =>
    if s.mem.maps f then .refused .fileIsMapped
    else .next (.done, s.setMem
      { s.mem with files := s.mem.files.modify f fun hf => { hf with content := imageOf bytes } })
  | none => .next (.done, s.setMem { s.mem with files := s.mem.files ++ [{ path := path, content := imageOf bytes }] })

/-- The owner of a Borrowed buffer changes one of its bytes (60_exceptions.md R372). -/
def hostWriteBuffer (b i : Nat) (v : Byte) (s : State) : Host.Outcome (HostReply × State) Fault Refusal :=
  match s.mem.buffers[b]? with
  | some im =>
    if i < im.size then .next (.done, s.setMem (s.mem.putAt (.buffer b i) v)) else .refused .noSuchBuffer
  | none => .refused .noSuchBuffer

/-- One host operation (60_exceptions.md R370). That a dropped `write`, like any other, answers `done` is the model's choice
(log 20). -/
def hostCall (op : HostOp) (s : State) : Host.Outcome (HostReply × State) Fault Refusal :=
  match op with
  | .reset => .next (.done, resetCore s)
  | .getRegister name => .next (hostGet name s)
  | .setRegister name v => .next (hostSet name v s)
  | .forEach => .next (.registers (s.registerFile.map fun nr => (nr.1, nr.2.get)), s)
  | .read addr =>
    let r := memRead addr s
    .next (.byte r.1, r.2)
  | .write addr v => .next (.done, memWrite addr v s)
  | .pointer addr => .next (hostPointer addr s)
  | .readThrough addr i => hostReadThrough addr i s
  | .writeThrough addr i v => hostWriteThrough addr i v s
  | .mapZeroed id base size writable allocated =>
    if size = 0 then .refused .zeroSizeMap
    else if allocated then .next (.done, mapZeroed id base size writable s)
    else .fault .allocationFailure
  | .mapBuffer id base size buffer writable =>
    match s.mem.buffers[buffer]? with
    | none => .refused .noSuchBuffer
    | some im =>
      if size = 0 then .refused .zeroSizeMap
      else if im.size < size then .refused .shortBuffer
      else .next (.done, mapBuffer id base size buffer writable s)
  | .mapFile id base size path true opened _ =>
    if size = 0 then .refused .zeroSizeMap else .next (mapFileWritable id base size path opened s)
  | .mapFile id base _ path false opened allocated =>
    if (readableFile path opened s).isSome && !allocated then .fault .allocationFailure
    else .next (mapFileReadOnly id base path opened s)
  | .unmap id => .next (unmap id s)
  | .loadOverlay path addr size opened =>
    if size = 0 then .refused .zeroSizeMap else .next (mapFileWritable overlayId addr size path opened s)
  | .unloadOverlay => .next (unmap overlayId s)
  | .readLog => .next (.events s.log, s)
  | .readLatch => .next (.latch s.latch, s)
  | .newBuffer bytes =>
    .next (.value s.mem.buffers.length, s.setMem { s.mem with buffers := s.mem.buffers ++ [imageOf bytes] })
  | .writeBuffer b i v => hostWriteBuffer b i v s
  | .writeFile path bytes => hostWriteFile path bytes s

end Sys2Proof.Machine
end

