-- ==== Sys2Proof/Safety.lean ====
section
/-! DEFINITION. What a well-kept state and a run are, in the terms claims use. -/

namespace Sys2Proof.Machine

/-- The state invariant: bit 5 of FLAGS reads 0 (10_state.md R46), and the memory state is in canonical form with every
region backed by storage (20_memory.md R80, R82, R85). -/
abbrev State.Inv (s : State) : Prop := s.p.getLsbD 5 = false ∧ s.mem.wf = true

/-! ## What an access leaves behind, in closed form -/

/-- `s` with more events in the log. -/
def State.logged (s : State) (es : List Event) : State := { s with log := s.log ++ es }

/-- The events of reading the addresses, in order: one `UnmappedAccess(read)` per unmapped byte (20_memory.md R95, R107). -/
def Memory.readEvents (m : Memory) (addrs : List Addr) : List Event :=
  addrs.flatMap fun addr => if (m.resolve addr).isSome then [] else [Event.unmappedAccess .read addr]

/-- The events of writing the address (20_memory.md R97). -/
def Memory.writeEvents (m : Memory) (addr : Addr) : List Event :=
  match m.resolve addr with
  | some h => if h.region.writable then [] else [.readOnlyViolation addr]
  | none => [.unmappedAccess .write addr]

/-- The memory after a write: the byte that the address shows is stored if its region is writable, and nothing changes
otherwise (20_memory.md R97). -/
def Memory.write (m : Memory) (addr : Addr) (v : Byte) : Memory :=
  match m.resolve addr with
  | some h => if h.region.writable then m.putAt h.site v else m
  | none => m

/-- A pointer of two bytes as memory shows it, low byte at `loAddr`. -/
def Memory.peekPair (m : Memory) (loAddr hiAddr : Addr) : Addr := pair (m.peek hiAddr) (m.peek loAddr)

/-- The memory after pushing an address at stack pointer `sp`, high byte first (44_control.md R301, R311). -/
def Memory.pushAddr (m : Memory) (sp : Byte) (addr : Addr) : Memory :=
  (m.write (stackAddr sp) (highByte addr)).write (stackAddr (sp - 1#8)) (lowByte addr)

/-- The effective address of a mode, in terms of what memory shows (30_encoding.md R153-R162). -/
def eaOf (m : MemMode) (s : State) : Addr :=
  match m with
  | .zp d => zext d
  | .zpX d => zext (d + s.x)
  | .zpY d => zext (d + s.y)
  | .abs d => d
  | .absX d => d + zext s.x
  | .absY d => d + zext s.y
  | .indX d => s.mem.peekPair (zext (d + s.x)) (zpPointerHigh s.config.pointerWrap (d + s.x))
  | .indY d => s.mem.peekPair (zext d) (zpPointerHigh s.config.pointerWrap d) + zext s.y

/-- The addresses that forming the effective address reads, in order (20_memory.md R107). -/
def eaReads (m : MemMode) (s : State) : List Addr :=
  match m with
  | .zp _ | .zpX _ | .zpY _ | .abs _ | .absX _ | .absY _ => []
  | .indX d => [zext (d + s.x), zpPointerHigh s.config.pointerWrap (d + s.x)]
  | .indY d => [zext d, zpPointerHigh s.config.pointerWrap d]

/-- The operand value `M` (30_encoding.md R152, R164). -/
def operandOf (src : Src) (s : State) : Byte :=
  match src with
  | .imm d => d
  | .mem m => s.mem.peek (eaOf m s)

/-- The addresses that reading an operand reads, in order: the pointer bytes, then the operand (20_memory.md R107). -/
def operandReads (src : Src) (s : State) : List Addr :=
  match src with
  | .imm _ => []
  | .mem m => eaReads m s ++ [eaOf m s]

/-- The addresses of `n` bytes from `addr` up, wrapping at 16 bits. -/
def addrsFrom (addr : Addr) : Nat → List Addr
  | 0 => []
  | n + 1 => addr :: addrsFrom (addr + 1#16) n

/-- The state in which a fetched instruction executes: PC past its bytes, the events of their reads in the log, and the
latch filled (30_encoding.md R142). -/
def State.fetched (s : State) (i : Instr) : State :=
  { s with
    pc := s.pc + BitVec.ofNat 16 i.length
    log := s.log ++ s.mem.readEvents (addrsFrom s.pc i.length)
    latch := some
      { pc0 := s.pc, opcode := s.mem.peek s.pc, instr := i,
        rawBytes := (addrsFrom s.pc i.length).map s.mem.peek, resolved := resolved i s } }

/-- The instructions and forms that write memory (60_exceptions.md R341, the ReadOnlyViolation row). -/
def storesMemory : Instr → Bool
  | .sta _ | .stx _ | .sty _ | .inc _ | .dec _ | .pha | .php | .jsr _ | .brk => true
  | .asl t | .lsr t | .rol t | .ror t => decide (t ≠ .acc)
  | .lda _ | .ldx _ | .ldy _ | .tax | .tay | .txa | .tya | .tsx | .txs | .pla | .plp => false
  | .adc _ | .sbc _ | .cmp _ | .cpx _ | .cpy _ | .and _ | .ora _ | .eor _ | .bit _ => false
  | .inx | .iny | .dex | .dey | .jmp _ | .rts | .rti | .nop | .unknown _ => false
  | .bpl _ | .bmi _ | .bvc _ | .bvs _ | .bcc _ | .bcs _ | .bne _ | .beq _ => false
  | .clc | .sec | .cli | .sei | .cld | .sed | .clv => false

/-- The events that a step can raise (60_exceptions.md R341): not those of the host's map, file and register operations. -/
def Event.ofCore : Event → Bool
  | .unmappedAccess .read _ | .unmappedAccess .write _ | .readOnlyViolation _ | .unknownOpcode _ _ => true
  | .unmappedAccess .pointer _ | .unmappedRegionId _ | .fileOpenFailure _ | .notFound _ => false

/-- The extents of the storage behind the regions: the sizes of the caller-owned buffers, and the paths and sizes of the
files (20_memory.md R81). -/
def Memory.extents (m : Memory) : List Nat × List (Text × Nat) :=
  (m.buffers.map Image.size, m.files.map fun hf => (hf.path, hf.content.size))

/-- What a store of `v` at `addr` does to memory (20_memory.md R92, R97). `addr` shows `v` if its region is writable, and
nothing changes otherwise. Every address that shows another storage byte reads as before. Every other storage byte is
unchanged, also one that no address shows: a byte under a newer region, past a region's size, or of a buffer or file that no
region maps. The address map and the extents of the storage stay. -/
def StoredAt (m n : Memory) (addr : Addr) (v : Byte) : Prop :=
  (m.storable addr = true → n.peek addr = v) ∧ (m.storable addr = false → n = m) ∧
    (∀ addr', m.siteOf addr' ≠ m.siteOf addr → n.peek addr' = m.peek addr') ∧
    (∀ site, m.siteOf addr ≠ some site → n.byteAt site = m.byteAt site) ∧ n.map = m.map ∧ n.extents = m.extents

/-! ## Flags -/

/-- `p'` has bit 5 zero, and every bit outside `written` as in `p` (10_state.md R46, 00_scope.md R13). -/
def KeepsFlags (written : List Nat) (p p' : Byte) : Prop :=
  p'.getLsbD 5 = false ∧ ∀ k, k < 8 → k ≠ 5 → k ∉ written → p'.getLsbD k = p.getLsbD k

/-- N and Z of a result byte (00_scope.md R13). -/
def ShowsNZ (p' r : Byte) : Prop := flagN p' = r.getLsbD 7 ∧ (flagZ p' = true ↔ r = 0#8)

/-- A valid BCD byte: both digits 0 to 9 (42_alu_arith.md R236). -/
def ValidBcd (b : Byte) : Prop := b.toNat % 16 < 10 ∧ b.toNat / 16 < 10

/-- The number that a BCD byte stands for. -/
def bcdValue (b : Byte) : Nat := 10 * (b.toNat / 16) + b.toNat % 16

/-! ## Runs -/

/-- The moves of the system: the core's step and the host's operations, each atomic, one at a time (20_memory.md R112,
60_exceptions.md R370). -/
inductive Move where
  | core
  | host (op : HostOp)
  deriving DecidableEq, Repr

/-- One move. -/
def move (mv : Move) (s : State) : Host.Outcome State Fault Refusal :=
  match mv with
  | .core => step s
  | .host op => match hostCall op s with
    | .next r => .next r.2
    | .fault f => .fault f
    | .refused r => .refused r

/-- `t` is reached from `s` by moves that all have a successor state. -/
inductive Reaches (s : State) : State → Prop where
  | refl : Reaches s s
  | move {t u : State} (mv : Move) (h : Reaches s t) (hu : move mv t = .next u) : Reaches s u

/-- The state is one of a run of a built Machine (20_memory.md R120, 10_state.md R61). -/
def State.Reachable (s : State) : Prop := ∃ c romOpened, Reaches (State.build c romOpened) s

end Sys2Proof.Machine
end

