-- ==== Sys2Proof/Certificates/Slice0/Obligations.lean ====
section
/-! DEFINITION. The statements for the provers, listed in OBLIGATIONS.json. Each docstring names the rules of spec/ it
rests on. -/

open Sys2Proof Sys2Proof.Machine

/-! ## Encoding -/

/-- `op` alone encodes `i` (30_encoding.md R143). -/
def OneByte (op : Byte) (i : Instr) : Prop := ∀ rest, decode (op :: rest) = .ok (i, rest)

/-- `op` and one operand byte `d` encode `f d` (30_encoding.md R143, R145). -/
def TwoBytes (op : Byte) (f : Byte → Instr) : Prop := ∀ d rest, decode (op :: d :: rest) = .ok (f d, rest)

/-- `op` and a little-endian address encode `f` of it (30_encoding.md R143, R145). -/
def ThreeBytes (op : Byte) (f : Addr → Instr) : Prop :=
  ∀ lo hi rest, decode (op :: lo :: hi :: rest) = .ok (f (BitVec.ofNat 16 (lo.toNat + 256 * hi.toNat)), rest)

/-- The eight encodings of an accumulator instruction, in the order in which its rule lists them. -/
def AccumulatorEncodings (k : Src → Instr) (imm zp zpX abs absX absY indX indY : Byte) : Prop :=
  TwoBytes imm (fun d => k (.imm d)) ∧ TwoBytes zp (fun d => k (.mem (.zp d))) ∧
  TwoBytes zpX (fun d => k (.mem (.zpX d))) ∧ ThreeBytes abs (fun d => k (.mem (.abs d))) ∧
  ThreeBytes absX (fun d => k (.mem (.absX d))) ∧ ThreeBytes absY (fun d => k (.mem (.absY d))) ∧
  TwoBytes indX (fun d => k (.mem (.indX d))) ∧ TwoBytes indY (fun d => k (.mem (.indY d)))

/-- The three encodings of CPX or CPY, in the order in which its rule lists them. -/
def CompareEncodings (k : Src → Instr) (imm zp abs : Byte) : Prop :=
  TwoBytes imm (fun d => k (.imm d)) ∧ TwoBytes zp (fun d => k (.mem (.zp d))) ∧
  ThreeBytes abs (fun d => k (.mem (.abs d)))

/-- The five encodings of a shift or rotate, in the order in which its rule lists them. -/
def ShiftEncodings (k : Target → Instr) (acc zp zpX abs absX : Byte) : Prop :=
  OneByte acc (k .acc) ∧ TwoBytes zp (fun d => k (.mem (.zp d))) ∧ TwoBytes zpX (fun d => k (.mem (.zpX d))) ∧
  ThreeBytes abs (fun d => k (.mem (.abs d))) ∧ ThreeBytes absX (fun d => k (.mem (.absX d)))

/-- The four encodings of INC or DEC, in the order in which its rule lists them. -/
def IncrementEncodings (k : MemMode → Instr) (zp zpX abs absX : Byte) : Prop :=
  TwoBytes zp (fun d => k (.zp d)) ∧ TwoBytes zpX (fun d => k (.zpX d)) ∧
  ThreeBytes abs (fun d => k (.abs d)) ∧ ThreeBytes absX (fun d => k (.absX d))

/-- Every well-formed instruction, with every operand value, has an encoding of its own length, and decoding it gives the
instruction back and leaves the bytes after it (30_encoding.md R142-R145, R170, R176). -/
def Obligations.DecodeInvertsEncode : Prop :=
  ∀ (i : Instr) (rest : List Byte), i.wellFormed = true →
    ∃ bytes, encode i = some bytes ∧ bytes.length = i.length ∧ decode (bytes ++ rest) = .ok (i, rest)

/-- Whatever bytes decode to an instruction are its own encoding, and the instruction is well-formed: no two encodings of
one instruction, and no encoding of two (30_encoding.md R140, R170, R176, R177). -/
def Obligations.EncodeInvertsDecode : Prop :=
  ∀ (bytes rest : List Byte) (i : Instr), decode bytes = .ok (i, rest) →
    i.wellFormed = true ∧ ∃ own, encode i = some own ∧ bytes = own ++ rest

/-- A few words written out from the table: one of each family and of each length (30_encoding.md R143, R145, R170). -/
def Obligations.WrittenWordsDecode : Prop :=
  decode [0xA9#8, 0x80#8] = .ok (.lda (.imm 0x80#8), []) ∧
  decode [0x8D#8, 0x00#8, 0x02#8] = .ok (.sta (.abs 0x0200#16), []) ∧
  decode [0x9A#8] = .ok (.txs, []) ∧
  decode [0x71#8, 0x40#8] = .ok (.adc (.mem (.indY 0x40#8)), []) ∧
  decode [0x3E#8, 0x00#8, 0x20#8] = .ok (.rol (.mem (.absX 0x2000#16)), []) ∧
  decode [0x20#8, 0xCD#8, 0xAB#8] = .ok (.jsr 0xABCD#16, []) ∧
  decode [0x6C#8, 0xFF#8, 0x12#8] = .ok (.jmp (.ind 0x12FF#16), []) ∧
  decode [0xF0#8, 0xFE#8] = .ok (.beq 0xFE#8, []) ∧
  decode [0xB8#8] = .ok (.clv, []) ∧
  decode [0x0C#8, 0xA9#8, 0x01#8] = .ok (.unknown 0x0C#8, [0xA9#8, 0x01#8])

/-- The 105 bytes of R176, and no others, decode as Unknown, each 1 byte long. -/
def Obligations.UnknownBytesAreOneByteLong : Prop :=
  unknownOpcodes.length = 105 ∧ unknownOpcodes.Nodup ∧
  ∀ (op : Byte) (rest : List Byte),
    (op ∈ unknownOpcodes → decode (op :: rest) = .ok (.unknown op, rest)) ∧
    (op ∉ unknownOpcodes → ∀ (u : Byte) (rest' : List Byte), decode (op :: rest) ≠ .ok (.unknown u, rest'))

/-! ## The step -/

/-- A Running step fetches the instruction at PC, all of its bytes in address order and each read with its own event, and
then executes exactly it, with PC at the byte after it (30_encoding.md R141, R142; 70_reset_and_hazards.md R385). The latch
clause is the model's choice (10_state.md R56, log 7). -/
def Obligations.StepRunsTheFetchedInstruction : Prop :=
  ∀ (s : State) (i : Instr) (rest : List Byte), s.engine = .running →
    decode [s.mem.peek s.pc, s.mem.peek (s.pc + 1#16), s.mem.peek (s.pc + 2#16)] = .ok (i, rest) →
    step s = exec i (s.fetched i)

/-- In every Running state the bytes at PC are an instruction: no step is left without one (30_encoding.md R142, R177). -/
def Obligations.EveryRunningStateFetches : Prop :=
  ∀ (s : State), ∃ (i : Instr) (rest : List Byte),
    decode [s.mem.peek s.pc, s.mem.peek (s.pc + 1#16), s.mem.peek (s.pc + 2#16)] = .ok (i, rest) ∧
    i.wellFormed = true ∧ 1 ≤ i.length ∧ i.length ≤ 3

/-- The step in the Uninitialized state loads PC from 0xFFFC (low) and 0xFFFD (high), makes the engine Running, logs an
event per unmapped vector byte, and changes nothing else (70_reset_and_hazards.md R383, R384). That it leaves the latch is
the model's choice (log 7). -/
def Obligations.ResetVectorStepLoadsOnlyPC : Prop :=
  ∀ (s : State), s.engine = .uninitialized →
    ∃ pc', pc'.toNat = (s.mem.peek 0xFFFC#16).toNat + 256 * (s.mem.peek 0xFFFD#16).toNat ∧
      step s = .next
        { s with pc := pc', engine := .running, log := s.log ++ s.mem.readEvents [0xFFFC#16, 0xFFFD#16] }

/-- Every step keeps the invariant: bit 5 of FLAGS reads 0 (10_state.md R46), the memory state stays canonical, and every
region stays backed by its storage (20_memory.md R80, R82, R85). The canonical form is the model's (log 6). -/
def Obligations.StepKeepsStateInvariant : Prop :=
  ∀ (s t : State), s.Inv → step s = .next t → t.Inv

/-- The state after reset meets the invariant. -/
def Obligations.ResetStateMeetsInvariant : Prop := State.reset.Inv

/-- Every host operation that has a successor state keeps the invariant (60_exceptions.md R370-R373; 20_memory.md R82,
R84-R89). -/
def Obligations.HostCallKeepsStateInvariant : Prop :=
  ∀ (op : HostOp) (s t : State) (reply : HostReply), s.Inv → hostCall op s = .next (reply, t) → t.Inv

/-- Every state of every run of a built Machine, steps and host operations in any order, meets the invariant (10_state.md
R46, R61; 20_memory.md R120). The host's moves and the canonical form are the model's (log 4, log 5, log 6). -/
def Obligations.RunsOfBuiltMachinesKeepInvariant : Prop :=
  ∀ (c : Config) (romOpened : Bool) (s : State), imageWf c.romImage = true →
    Reaches (State.build c romOpened) s → s.Inv

/-- No event, opcode or operand stops the core: every step has a successor state, and it is Running (10_state.md R55;
60_exceptions.md R340, R361). -/
def Obligations.StepAlwaysHasASuccessor : Prop :=
  ∀ (s : State), ∃ t, step s = .next t ∧ t.engine = .running

/-- A step only appends to the log, and only events that the core raises, of the codes 1, 2 and 4; it moves no region, changes
no `writable` flag, and leaves the configuration alone (10_state.md R60; 20_memory.md R110; 60_exceptions.md R341). -/
def Obligations.StepOnlyAppendsAndKeepsMap : Prop :=
  ∀ (s t : State), step s = .next t →
    t.config = s.config ∧ t.mem.map = s.mem.map ∧
      ∃ es, t.log = s.log ++ es ∧ ∀ e ∈ es, e.ofCore = true ∧ e.code ∈ [1, 2, 4]

/-- Whatever instruction a step runs, a read-only region with a buffer of its own keeps every byte of it, also where a newer
region shadows it; and an address that resolves to such a region, or to none, reads as before (20_memory.md R92, R97, R110;
60_exceptions.md R343). -/
def Obligations.StepSparesReadOnlyBytes : Prop :=
  ∀ (s t : State) (addr : Addr), step s = .next t →
    (∀ (k : Nat) (r : Region) (cells : Cells), s.mem.regions[k]? = some r → r.writable = false →
      r.storage = .owned cells → t.mem.regions[k]? = some r) ∧
    (∀ (h : Hit) (cells : Cells), s.mem.resolve addr = some h → h.region.storage = .owned cells →
      h.region.writable = false → t.mem.peek addr = s.mem.peek addr) ∧
    (s.mem.resolve addr = none → t.mem.peek addr = s.mem.peek addr)

/-- `reset()` sets every register to its reset value, bit 5 of FLAGS masked off, and the engine to Uninitialized, and
changes nothing else: not the memory state, not the log (10_state.md R33, R46; 70_reset_and_hazards.md R380, R381). With the
decided reset values the registers hold 0x0000, 0xFD, 0x00, 0x00, 0x00 and 0x04 (10_state.md R40). Twice is once (R382).
Of the latch, which is the model's own (log 7), it says nothing but that a second reset leaves it. -/
def Obligations.ResetRestoresRegistersOnly : Prop :=
  ∀ (s : State), ∃ t, hostCall .reset s = .next (.done, t) ∧ hostCall .reset t = .next (.done, t) ∧
    t.mem = s.mem ∧ t.log = s.log ∧ t.config = s.config ∧ t.engine = .uninitialized ∧
    { t with latch := s.latch } =
      { s with pc := s.config.resetValues.pc, sp := s.config.resetValues.sp, a := s.config.resetValues.a,
               x := s.config.resetValues.x, y := s.config.resetValues.y, p := s.config.resetValues.p &&& 0xDF#8,
               engine := .uninitialized } ∧
    (s.config.resetValues = Config.decidedResetValues →
      { t with latch := s.latch } =
        { s with pc := 0x0000#16, sp := 0xFD#8, a := 0x00#8, x := 0x00#8, y := 0x00#8, p := 0x04#8,
                 engine := .uninitialized })

/-! ## Memory -/

/-- Write then read: in a mapped writable region `read(a)` after `write(a, d)` is `d`, with no event (20_memory.md R97,
R98). -/
def Obligations.WriteThenReadReturnsTheByte : Prop :=
  ∀ (s : State) (addr : Addr) (v : Byte), s.mem.wf = true → s.mem.storable addr = true →
    memRead addr (memWrite addr v s) = (v, memWrite addr v s) ∧ (memWrite addr v s).log = s.log

/-- Outside every region a read returns 0x00 and a write changes nothing, each with its `UnmappedAccess` and no other
effect (20_memory.md R95, R97, R99). -/
def Obligations.UnmappedReadsZeroAndDropsWrites : Prop :=
  ∀ (s : State) (addr : Addr) (v : Byte),
    (∀ r ∈ s.mem.regions, ¬(r.base.toNat ≤ addr.toNat ∧ addr.toNat < r.base.toNat + r.size)) →
    memRead addr s = (0x00#8, { s with log := s.log ++ [.unmappedAccess .read addr] }) ∧
    memWrite addr v s = { s with log := s.log ++ [.unmappedAccess .write addr] }

/-- A write whose newest containing region is read-only is dropped with `ReadOnlyViolation`, whatever older region lies
under it (20_memory.md R92, R97; 60_exceptions.md R343). -/
def Obligations.ReadOnlyWriteIsDropped : Prop :=
  ∀ (s : State) (addr : Addr) (v : Byte) (h : Hit), s.mem.resolve addr = some h → h.region.writable = false →
    memWrite addr v s = { s with log := s.log ++ [.readOnlyViolation addr] }

/-- A read changes no register, no storage and no configuration, only the log, and reading again gives the same byte
(20_memory.md R95, R96). -/
def Obligations.ReadsChangeOnlyTheLog : Prop :=
  ∀ (s : State) (addr : Addr), ∃ v es, memRead addr s = (v, { s with log := s.log ++ es }) ∧
    (memRead addr (memRead addr s).2).1 = v ∧
    (es = [] ∨ es = [.unmappedAccess .read addr] ∧ v = 0x00#8)

/-- A write leaves every address that shows another storage byte as it was, and every other storage byte, shadowed or
unmapped ones included; and a byte of a region's own buffer shows at one address only (20_memory.md R81, R92, R97, R100,
R111). -/
def Obligations.WriteSparesOtherBytes : Prop :=
  ∀ (s : State) (addr addr' : Addr) (v : Byte),
    (s.mem.siteOf addr' ≠ s.mem.siteOf addr → (memWrite addr v s).mem.peek addr' = s.mem.peek addr') ∧
    (∀ site, s.mem.siteOf addr ≠ some site → (memWrite addr v s).mem.byteAt site = s.mem.byteAt site) ∧
    (∀ k o, s.mem.siteOf addr = some (.owned k o) → addr' ≠ addr → s.mem.siteOf addr' ≠ s.mem.siteOf addr)

/-- Resolution: the newest region that contains the address, in unbounded integers, at offset `a - base`; none exactly
when no region contains it (20_memory.md R83, R91). -/
def Obligations.NewestContainingRegionWins : Prop :=
  ∀ (m : Memory) (addr : Addr),
    (m.resolve addr = none ↔
      ∀ r ∈ m.regions, ¬(r.base.toNat ≤ addr.toNat ∧ addr.toNat < r.base.toNat + r.size)) ∧
    ∀ (k o : Nat) (r : Region), m.resolve addr = some { k := k, region := r, o := o } ↔
      m.regions[k]? = some r ∧ r.base.toNat ≤ addr.toNat ∧ addr.toNat < r.base.toNat + r.size ∧
        o = addr.toNat - r.base.toNat ∧
        ∀ j q, k < j → m.regions[j]? = some q →
          ¬(q.base.toNat ≤ addr.toNat ∧ addr.toNat < q.base.toNat + q.size)

/-- The overlay law: a zeroed writable region B mapped over anything reads 0x00 in its range and takes the writes there,
addresses outside it read as before, and after any number of writes inside it `unmap` gives back the memory as it was
before B (20_memory.md R84, R89, R100). -/
def Obligations.OverlayShadowsUntilUnmapped : Prop :=
  ∀ (s : State) (id : RegionId) (base : Addr) (size : Nat) (ws : List (Addr × Byte)), 0 < size →
    (∀ w ∈ ws, base.toNat ≤ w.1.toNat ∧ w.1.toNat < base.toNat + size) →
    ∃ t u, hostCall (.mapZeroed id base size true true) s = .next (.done, t) ∧
      (∀ addr : Addr, base.toNat ≤ addr.toNat → addr.toNat < base.toNat + size →
        t.mem.peek addr = 0x00#8 ∧ ∀ v, (memWrite addr v t).mem.peek addr = v) ∧
      (∀ addr : Addr, ¬(base.toNat ≤ addr.toNat ∧ addr.toNat < base.toNat + size) →
        t.mem.peek addr = s.mem.peek addr) ∧
      hostCall (.unmap id) (ws.foldl (fun u w => memWrite w.1 w.2 u) t) = .next (.done, u) ∧
      u = s

/-- `unmap(id)` removes exactly the newest region whose id agrees with `id` in its first 16 characters, and with no such
region it only logs `UnmappedRegionId` (20_memory.md R89, R93; 60_exceptions.md R344). The replies `done` and `failed` are
the model's choice (log 20). -/
def Obligations.UnmapRemovesTheNewestMatch : Prop :=
  ∀ (s : State) (id : RegionId),
    (∃ k r, s.mem.regions[k]? = some r ∧ r.id.chars.take 16 = id.chars.take 16 ∧
      (∀ j q, k < j → s.mem.regions[j]? = some q → q.id.chars.take 16 ≠ id.chars.take 16) ∧
      hostCall (.unmap id) s =
        .next (.done, { s with mem := { s.mem with regions := s.mem.regions.eraseIdx k } })) ∨
    ((∀ r ∈ s.mem.regions, r.id.chars.take 16 ≠ id.chars.take 16) ∧
      hostCall (.unmap id) s = .next (.failed, { s with log := s.log ++ [.unmappedRegionId id] }))

/-- Two addresses that show one storage byte, through a shared Borrowed buffer or file, see each other's writes
(20_memory.md R81, R85, R111). -/
def Obligations.SharedStorageShowsWritesAtBoth : Prop :=
  ∀ (s : State) (addr addr' : Addr) (v : Byte), s.mem.wf = true → s.mem.storable addr = true →
    s.mem.siteOf addr' = s.mem.siteOf addr → (memWrite addr v s).mem.peek addr' = v

/-- A read-only `mapFile` shows a copy of the file at its own length, whatever `size` was given, and its bytes cannot be
written. A copy it is: a write outside the region (to an older region that maps the file, for one) and a new content of the
file leave what the region shows, and a write through a handle into the region leaves the files. A file that cannot be
opened, or is empty, maps nothing and logs `FileOpenFailure` (20_memory.md R87, R88). Files in State, and `writeFile`, are
the model's form (log 5), and so is the use of a handle (log 9). That the map is made for `size = 0` as well is the model's
reading of R87 (log 15). -/
def Obligations.ReadOnlyFileMapCopiesTheFile : Prop :=
  ∀ (s : State) (id : RegionId) (path : Text) (base : Addr) (size f : Nat) (hf : HostFile),
    s.mem.fileIndex path = some f → s.mem.files[f]? = some hf →
    (0 < hf.content.size → ∃ t, hostCall (.mapFile id base size path false true true) s = .next (.done, t) ∧
      t.log = s.log ∧ t.mem.files = s.mem.files ∧
      (∀ addr : Addr, base.toNat ≤ addr.toNat → addr.toNat < base.toNat + hf.content.size →
        t.mem.peek addr = Cells.get hf.content.cells (addr.toNat - base.toNat) ∧ t.mem.storable addr = false ∧
        (∀ (addr' : Addr) (v : Byte), ¬(base.toNat ≤ addr'.toNat ∧ addr'.toNat < base.toNat + hf.content.size) →
          (memWrite addr' v t).mem.peek addr = t.mem.peek addr) ∧
        (∀ bytes reply u, hostCall (.writeFile path bytes) t = .next (reply, u) →
          u.mem.peek addr = t.mem.peek addr) ∧
        ∀ i v reply u, hostCall (.writeThrough addr i v) t = .next (reply, u) → u.mem.files = t.mem.files) ∧
      (s.mem.maps f = false → ∀ bytes, ∃ u, hostCall (.writeFile path bytes) t = .next (.done, u) ∧
        u.mem.files[f]? = some { hf with content := imageOf bytes }) ∧
      (∀ addr : Addr, ¬(base.toNat ≤ addr.toNat ∧ addr.toNat < base.toNat + hf.content.size) →
        t.mem.peek addr = s.mem.peek addr)) ∧
    (hf.content.size = 0 → hostCall (.mapFile id base size path false true true) s =
      .next (.failed, { s with log := s.log ++ [.fileOpenFailure path] })) ∧
    hostCall (.mapFile id base size path false false true) s =
      .next (.failed, { s with log := s.log ++ [.fileOpenFailure path] })

/-- A writable `mapFile` creates the file, or extends it with zero bytes, to `size` bytes and shows it: its bytes are the
file's, a write reaches the file at once and stays in it after `unmap`; a file that cannot be opened or created maps nothing
and logs `FileOpenFailure` (20_memory.md R81, R86, R88, R89). -/
def Obligations.WritableFileMapWritesTheFile : Prop :=
  ∀ (s : State) (id : RegionId) (path : Text) (base : Addr) (size : Nat), s.mem.wf = true → 0 < size →
    (∃ t f hf, hostCall (.mapFile id base size path true true true) s = .next (.done, t) ∧ t.log = s.log ∧
      t.mem.fileIndex path = some f ∧ t.mem.files[f]? = some hf ∧
      (∀ old, s.mem.files[f]? = some old → hf.content.size = max old.content.size size ∧
        ∀ i, Cells.get hf.content.cells i = Cells.get old.content.cells i) ∧
      (s.mem.fileIndex path = none → hf.content.size = size ∧ ∀ i, Cells.get hf.content.cells i = 0x00#8) ∧
      (∀ addr : Addr, base.toNat ≤ addr.toNat → addr.toNat < base.toNat + size →
        t.mem.peek addr = Cells.get hf.content.cells (addr.toNat - base.toNat) ∧
        ∀ v, ∃ hf' u, (memWrite addr v t).mem.files[f]? = some hf' ∧
          Cells.get hf'.content.cells (addr.toNat - base.toNat) = v ∧
          hostCall (.unmap id) (memWrite addr v t) = .next (.done, u) ∧ u.mem.files[f]? = some hf') ∧
      (∀ addr : Addr, ¬(base.toNat ≤ addr.toNat ∧ addr.toNat < base.toNat + size) →
        t.mem.peek addr = s.mem.peek addr)) ∧
    hostCall (.mapFile id base size path true false true) s =
      .next (.failed, { s with log := s.log ++ [.fileOpenFailure path] })

/-- `mapBuffer` shows the caller's buffer itself: its bytes are the buffer's, the owner's changes show in the region, the
region's writes land in the buffer when it is writable, and `unmap` leaves the buffer its bytes; a buffer shorter than
`size` is refused (20_memory.md R81, R85, R89; 60_exceptions.md R372). -/
def Obligations.BorrowedMapSharesTheBuffer : Prop :=
  ∀ (s : State) (id : RegionId) (base : Addr) (size b : Nat) (im : Image) (writable : Bool), s.mem.wf = true →
    s.mem.buffers[b]? = some im → 0 < size →
    (size ≤ im.size → ∃ t, hostCall (.mapBuffer id base size b writable) s = .next (.done, t) ∧ t.log = s.log ∧
      t.mem.buffers = s.mem.buffers ∧
      (∀ addr : Addr, base.toNat ≤ addr.toNat → addr.toNat < base.toNat + size →
        t.mem.peek addr = Cells.get im.cells (addr.toNat - base.toNat) ∧
        (∀ v, ∃ u, hostCall (.writeBuffer b (addr.toNat - base.toNat) v) t = .next (.done, u) ∧
          u.mem.peek addr = v) ∧
        (writable = true → ∀ v, ∃ im' u, (memWrite addr v t).mem.buffers[b]? = some im' ∧
          Cells.get im'.cells (addr.toNat - base.toNat) = v ∧
          hostCall (.unmap id) (memWrite addr v t) = .next (.done, u) ∧ u.mem.buffers[b]? = some im')) ∧
      (∀ addr : Addr, ¬(base.toNat ≤ addr.toNat ∧ addr.toNat < base.toNat + size) →
        t.mem.peek addr = s.mem.peek addr)) ∧
    (im.size < size → hostCall (.mapBuffer id base size b writable) s = .refused .shortBuffer)

/-- A built Machine holds RAM from 0x0000 to ROM_BASE - 1, writable and zero-filled, and the read-only image at ROM_BASE,
or RAM alone and a `FileOpenFailure` when the image cannot be opened (20_memory.md R88, R120). ROM_BASE is at least 1 there;
with 0, a map of size 0, there would be no RAM region (R82). It is well-formed for boot exactly when its parameters are and
the image opened; it needs no `reset()`; and a well-formed one boots: its first step loads the vector at offset `len - 4` of
the image, the BRK vector shows the bytes from `len - 2` on, and RAM below ROM_BASE reads zero and takes writes
(70_reset_and_hazards.md R390; that the parameters include ROM_BASE ≥ 0x0200 is the model's reading, log 2, and that the step
leaves the latch is its choice, log 7). The state after reset is the Machine of the default configuration, whose ROM_BASE and
ROM_IMAGE are the model's choice (log 2). -/
def Obligations.BuiltMachineHoldsRamThenRom : Prop :=
  (∀ (c : Config) (ram rom : Region),
    ram = { id := { chars := ['R', 'A', 'M'], wf := rfl }, base := 0x0000#16, size := c.romBase.toNat,
            storage := .owned [], writable := true } →
    rom = { id := { chars := ['R', 'O', 'M'], wf := rfl }, base := c.romBase, size := c.romImage.size,
            storage := .owned c.romImage.cells, writable := false } →
    (0 < c.romImage.size →
      (State.build c true).mem.regions = (if c.romBase = 0x0000#16 then [] else [ram]) ++ [rom] ∧
      (State.build c true).log = []) ∧
    (State.build c false).mem.regions = (if c.romBase = 0x0000#16 then [] else [ram]) ∧
    (State.build c false).log = [.fileOpenFailure c.romPath]) ∧
  (∀ (c : Config) (romOpened : Bool),
    (State.build c romOpened).bootWellFormed = (romOpened && c.bootWellFormed) ∧
    hostCall .reset (State.build c romOpened) = .next (.done, State.build c romOpened)) ∧
  (∀ (c : Config) (image : Nat → Byte), c.bootWellFormed = true → image = Cells.get c.romImage.cells →
    (∃ pc', pc'.toNat = (image (c.romImage.size - 4)).toNat + 256 * (image (c.romImage.size - 3)).toNat ∧
      step (State.build c true) = .next { State.build c true with pc := pc', engine := .running }) ∧
    (State.build c true).mem.peek 0xFFFE#16 = image (c.romImage.size - 2) ∧
    (State.build c true).mem.peek 0xFFFF#16 = image (c.romImage.size - 1) ∧
    ∀ addr : Addr, addr.toNat < c.romBase.toNat →
      (State.build c true).mem.peek addr = 0x00#8 ∧ (State.build c true).mem.storable addr = true) ∧
  State.build Config.default true = State.reset ∧ Config.default.bootWellFormed = true

/-- A host write through a pointer handle changes the byte even in a read-only region, and raises no event (20_memory.md
R94; 60_exceptions.md R373). Through the handle byte `i` past the address is reached, as long as the storage holds it and
its own address is below 0x10000 (R80, R82), and nothing further. That it is reached also where a newer region shadows it is
the model's choice (log 9). -/
def Obligations.PointerWriteIgnoresWritable : Prop :=
  ∀ (s : State) (addr : Addr) (v : Byte) (h : Hit), s.mem.wf = true → s.mem.resolve addr = some h →
    hostCall (.pointer addr) s = .next (.handle h.k h.o, s) ∧
    (∃ t, hostCall (.writeThrough addr 0 v) s = .next (.done, t) ∧ t.mem.peek addr = v ∧ t.log = s.log ∧
      t.mem.map = s.mem.map) ∧
    ∀ i, (h.o + i < h.region.size → addr.toNat + i < 0x10000 →
        ∃ t, hostCall (.writeThrough addr i v) s = .next (.done, t) ∧ t.log = s.log ∧ t.mem.map = s.mem.map ∧
          hostCall (.readThrough addr i) t = .next (.byte v, t) ∧
          ∀ site, site ≠ Hit.site { h with o := h.o + i } → t.mem.byteAt site = s.mem.byteAt site) ∧
      (h.region.size ≤ h.o + i ∨ 0x10000 ≤ addr.toNat + i →
        hostCall (.writeThrough addr i v) s = .refused .pastStorage ∧
        hostCall (.readThrough addr i) s = .refused .pastStorage)

/-! ## Registers -/

/-- `set(v)` keeps the Register invariant whatever the masks, and bit by bit it is the formula of the rule; `reset()` keeps
it too (10_state.md R30, R31, R33). -/
def Obligations.RegisterSetKeepsMasks : Prop :=
  ∀ (r : Register) (v : Int), (r.set v).ok = true ∧ r.reset.ok = true ∧
    ∀ k, (r.set v).value.testBit k =
      (((decide (k < r.width) && (v % 2 ^ r.width).toNat.testBit k) || r.maskOn.testBit k) &&
        !r.maskOff.testBit k)

/-- Increments and decrements of an unmasked register wrap at its width; the pre forms return the new value and the post
forms the old one (10_state.md R34). -/
def Obligations.RegisterCountsWrapAtWidth : Prop :=
  ∀ (r : Register), r.maskOn = 0 → r.maskOff = 0 → r.value < 2 ^ r.width →
    r.preIncrement = ({ r with value := (r.value + 1) % 2 ^ r.width }, (r.value + 1) % 2 ^ r.width) ∧
    r.postIncrement = ({ r with value := (r.value + 1) % 2 ^ r.width }, r.value) ∧
    r.preDecrement =
      ({ r with value := (r.value + 2 ^ r.width - 1) % 2 ^ r.width }, (r.value + 2 ^ r.width - 1) % 2 ^ r.width) ∧
    r.postDecrement = ({ r with value := (r.value + 2 ^ r.width - 1) % 2 ^ r.width }, r.value)

/-- A host `set` masks as every `set` does: to the register's width, and bit 5 of FLAGS to 0; it changes that register
only (10_state.md R31, R40, R46; 60_exceptions.md R371). -/
def Obligations.HostRegisterSetIsMasked : Prop :=
  ∀ (s : State) (v : Int),
    hostCall (.setRegister ['P', 'C'] v) s = .next (.done, { s with pc := BitVec.ofInt 16 v }) ∧
    hostCall (.setRegister ['S', 'P'] v) s = .next (.done, { s with sp := BitVec.ofInt 8 v }) ∧
    hostCall (.setRegister ['A'] v) s = .next (.done, { s with a := BitVec.ofInt 8 v }) ∧
    hostCall (.setRegister ['X'] v) s = .next (.done, { s with x := BitVec.ofInt 8 v }) ∧
    hostCall (.setRegister ['Y'] v) s = .next (.done, { s with y := BitVec.ofInt 8 v }) ∧
    ∃ p', hostCall (.setRegister ['F', 'L', 'A', 'G', 'S'] v) s = .next (.done, { s with p := p' }) ∧
      p'.getLsbD 5 = false ∧ ∀ k, k ≠ 5 → p'.getLsbD k = (BitVec.ofInt 8 v).getLsbD k

/-- Host access by name: each of the six CPU registers is found by its name, in the order of the set, and an absent name
raises `NotFound` and returns no register. In any register file, adding an absent name appends an entry, and adding a name
that is present fails and leaves the file unchanged (10_state.md R37, R38, R40). -/
def Obligations.RegisterFileFindsTheSixNames : Prop :=
  (∀ (s : State) (cpu : List (Text × Nat)),
    cpu = [(['P', 'C'], s.pc.toNat), (['S', 'P'], s.sp.toNat), (['A'], s.a.toNat), (['X'], s.x.toNat),
      (['Y'], s.y.toNat), (['F', 'L', 'A', 'G', 'S'], s.p.toNat)] →
    hostCall .forEach s = .next (.registers cpu, s) ∧
    (∀ nv ∈ cpu, hostCall (.getRegister nv.1) s = .next (.value nv.2, s)) ∧
    ∀ name, name ∉ cpu.map Prod.fst →
      hostCall (.getRegister name) s = .next (.failed, { s with log := s.log ++ [.notFound name] })) ∧
  ∀ (rf : RegisterFile) (name : Text) (r : Register),
    (name ∉ rf.map Prod.fst → RegisterFile.add rf name r = (.added, rf ++ [(name, r)])) ∧
    (name ∈ rf.map Prod.fst → RegisterFile.add rf name r = (.duplicateName, rf))

/-! ## Operands -/

/-- The effective address of every memory mode, in integers: zero-page sums wrap at 256, absolute sums at 65536, and the
two indirect modes go through the zero-page pointer; forming it changes nothing but the log, which gains the events of the
pointer reads (30_encoding.md R153-R155, R157-R159, R161, R162). -/
def Obligations.EffectiveAddressesFollowTheModes : Prop :=
  ∀ (s : State) (d : Byte) (d16 : Addr),
    (effectiveAddr (.zp d) s).1.toNat = d.toNat ∧
    (effectiveAddr (.zpX d) s).1.toNat = (d.toNat + s.x.toNat) % 256 ∧
    (effectiveAddr (.zpY d) s).1.toNat = (d.toNat + s.y.toNat) % 256 ∧
    (effectiveAddr (.abs d16) s).1 = d16 ∧
    (effectiveAddr (.absX d16) s).1.toNat = (d16.toNat + s.x.toNat) % 65536 ∧
    (effectiveAddr (.absY d16) s).1.toNat = (d16.toNat + s.y.toNat) % 65536 ∧
    (effectiveAddr (.indX d) s).1 = (zpRead16 (BitVec.ofNat 8 ((d.toNat + s.x.toNat) % 256)) s).1 ∧
    (effectiveAddr (.indY d) s).1.toNat = ((zpRead16 d s).1.toNat + s.y.toNat) % 65536 ∧
    ∀ m : MemMode, effectiveAddr m s =
      (eaOf m s, { s with log := s.log ++ s.mem.readEvents (eaReads m s) })

/-- A two-byte read `op` reads its low byte at `lo`, then its high byte at `hi`, each with its own event, and changes
nothing else. -/
def ReadsPair (op : State → Addr × State) (lo hi : Addr) (s : State) : Prop :=
  ∃ v : Addr, v.toNat = (s.mem.peek lo).toNat + 256 * (s.mem.peek hi).toNat ∧
    op s = (v, { s with log := s.log ++ s.mem.readEvents [lo, hi] })

/-- Two-byte reads are little-endian, low byte first. The high byte of `Read16(a)` is at `a + 1` modulo 65536. That of a
zero-page pointer stays in page 0 and that of an absolute pointer stays in its page with POINTER_WRAP = nmos; both are at
the next address with linear (20_memory.md R102, R103, R104). -/
def Obligations.PointerHighBytesFollowTheWrapSetting : Prop :=
  ∀ (s : State) (z : Byte) (addr : Addr),
    ReadsPair (read16 addr) addr (BitVec.ofNat 16 ((addr.toNat + 1) % 65536)) s ∧
    (s.config.pointerWrap = .nmos →
      ReadsPair (zpRead16 z) (BitVec.ofNat 16 z.toNat) (BitVec.ofNat 16 ((z.toNat + 1) % 256)) s ∧
      ReadsPair (indRead16 addr) addr
        (BitVec.ofNat 16 (addr.toNat / 256 * 256 + (addr.toNat + 1) % 256)) s) ∧
    (s.config.pointerWrap = .linear →
      ReadsPair (zpRead16 z) (BitVec.ofNat 16 z.toNat) (BitVec.ofNat 16 (z.toNat + 1)) s ∧
      ReadsPair (indRead16 addr) addr (BitVec.ofNat 16 ((addr.toNat + 1) % 65536)) s)

/-! ## Loads, stores, transfers, stack (40_load_store.md, 41_transfer_stack.md) -/

/-- LDA, LDX, LDY with any operand: the register takes `M`, N and Z show it, and every other register, flag and byte is
unchanged; their encodings (R190, R191, R192, R196). -/
def Obligations.LoadsSetTheirRegisterAndNZ : Prop :=
  (∀ (src : Src) (s : State), ∃ p', KeepsFlags [1, 7] s.p p' ∧ ShowsNZ p' (operandOf src s) ∧
    exec (.lda src) s = .next
      { s with a := operandOf src s, p := p', log := s.log ++ s.mem.readEvents (operandReads src s) } ∧
    exec (.ldx src) s = .next
      { s with x := operandOf src s, p := p', log := s.log ++ s.mem.readEvents (operandReads src s) } ∧
    exec (.ldy src) s = .next
      { s with y := operandOf src s, p := p', log := s.log ++ s.mem.readEvents (operandReads src s) }) ∧
  AccumulatorEncodings .lda 0xA9#8 0xA5#8 0xB5#8 0xAD#8 0xBD#8 0xB9#8 0xA1#8 0xB1#8 ∧
  (TwoBytes 0xA2#8 (fun d => .ldx (.imm d)) ∧ TwoBytes 0xA6#8 (fun d => .ldx (.mem (.zp d))) ∧
    TwoBytes 0xB6#8 (fun d => .ldx (.mem (.zpY d))) ∧ ThreeBytes 0xAE#8 (fun d => .ldx (.mem (.abs d))) ∧
    ThreeBytes 0xBE#8 (fun d => .ldx (.mem (.absY d)))) ∧
  TwoBytes 0xA0#8 (fun d => .ldy (.imm d)) ∧ TwoBytes 0xA4#8 (fun d => .ldy (.mem (.zp d))) ∧
    TwoBytes 0xB4#8 (fun d => .ldy (.mem (.zpX d))) ∧ ThreeBytes 0xAC#8 (fun d => .ldy (.mem (.abs d))) ∧
    ThreeBytes 0xBC#8 (fun d => .ldy (.mem (.absX d)))

/-- STA, STX, STY in any mode: the byte at the effective address takes the register, no other storage byte changes, and no
register or flag changes; the address is not read; their encodings (R193, R194, R195, R196). -/
def Obligations.StoresWriteTheEffectiveAddress : Prop :=
  (∀ (m : MemMode) (s : State), s.mem.wf = true →
    ∃ memA memX memY,
      StoredAt s.mem memA (eaOf m s) s.a ∧ StoredAt s.mem memX (eaOf m s) s.x ∧ StoredAt s.mem memY (eaOf m s) s.y ∧
      exec (.sta m) s = .next
        { s with mem := memA,
                 log := s.log ++ s.mem.readEvents (eaReads m s) ++ s.mem.writeEvents (eaOf m s) } ∧
      exec (.stx m) s = .next
        { s with mem := memX,
                 log := s.log ++ s.mem.readEvents (eaReads m s) ++ s.mem.writeEvents (eaOf m s) } ∧
      exec (.sty m) s = .next
        { s with mem := memY,
                 log := s.log ++ s.mem.readEvents (eaReads m s) ++ s.mem.writeEvents (eaOf m s) }) ∧
  (TwoBytes 0x85#8 (fun d => .sta (.zp d)) ∧ TwoBytes 0x95#8 (fun d => .sta (.zpX d)) ∧
    ThreeBytes 0x8D#8 (fun d => .sta (.abs d)) ∧ ThreeBytes 0x9D#8 (fun d => .sta (.absX d)) ∧
    ThreeBytes 0x99#8 (fun d => .sta (.absY d)) ∧ TwoBytes 0x81#8 (fun d => .sta (.indX d)) ∧
    TwoBytes 0x91#8 (fun d => .sta (.indY d))) ∧
  (TwoBytes 0x86#8 (fun d => .stx (.zp d)) ∧ TwoBytes 0x96#8 (fun d => .stx (.zpY d)) ∧
    ThreeBytes 0x8E#8 (fun d => .stx (.abs d))) ∧
  TwoBytes 0x84#8 (fun d => .sty (.zp d)) ∧ TwoBytes 0x94#8 (fun d => .sty (.zpX d)) ∧
    ThreeBytes 0x8C#8 (fun d => .sty (.abs d))

/-- TAX, TAY, TXA, TYA, TSX copy a register and show it in N and Z; TXS copies X to SP and writes no flag. Nothing else
changes; their encodings (R212-R217). -/
def Obligations.TransfersCopyOneRegister : Prop :=
  (∀ (s : State),
    (∃ p', KeepsFlags [1, 7] s.p p' ∧ ShowsNZ p' s.a ∧
      exec .tax s = .next { s with x := s.a, p := p' } ∧ exec .tay s = .next { s with y := s.a, p := p' }) ∧
    (∃ p', KeepsFlags [1, 7] s.p p' ∧ ShowsNZ p' s.x ∧ exec .txa s = .next { s with a := s.x, p := p' }) ∧
    (∃ p', KeepsFlags [1, 7] s.p p' ∧ ShowsNZ p' s.y ∧ exec .tya s = .next { s with a := s.y, p := p' }) ∧
    (∃ p', KeepsFlags [1, 7] s.p p' ∧ ShowsNZ p' s.sp ∧ exec .tsx s = .next { s with x := s.sp, p := p' }) ∧
    exec .txs s = .next { s with sp := s.x }) ∧
  OneByte 0xAA#8 .tax ∧ OneByte 0xA8#8 .tay ∧ OneByte 0x8A#8 .txa ∧ OneByte 0x98#8 .tya ∧ OneByte 0xBA#8 .tsx ∧
  OneByte 0x9A#8 .txs

/-- A push stores one byte at 0x0100 + SP and decrements SP modulo 256, whether or not the byte is writable. PHA pushes A;
PHP pushes P with bits 4 and 5 set and leaves P as it is; their encodings (R210, R218, R219). -/
def Obligations.PushesStoreAtTheStackByte : Prop :=
  (∀ (s : State) (b : Byte), s.mem.wf = true →
    ∃ mem' sp', StoredAt s.mem mem' (BitVec.ofNat 16 (0x100 + s.sp.toNat)) b ∧ sp'.toNat = (s.sp.toNat + 255) % 256 ∧
      push b s = { s with sp := sp', mem := mem',
                          log := s.log ++ s.mem.writeEvents (BitVec.ofNat 16 (0x100 + s.sp.toNat)) }) ∧
  (∀ (s : State), s.mem.wf = true →
    ∃ memA memP v, StoredAt s.mem memA (BitVec.ofNat 16 (0x100 + s.sp.toNat)) s.a ∧
      StoredAt s.mem memP (BitVec.ofNat 16 (0x100 + s.sp.toNat)) v ∧
      v.getLsbD 4 = true ∧ v.getLsbD 5 = true ∧ (∀ k, k ≠ 4 → k ≠ 5 → v.getLsbD k = s.p.getLsbD k) ∧
      exec .pha s = .next
        { s with sp := s.sp - 1#8, mem := memA,
                 log := s.log ++ s.mem.writeEvents (BitVec.ofNat 16 (0x100 + s.sp.toNat)) } ∧
      exec .php s = .next
        { s with sp := s.sp - 1#8, mem := memP,
                 log := s.log ++ s.mem.writeEvents (BitVec.ofNat 16 (0x100 + s.sp.toNat)) }) ∧
  OneByte 0x48#8 .pha ∧ OneByte 0x08#8 .php

/-- A pop increments SP, modulo 256, and reads the byte at 0x0100 + SP. PLA loads A and shows it in N and Z; PLP loads
every flag from the byte, bit 5 excepted, which reads 0; their encodings (R211, R220, R221). -/
def Obligations.PullsReadTheStackByte : Prop :=
  (∀ (s : State) (addr : Addr), addr = BitVec.ofNat 16 (0x100 + (s.sp.toNat + 1) % 256) →
    (∃ sp', sp'.toNat = (s.sp.toNat + 1) % 256 ∧
      pop s = (s.mem.peek addr, { s with sp := sp', log := s.log ++ s.mem.readEvents [addr] })) ∧
    (∃ p', KeepsFlags [1, 7] s.p p' ∧ ShowsNZ p' (s.mem.peek addr) ∧
      exec .pla s = .next
        { s with a := s.mem.peek addr, sp := s.sp + 1#8, p := p', log := s.log ++ s.mem.readEvents [addr] }) ∧
    (∃ p', p'.getLsbD 5 = false ∧ (∀ k, k ≠ 5 → p'.getLsbD k = (s.mem.peek addr).getLsbD k) ∧
      exec .plp s = .next { s with sp := s.sp + 1#8, p := p', log := s.log ++ s.mem.readEvents [addr] })) ∧
  OneByte 0x68#8 .pla ∧ OneByte 0x28#8 .plp

/-- The push-pop law: SP comes back in every case, and the byte comes back from a writable stack byte; an unmapped one pops
0x00, and a read-only one pops the byte already there (R222). -/
def Obligations.PopAfterPushReturnsTheByte : Prop :=
  ∀ (s : State) (b : Byte), s.mem.wf = true →
    (pop (push b s)).2.sp = s.sp ∧
    (s.mem.storable (stackAddr s.sp) = true → (pop (push b s)).1 = b) ∧
    (s.mem.resolve (stackAddr s.sp) = none → (pop (push b s)).1 = 0x00#8) ∧
    (s.mem.storable (stackAddr s.sp) = false → (pop (push b s)).1 = s.mem.peek (stackAddr s.sp))

/-! ## Arithmetic (42_alu_arith.md) -/

/-- Result and flags of `AddBin(a, m, c)` in integers (R231, R232). -/
def BinarySum (a m : Byte) (c : Bool) (r p' : Byte) : Prop :=
  r.toNat = (a.toNat + m.toNat + c.toNat) % 256 ∧ ShowsNZ p' r ∧
  (flagC p' = true ↔ 256 ≤ a.toNat + m.toNat + c.toNat) ∧
  (flagV p' = true ↔ a.toInt + m.toInt + (c.toNat : Int) < -128 ∨ 127 < a.toInt + m.toInt + (c.toNat : Int))

/-- Result `d` and flags of `SubBin(a, m, c)` in integers (R233). -/
def BinaryDifference (a m : Byte) (c : Bool) (d p' : Byte) : Prop :=
  (d.toNat : Int) = ((a.toNat : Int) - m.toNat - (1 - (c.toNat : Int))) % 256 ∧ ShowsNZ p' d ∧
  (flagC p' = true ↔ 0 ≤ (a.toNat : Int) - m.toNat - (1 - (c.toNat : Int))) ∧
  (flagV p' = true ↔ a.toInt - m.toInt - (1 - (c.toNat : Int)) < -128 ∨
    127 < a.toInt - m.toInt - (1 - (c.toNat : Int)))

/-- The high digit of a byte in its place, read as a signed number: `s8(a & 0xF0)` (R236). -/
def signedHighDigit (a : Byte) : Int := (BitVec.ofNat 8 (a.toNat / 16 * 16)).toInt

/-- Result and flags of `AddDec(a, m, c)`, line by line of the rule: `lo` is the adjusted low sum, `s` the sum before the
high adjust and `s'` after it; Z is that of the binary sum. On valid BCD it is the BCD sum modulo 100 and its carry
(R236). -/
def DecimalSum (a m : Byte) (c : Bool) (r p' : Byte) : Prop :=
  (∃ lo0 lo s s' : Nat,
    lo0 = a.toNat % 16 + m.toNat % 16 + c.toNat ∧ lo = (if 10 ≤ lo0 then (lo0 + 6) % 16 + 16 else lo0) ∧
    s = a.toNat / 16 * 16 + m.toNat / 16 * 16 + lo ∧ s' = (if 160 ≤ s then s + 96 else s) ∧
    flagN p' = decide (128 ≤ s % 256) ∧
    (flagV p' = true ↔ signedHighDigit a + signedHighDigit m + (lo : Int) < -128 ∨
      127 < signedHighDigit a + signedHighDigit m + (lo : Int)) ∧
    r.toNat = s' % 256 ∧ (flagC p' = true ↔ 256 ≤ s')) ∧
  (flagZ p' = true ↔ (a.toNat + m.toNat + c.toNat) % 256 = 0) ∧
  (ValidBcd a → ValidBcd m → ValidBcd r ∧ bcdValue r = (bcdValue a + bcdValue m + c.toNat) % 100 ∧
    (flagC p' = true ↔ 100 ≤ bcdValue a + bcdValue m + c.toNat))

/-- Result and flags of `SubDec(a, m, c)`, line by line of the rule; all four flags are those of the binary difference `d`.
On valid BCD it is the BCD difference modulo 100, and C says that no borrow occurred (R237). -/
def DecimalDifference (a m : Byte) (c : Bool) (r p' : Byte) : Prop :=
  (∃ lo0 lo s : Int,
    lo0 = ((a.toNat % 16 : Nat) : Int) - (m.toNat % 16 : Nat) + c.toNat - 1 ∧
    lo = (if lo0 < 0 then (lo0 - 6) % 16 - 16 else lo0) ∧
    s = ((a.toNat / 16 * 16 : Nat) : Int) - (m.toNat / 16 * 16 : Nat) + lo ∧
    (r.toNat : Int) = (if s < 0 then s - 96 else s) % 256) ∧
  (∃ d, BinaryDifference a m c d p') ∧
  (ValidBcd a → ValidBcd m → ValidBcd r ∧
    (bcdValue r : Int) = ((bcdValue a : Int) - bcdValue m - (1 - (c.toNat : Int))) % 100 ∧
    (flagC p' = true ↔ 0 ≤ (bcdValue a : Int) - bcdValue m - (1 - (c.toNat : Int))))

/-- ADC: A takes the decimal sum when DECIMAL_MODE is nmos and P.D is 1, and the binary sum otherwise; N, V, Z and C are
those of that sum, and nothing else changes; its encodings (R231, R232, R235, R236, R240). -/
def Obligations.AdcAddsInBinaryOrDecimal : Prop :=
  (∀ (src : Src) (s : State), ∃ r p', KeepsFlags [0, 1, 6, 7] s.p p' ∧
    (flagD s.p = false ∨ s.config.decimalMode = .binary → BinarySum s.a (operandOf src s) (flagC s.p) r p') ∧
    (flagD s.p = true → s.config.decimalMode = .nmos → DecimalSum s.a (operandOf src s) (flagC s.p) r p') ∧
    exec (.adc src) s = .next
      { s with a := r, p := p', log := s.log ++ s.mem.readEvents (operandReads src s) }) ∧
  AccumulatorEncodings .adc 0x69#8 0x65#8 0x75#8 0x6D#8 0x7D#8 0x79#8 0x61#8 0x71#8

/-- SBC: A takes the decimal difference when DECIMAL_MODE is nmos and P.D is 1, and the binary difference otherwise; N, V,
Z and C are those of the binary difference, and nothing else changes; its encodings (R233, R235, R237, R241). -/
def Obligations.SbcSubtractsInBinaryOrDecimal : Prop :=
  (∀ (src : Src) (s : State), ∃ r p', KeepsFlags [0, 1, 6, 7] s.p p' ∧
    (flagD s.p = false ∨ s.config.decimalMode = .binary → BinaryDifference s.a (operandOf src s) (flagC s.p) r p') ∧
    (flagD s.p = true → s.config.decimalMode = .nmos → DecimalDifference s.a (operandOf src s) (flagC s.p) r p') ∧
    exec (.sbc src) s = .next
      { s with a := r, p := p', log := s.log ++ s.mem.readEvents (operandReads src s) }) ∧
  AccumulatorEncodings .sbc 0xE9#8 0xE5#8 0xF5#8 0xED#8 0xFD#8 0xF9#8 0xE1#8 0xF1#8

/-- The flags of `Compare(reg, m)`: C unsigned `reg >= m`, Z equality, N bit 7 of the difference (R234). -/
def ComparedFlags (p p' reg m : Byte) : Prop :=
  KeepsFlags [0, 1, 7] p p' ∧ (flagC p' = true ↔ m.toNat ≤ reg.toNat) ∧ (flagZ p' = true ↔ reg = m) ∧
    flagN p' = decide (128 ≤ (reg.toNat + 256 - m.toNat) % 256)

/-- CMP, CPX, CPY write C, Z and N of the comparison with A, X, Y, whatever P.D holds, and no register; their encodings
(R234, R242, R243, R244). -/
def Obligations.ComparesWriteOnlyFlags : Prop :=
  (∀ (src : Src) (s : State),
    (∃ p', ComparedFlags s.p p' s.a (operandOf src s) ∧ exec (.cmp src) s = .next
      { s with p := p', log := s.log ++ s.mem.readEvents (operandReads src s) }) ∧
    (∃ p', ComparedFlags s.p p' s.x (operandOf src s) ∧ exec (.cpx src) s = .next
      { s with p := p', log := s.log ++ s.mem.readEvents (operandReads src s) }) ∧
    (∃ p', ComparedFlags s.p p' s.y (operandOf src s) ∧ exec (.cpy src) s = .next
      { s with p := p', log := s.log ++ s.mem.readEvents (operandReads src s) })) ∧
  AccumulatorEncodings .cmp 0xC9#8 0xC5#8 0xD5#8 0xCD#8 0xDD#8 0xD9#8 0xC1#8 0xD1#8 ∧
  CompareEncodings .cpx 0xE0#8 0xE4#8 0xEC#8 ∧ CompareEncodings .cpy 0xC0#8 0xC4#8 0xCC#8

/-! ## Logic, shifts, increments (43_alu_logic_shift.md) -/

/-- AND, ORA, EOR write the bitwise result to A and show it in N and Z; nothing else changes; their encodings
(R260-R263). -/
def Obligations.LogicWritesAccumulatorAndNZ : Prop :=
  (∀ (src : Src) (s : State),
    (∃ r p', (∀ k, r.getLsbD k = (s.a.getLsbD k && (operandOf src s).getLsbD k)) ∧ KeepsFlags [1, 7] s.p p' ∧
      ShowsNZ p' r ∧ exec (.and src) s = .next
        { s with a := r, p := p', log := s.log ++ s.mem.readEvents (operandReads src s) }) ∧
    (∃ r p', (∀ k, r.getLsbD k = (s.a.getLsbD k || (operandOf src s).getLsbD k)) ∧ KeepsFlags [1, 7] s.p p' ∧
      ShowsNZ p' r ∧ exec (.ora src) s = .next
        { s with a := r, p := p', log := s.log ++ s.mem.readEvents (operandReads src s) }) ∧
    (∃ r p', (∀ k, r.getLsbD k = (s.a.getLsbD k ^^ (operandOf src s).getLsbD k)) ∧ KeepsFlags [1, 7] s.p p' ∧
      ShowsNZ p' r ∧ exec (.eor src) s = .next
        { s with a := r, p := p', log := s.log ++ s.mem.readEvents (operandReads src s) })) ∧
  AccumulatorEncodings .and 0x29#8 0x25#8 0x35#8 0x2D#8 0x3D#8 0x39#8 0x21#8 0x31#8 ∧
  AccumulatorEncodings .ora 0x09#8 0x05#8 0x15#8 0x0D#8 0x1D#8 0x19#8 0x01#8 0x11#8 ∧
  AccumulatorEncodings .eor 0x49#8 0x45#8 0x55#8 0x4D#8 0x5D#8 0x59#8 0x41#8 0x51#8

/-- BIT copies bits 7 and 6 of M to N and V, and Z says that A and M share no bit; no register changes;
its encodings (R264). -/
def Obligations.BitTestsTheOperand : Prop :=
  (∀ (m : MemMode) (s : State), ∃ p', KeepsFlags [1, 6, 7] s.p p' ∧
    flagN p' = (s.mem.peek (eaOf m s)).getLsbD 7 ∧ flagV p' = (s.mem.peek (eaOf m s)).getLsbD 6 ∧
    (flagZ p' = true ↔ ∀ k, (s.a.getLsbD k && (s.mem.peek (eaOf m s)).getLsbD k) = false) ∧
    exec (.bit m) s = .next
      { s with p := p', log := s.log ++ s.mem.readEvents (eaReads m s ++ [eaOf m s]) }) ∧
  TwoBytes 0x24#8 (fun d => .bit (.zp d)) ∧ ThreeBytes 0x2C#8 (fun d => .bit (.abs d))

/-- A shift or rotate `mk` whose result `r` and carry out stand to the value and the carry in as `rel` says: on A, and on
memory, where the one effective address is read once and written once. C takes the carry out, N and Z show `r`, and
nothing else changes. -/
def ShiftsAs (mk : Target → Instr) (rel : (v c r carry : Nat) → Prop) : Prop :=
  (∀ s : State, ∃ r p', rel s.a.toNat (flagC s.p).toNat r.toNat (flagC p').toNat ∧ ShowsNZ p' r ∧
    KeepsFlags [0, 1, 7] s.p p' ∧ exec (mk .acc) s = .next { s with a := r, p := p' }) ∧
  (∀ (m : MemMode) (s : State), s.mem.wf = true → ∃ r p' mem',
    rel (s.mem.peek (eaOf m s)).toNat (flagC s.p).toNat r.toNat (flagC p').toNat ∧ ShowsNZ p' r ∧
    KeepsFlags [0, 1, 7] s.p p' ∧ StoredAt s.mem mem' (eaOf m s) r ∧
    exec (mk (.mem m)) s = .next
      { s with p := p', mem := mem',
               log := s.log ++ s.mem.readEvents (eaReads m s ++ [eaOf m s]) ++ s.mem.writeEvents (eaOf m s) })

/-- ASL, LSR, ROL, ROR (R265-R269, 30_encoding.md R163): ASL doubles, LSR halves, ROL doubles and takes C in at the bottom,
ROR halves and takes C in at the top; the bit shifted out is the carry out. -/
def Obligations.ShiftsMoveOneBitThroughCarry : Prop :=
  ShiftsAs .asl (fun v _ r carry => r + 256 * carry = 2 * v) ∧
  ShiftsAs .lsr (fun v _ r carry => 2 * r + carry = v) ∧
  ShiftsAs .rol (fun v c r carry => r + 256 * carry = 2 * v + c) ∧
  ShiftsAs .ror (fun v c r carry => 2 * r + carry = v + 256 * c) ∧
  ShiftEncodings .asl 0x0A#8 0x06#8 0x16#8 0x0E#8 0x1E#8 ∧ ShiftEncodings .lsr 0x4A#8 0x46#8 0x56#8 0x4E#8 0x5E#8 ∧
  ShiftEncodings .rol 0x2A#8 0x26#8 0x36#8 0x2E#8 0x3E#8 ∧ ShiftEncodings .ror 0x6A#8 0x66#8 0x76#8 0x6E#8 0x7E#8

/-- INC and DEC of memory: the one effective address is read once and written once, modulo 256; N and Z show the result,
and no register and no other flag changes; their encodings (R270, R271, 30_encoding.md R163). -/
def Obligations.MemoryCountsWrapAndShowNZ : Prop :=
  (∀ (m : MemMode) (s : State), s.mem.wf = true →
    (∃ r p' mem', r.toNat = ((s.mem.peek (eaOf m s)).toNat + 1) % 256 ∧ KeepsFlags [1, 7] s.p p' ∧ ShowsNZ p' r ∧
      StoredAt s.mem mem' (eaOf m s) r ∧ exec (.inc m) s = .next
        { s with p := p', mem := mem',
                 log := s.log ++ s.mem.readEvents (eaReads m s ++ [eaOf m s]) ++ s.mem.writeEvents (eaOf m s) }) ∧
    (∃ r p' mem', r.toNat = ((s.mem.peek (eaOf m s)).toNat + 255) % 256 ∧ KeepsFlags [1, 7] s.p p' ∧ ShowsNZ p' r ∧
      StoredAt s.mem mem' (eaOf m s) r ∧ exec (.dec m) s = .next
        { s with p := p', mem := mem',
                 log := s.log ++ s.mem.readEvents (eaReads m s ++ [eaOf m s]) ++ s.mem.writeEvents (eaOf m s) })) ∧
  IncrementEncodings .inc 0xE6#8 0xF6#8 0xEE#8 0xFE#8 ∧ IncrementEncodings .dec 0xC6#8 0xD6#8 0xCE#8 0xDE#8

/-- INX, INY, DEX, DEY count their register modulo 256 and show it in N and Z; nothing else changes; their encodings
(R272-R275). -/
def Obligations.IndexCountsWrapAndShowNZ : Prop :=
  (∀ (s : State),
    (∃ r p', r.toNat = (s.x.toNat + 1) % 256 ∧ KeepsFlags [1, 7] s.p p' ∧ ShowsNZ p' r ∧
      exec .inx s = .next { s with x := r, p := p' }) ∧
    (∃ r p', r.toNat = (s.y.toNat + 1) % 256 ∧ KeepsFlags [1, 7] s.p p' ∧ ShowsNZ p' r ∧
      exec .iny s = .next { s with y := r, p := p' }) ∧
    (∃ r p', r.toNat = (s.x.toNat + 255) % 256 ∧ KeepsFlags [1, 7] s.p p' ∧ ShowsNZ p' r ∧
      exec .dex s = .next { s with x := r, p := p' }) ∧
    (∃ r p', r.toNat = (s.y.toNat + 255) % 256 ∧ KeepsFlags [1, 7] s.p p' ∧ ShowsNZ p' r ∧
      exec .dey s = .next { s with y := r, p := p' })) ∧
  OneByte 0xE8#8 .inx ∧ OneByte 0xC8#8 .iny ∧ OneByte 0xCA#8 .dex ∧ OneByte 0x88#8 .dey

/-! ## Control transfer (44_control.md) -/

/-- Every branch adds its signed offset to PC, modulo 65536, exactly when its condition holds, and changes nothing else;
their encodings (R290-R298). -/
def Obligations.BranchesAddTheOffsetWhenTheyHold : Prop :=
  (∀ (s : State) (rr : Byte) (taken : State),
    taken = { s with pc := BitVec.ofInt 16 ((s.pc.toNat : Int) + rr.toInt) } →
    exec (.bpl rr) s = .next (if flagN s.p = false then taken else s) ∧
    exec (.bmi rr) s = .next (if flagN s.p = true then taken else s) ∧
    exec (.bvc rr) s = .next (if flagV s.p = false then taken else s) ∧
    exec (.bvs rr) s = .next (if flagV s.p = true then taken else s) ∧
    exec (.bcc rr) s = .next (if flagC s.p = false then taken else s) ∧
    exec (.bcs rr) s = .next (if flagC s.p = true then taken else s) ∧
    exec (.bne rr) s = .next (if flagZ s.p = false then taken else s) ∧
    exec (.beq rr) s = .next (if flagZ s.p = true then taken else s)) ∧
  TwoBytes 0x10#8 .bpl ∧ TwoBytes 0x30#8 .bmi ∧ TwoBytes 0x50#8 .bvc ∧ TwoBytes 0x70#8 .bvs ∧
  TwoBytes 0x90#8 .bcc ∧ TwoBytes 0xB0#8 .bcs ∧ TwoBytes 0xD0#8 .bne ∧ TwoBytes 0xF0#8 .beq

/-- JMP goes to its address, or to the address that its pointer holds, whose two bytes it reads low byte first; nothing
else changes; its encodings (R300, 30_encoding.md R160). -/
def Obligations.JumpsGoToTheirTarget : Prop :=
  (∀ (s : State) (d : Addr),
    exec (.jmp (.abs d)) s = .next { s with pc := d } ∧
    ∃ target, target.toNat = (s.mem.peek d).toNat +
        256 * (s.mem.peek (absPointerHigh s.config.pointerWrap d)).toNat ∧
      exec (.jmp (.ind d)) s = .next
        { s with pc := target,
                 log := s.log ++ s.mem.readEvents [d, absPointerHigh s.config.pointerWrap d] }) ∧
  ThreeBytes 0x4C#8 (fun d => .jmp (.abs d)) ∧ ThreeBytes 0x6C#8 (fun d => .jmp (.ind d))

/-- JSR pushes PC - 1, the address of its own last byte, high byte at 0x0100 + SP and low byte below it, and goes to its
target; SP falls by 2, and no other register, flag or storage byte changes; its encoding (R301). -/
def Obligations.JsrPushesTheReturnAddress : Prop :=
  (∀ (s : State) (d hiAddr loAddr : Addr), s.mem.wf = true →
    hiAddr = BitVec.ofNat 16 (0x100 + s.sp.toNat) → loAddr = BitVec.ofNat 16 (0x100 + (s.sp.toNat + 255) % 256) →
    ∃ mem1 mem2,
      StoredAt s.mem mem1 hiAddr (BitVec.ofNat 8 ((s.pc.toNat + 65535) % 65536 / 256)) ∧
      StoredAt mem1 mem2 loAddr (BitVec.ofNat 8 ((s.pc.toNat + 65535) % 65536 % 256)) ∧
      exec (.jsr d) s = .next
        { s with pc := d, sp := s.sp - 2#8, mem := mem2,
                 log := s.log ++ s.mem.writeEvents hiAddr ++ s.mem.writeEvents loAddr }) ∧
  ThreeBytes 0x20#8 .jsr

/-- RTS pops the low byte, then the high byte, adds 1 and goes there; SP rises by 2 and nothing else changes; its
encoding (R302). -/
def Obligations.RtsReturnsPastThePoppedAddress : Prop :=
  (∀ (s : State) (loAddr hiAddr : Addr), loAddr = BitVec.ofNat 16 (0x100 + (s.sp.toNat + 1) % 256) →
    hiAddr = BitVec.ofNat 16 (0x100 + (s.sp.toNat + 2) % 256) →
    exec .rts s = .next
      { s with pc := BitVec.ofNat 16 ((s.mem.peek loAddr).toNat + 256 * (s.mem.peek hiAddr).toNat + 1),
               sp := s.sp + 2#8, log := s.log ++ s.mem.readEvents [loAddr, hiAddr] }) ∧
  OneByte 0x60#8 .rts

/-- The call law, over two steps: a `JSR` whose target holds an `RTS` returns to the byte after the `JSR` with SP as it
was, when its two stack bytes are writable bytes of their own (R301, R302, R303; log 19). -/
def Obligations.CallThenReturnResumesAfterTheCall : Prop :=
  ∀ (s t : State), s.Inv → s.engine = .running → s.mem.peek s.pc = 0x20#8 →
    s.mem.storable (stackAddr s.sp) = true → s.mem.storable (stackAddr (s.sp - 1#8)) = true →
    s.mem.siteOf (stackAddr s.sp) ≠ s.mem.siteOf (stackAddr (s.sp - 1#8)) →
    step s = .next t → t.mem.peek t.pc = 0x60#8 →
    ∃ u, step t = .next u ∧ u.pc = s.pc + 3#16 ∧ u.sp = s.sp ∧ u.a = s.a ∧ u.x = s.x ∧ u.y = s.y ∧ u.p = s.p

/-- BRK, the trap: it pushes PC + 1 (the address of BRK plus 2) high byte first, then P with bits 4 and 5 set, sets I
alone, and goes to the address that 0xFFFE and 0xFFFF then hold; SP falls by 3; its encoding (R311;
60_exceptions.md R352). -/
def Obligations.BrkSavesStateAndTakesTheVector : Prop :=
  (∀ (s : State) (hiAddr loAddr pAddr : Addr), s.mem.wf = true →
    hiAddr = BitVec.ofNat 16 (0x100 + s.sp.toNat) → loAddr = BitVec.ofNat 16 (0x100 + (s.sp.toNat + 255) % 256) →
    pAddr = BitVec.ofNat 16 (0x100 + (s.sp.toNat + 254) % 256) →
    ∃ mem1 mem2 mem3 pushed p',
      StoredAt s.mem mem1 hiAddr (BitVec.ofNat 8 ((s.pc.toNat + 1) % 65536 / 256)) ∧
      StoredAt mem1 mem2 loAddr (BitVec.ofNat 8 ((s.pc.toNat + 1) % 65536 % 256)) ∧
      StoredAt mem2 mem3 pAddr pushed ∧
      pushed.getLsbD 4 = true ∧ pushed.getLsbD 5 = true ∧
      (∀ k, k ≠ 4 → k ≠ 5 → pushed.getLsbD k = s.p.getLsbD k) ∧
      KeepsFlags [2] s.p p' ∧ flagI p' = true ∧
      exec .brk s = .next
        { s with pc := BitVec.ofNat 16 ((mem3.peek 0xFFFE#16).toNat + 256 * (mem3.peek 0xFFFF#16).toNat),
                 sp := s.sp - 3#8, p := p', mem := mem3,
                 log := s.log ++ s.mem.writeEvents hiAddr ++ s.mem.writeEvents loAddr ++ s.mem.writeEvents pAddr ++
                   s.mem.readEvents [0xFFFE#16, 0xFFFF#16] }) ∧
  OneByte 0x00#8 .brk

/-- RTI, the trap return: it pulls P, bit 5 reading 0, then PC low, then PC high with no 1 added; SP rises by 3 and nothing
else changes; its encoding (R310; 60_exceptions.md R353). -/
def Obligations.RtiRestoresStatusAndPC : Prop :=
  (∀ (s : State) (pAddr loAddr hiAddr : Addr), pAddr = BitVec.ofNat 16 (0x100 + (s.sp.toNat + 1) % 256) →
    loAddr = BitVec.ofNat 16 (0x100 + (s.sp.toNat + 2) % 256) →
    hiAddr = BitVec.ofNat 16 (0x100 + (s.sp.toNat + 3) % 256) →
    ∃ p', p'.getLsbD 5 = false ∧ (∀ k, k ≠ 5 → p'.getLsbD k = (s.mem.peek pAddr).getLsbD k) ∧
      exec .rti s = .next
        { s with pc := BitVec.ofNat 16 ((s.mem.peek loAddr).toNat + 256 * (s.mem.peek hiAddr).toNat),
                 sp := s.sp + 3#8, p := p', log := s.log ++ s.mem.readEvents [pAddr, loAddr, hiAddr] }) ∧
  OneByte 0x40#8 .rti

/-- The break law: after a `BRK` step, in any state that has the same SP and reads the same three stack bytes, an `RTI`
step resumes at the address of the `BRK` plus 2 with SP as before it and P as before it but for bit 4, when the three stack
bytes are writable bytes of their own (R310, R311, R312; log 19). -/
def Obligations.ReturnFromBreakResumesPastIt : Prop :=
  ∀ (s t u : State) (a0 a1 a2 : Addr), s.Inv → s.engine = .running → s.mem.peek s.pc = 0x00#8 →
    a0 = stackAddr s.sp → a1 = stackAddr (s.sp - 1#8) → a2 = stackAddr (s.sp - 2#8) →
    s.mem.storable a0 = true → s.mem.storable a1 = true → s.mem.storable a2 = true →
    s.mem.siteOf a0 ≠ s.mem.siteOf a1 → s.mem.siteOf a0 ≠ s.mem.siteOf a2 → s.mem.siteOf a1 ≠ s.mem.siteOf a2 →
    step s = .next t → u.engine = .running → u.sp = t.sp → u.mem.peek u.pc = 0x40#8 →
    u.mem.peek a0 = t.mem.peek a0 → u.mem.peek a1 = t.mem.peek a1 → u.mem.peek a2 = t.mem.peek a2 →
    ∃ w, step u = .next w ∧ w.pc = s.pc + 2#16 ∧ w.sp = s.sp ∧ flagB w.p = true ∧
      ∀ k, k ≠ 4 → w.p.getLsbD k = s.p.getLsbD k

/-! ## Flags, NOP, Unknown (45_flags_misc.md) -/

/-- Each flag instruction writes its one flag and nothing else; their encodings (R320-R326). -/
def Obligations.FlagInstructionsWriteOneFlag : Prop :=
  (∀ (s : State),
    (∃ p', KeepsFlags [0] s.p p' ∧ flagC p' = false ∧ exec .clc s = .next { s with p := p' }) ∧
    (∃ p', KeepsFlags [0] s.p p' ∧ flagC p' = true ∧ exec .sec s = .next { s with p := p' }) ∧
    (∃ p', KeepsFlags [2] s.p p' ∧ flagI p' = false ∧ exec .cli s = .next { s with p := p' }) ∧
    (∃ p', KeepsFlags [2] s.p p' ∧ flagI p' = true ∧ exec .sei s = .next { s with p := p' }) ∧
    (∃ p', KeepsFlags [3] s.p p' ∧ flagD p' = false ∧ exec .cld s = .next { s with p := p' }) ∧
    (∃ p', KeepsFlags [3] s.p p' ∧ flagD p' = true ∧ exec .sed s = .next { s with p := p' }) ∧
    (∃ p', KeepsFlags [6] s.p p' ∧ flagV p' = false ∧ exec .clv s = .next { s with p := p' })) ∧
  OneByte 0x18#8 .clc ∧ OneByte 0x38#8 .sec ∧ OneByte 0x58#8 .cli ∧ OneByte 0x78#8 .sei ∧ OneByte 0xD8#8 .cld ∧
  OneByte 0xF8#8 .sed ∧ OneByte 0xB8#8 .clv

/-- NOP changes nothing beyond its fetch. A step at an Unknown byte consumes that byte alone, logs `UnknownOpcode` with the
byte and its address, and changes no register, flag or memory byte (R327, R328; 60_exceptions.md R345). Of the latch, which
is the model's own (log 7), the step part says nothing. -/
def Obligations.NopAndUnknownOnlyAdvance : Prop :=
  (∀ s : State, exec .nop s = .next s) ∧ OneByte 0xEA#8 .nop ∧
  (∀ (s : State) (op : Byte), exec (.unknown op) s = .next
    { s with log := s.log ++ [.unknownOpcode op (s.pc - 1#16)] }) ∧
  ∀ s : State, s.engine = .running → s.mem.peek s.pc ∈ unknownOpcodes →
    ∃ t, step s = .next t ∧ { t with latch := s.latch } =
      { s with pc := s.pc + 1#16, log := s.log ++ [.unknownOpcode (s.mem.peek s.pc) s.pc] }

/-! ## Memory frame -/

/-- An instruction that stores nothing leaves every byte of memory as it was: every form but the stores, the
read-modify-writes of memory, the pushes, JSR and BRK (10_state.md R54; 20_memory.md R96; 40_load_store.md R196). -/
def Obligations.NonStoringInstructionsLeaveMemory : Prop :=
  ∀ (i : Instr) (s t : State), storesMemory i = false → exec i s = .next t →
    t.mem = s.mem ∧ ∀ addr, t.mem.peek addr = s.mem.peek addr
end

