-- ==== Sys2Proof/Laws/PerInstr.lean ====
section
/-! SUPPORT. Facts about the instruction as syntax, one lemma per constructor. -/

namespace Sys2Proof.Laws.FormsHaveOpcodes

/-- The modes of 30_encoding.md R172 are exactly the forms that the instruction's own rule gives an encoding, and an
instruction is at most three bytes long (R143). -/
def Statement (i : Instr) : Prop := i.wellFormed = i.opcode.isSome ∧ i.length ≤ 3

theorem mode_length (m : MemMode) : m.bytes.length ≤ 2 := by cases m <;> simp [MemMode.bytes, addrBytes]

theorem src_length (src : Src) : src.bytes.length ≤ 2 := by
  cases src with
  | imm d => simp [Src.bytes]
  | mem m => exact mode_length m

theorem target_length (t : Target) : t.bytes.length ≤ 2 := by
  cases t with
  | acc => simp [Target.bytes]
  | mem m => exact mode_length m

theorem length_le {i : Instr} (h : i.operandBytes.length ≤ 2) : i.length ≤ 3 := by
  simp only [Instr.length]
  omega

theorem lda (src : Src) : Statement (.lda src) := by
  refine ⟨?_, length_le (src_length src)⟩
  cases src with
  | imm d => rfl
  | mem m => cases m <;> rfl
theorem ldx (src : Src) : Statement (.ldx src) := by
  refine ⟨?_, length_le (src_length src)⟩
  cases src with
  | imm d => rfl
  | mem m => cases m <;> rfl
theorem ldy (src : Src) : Statement (.ldy src) := by
  refine ⟨?_, length_le (src_length src)⟩
  cases src with
  | imm d => rfl
  | mem m => cases m <;> rfl
theorem sta (m : MemMode) : Statement (.sta m) := ⟨by cases m <;> rfl, length_le (mode_length m)⟩
theorem stx (m : MemMode) : Statement (.stx m) := ⟨by cases m <;> rfl, length_le (mode_length m)⟩
theorem sty (m : MemMode) : Statement (.sty m) := ⟨by cases m <;> rfl, length_le (mode_length m)⟩
theorem tax : Statement .tax := ⟨rfl, by decide⟩
theorem tay : Statement .tay := ⟨rfl, by decide⟩
theorem txa : Statement .txa := ⟨rfl, by decide⟩
theorem tya : Statement .tya := ⟨rfl, by decide⟩
theorem tsx : Statement .tsx := ⟨rfl, by decide⟩
theorem txs : Statement .txs := ⟨rfl, by decide⟩
theorem php : Statement .php := ⟨rfl, by decide⟩
theorem pha : Statement .pha := ⟨rfl, by decide⟩
theorem pla : Statement .pla := ⟨rfl, by decide⟩
theorem plp : Statement .plp := ⟨rfl, by decide⟩
theorem adc (src : Src) : Statement (.adc src) := by
  refine ⟨?_, length_le (src_length src)⟩
  cases src with
  | imm d => rfl
  | mem m => cases m <;> rfl
theorem sbc (src : Src) : Statement (.sbc src) := by
  refine ⟨?_, length_le (src_length src)⟩
  cases src with
  | imm d => rfl
  | mem m => cases m <;> rfl
theorem cmp (src : Src) : Statement (.cmp src) := by
  refine ⟨?_, length_le (src_length src)⟩
  cases src with
  | imm d => rfl
  | mem m => cases m <;> rfl
theorem cpx (src : Src) : Statement (.cpx src) := by
  refine ⟨?_, length_le (src_length src)⟩
  cases src with
  | imm d => rfl
  | mem m => cases m <;> rfl
theorem cpy (src : Src) : Statement (.cpy src) := by
  refine ⟨?_, length_le (src_length src)⟩
  cases src with
  | imm d => rfl
  | mem m => cases m <;> rfl
theorem and (src : Src) : Statement (.and src) := by
  refine ⟨?_, length_le (src_length src)⟩
  cases src with
  | imm d => rfl
  | mem m => cases m <;> rfl
theorem ora (src : Src) : Statement (.ora src) := by
  refine ⟨?_, length_le (src_length src)⟩
  cases src with
  | imm d => rfl
  | mem m => cases m <;> rfl
theorem eor (src : Src) : Statement (.eor src) := by
  refine ⟨?_, length_le (src_length src)⟩
  cases src with
  | imm d => rfl
  | mem m => cases m <;> rfl
theorem bit (m : MemMode) : Statement (.bit m) := ⟨by cases m <;> rfl, length_le (mode_length m)⟩
theorem asl (t : Target) : Statement (.asl t) := by
  refine ⟨?_, length_le (target_length t)⟩
  cases t with
  | acc => rfl
  | mem m => cases m <;> rfl
theorem lsr (t : Target) : Statement (.lsr t) := by
  refine ⟨?_, length_le (target_length t)⟩
  cases t with
  | acc => rfl
  | mem m => cases m <;> rfl
theorem rol (t : Target) : Statement (.rol t) := by
  refine ⟨?_, length_le (target_length t)⟩
  cases t with
  | acc => rfl
  | mem m => cases m <;> rfl
theorem ror (t : Target) : Statement (.ror t) := by
  refine ⟨?_, length_le (target_length t)⟩
  cases t with
  | acc => rfl
  | mem m => cases m <;> rfl
theorem inc (m : MemMode) : Statement (.inc m) := ⟨by cases m <;> rfl, length_le (mode_length m)⟩
theorem dec (m : MemMode) : Statement (.dec m) := ⟨by cases m <;> rfl, length_le (mode_length m)⟩
theorem inx : Statement .inx := ⟨rfl, by decide⟩
theorem iny : Statement .iny := ⟨rfl, by decide⟩
theorem dex : Statement .dex := ⟨rfl, by decide⟩
theorem dey : Statement .dey := ⟨rfl, by decide⟩
theorem bpl (rr : Byte) : Statement (.bpl rr) := ⟨rfl, length_le (by simp [Instr.operandBytes])⟩
theorem bmi (rr : Byte) : Statement (.bmi rr) := ⟨rfl, length_le (by simp [Instr.operandBytes])⟩
theorem bvc (rr : Byte) : Statement (.bvc rr) := ⟨rfl, length_le (by simp [Instr.operandBytes])⟩
theorem bvs (rr : Byte) : Statement (.bvs rr) := ⟨rfl, length_le (by simp [Instr.operandBytes])⟩
theorem bcc (rr : Byte) : Statement (.bcc rr) := ⟨rfl, length_le (by simp [Instr.operandBytes])⟩
theorem bcs (rr : Byte) : Statement (.bcs rr) := ⟨rfl, length_le (by simp [Instr.operandBytes])⟩
theorem bne (rr : Byte) : Statement (.bne rr) := ⟨rfl, length_le (by simp [Instr.operandBytes])⟩
theorem beq (rr : Byte) : Statement (.beq rr) := ⟨rfl, length_le (by simp [Instr.operandBytes])⟩
theorem jmp (j : JumpMode) : Statement (.jmp j) := by
  cases j <;> exact ⟨rfl, length_le (by simp [Instr.operandBytes, addrBytes])⟩
theorem jsr (d : Addr) : Statement (.jsr d) := ⟨rfl, length_le (by simp [Instr.operandBytes, addrBytes])⟩
theorem rts : Statement .rts := ⟨rfl, by decide⟩
theorem rti : Statement .rti := ⟨rfl, by decide⟩
theorem brk : Statement .brk := ⟨rfl, by decide⟩
theorem clc : Statement .clc := ⟨rfl, by decide⟩
theorem sec : Statement .sec := ⟨rfl, by decide⟩
theorem cli : Statement .cli := ⟨rfl, by decide⟩
theorem sei : Statement .sei := ⟨rfl, by decide⟩
theorem cld : Statement .cld := ⟨rfl, by decide⟩
theorem sed : Statement .sed := ⟨rfl, by decide⟩
theorem clv : Statement .clv := ⟨rfl, by decide⟩
theorem nop : Statement .nop := ⟨rfl, by decide⟩
theorem unknown (op : Byte) : Statement (.unknown op) := by
  refine ⟨?_, length_le (by simp [Instr.operandBytes])⟩
  simp only [Instr.wellFormed, Instr.opcode]
  split <;> simp_all

end Sys2Proof.Laws.FormsHaveOpcodes
end

