-- ==== Sys2Proof/Laws/Decode.lean ====
section
/-! SUPPORT. The opcode table entry by entry: what a row's encoding is, and that the table and the encoder agree. -/

namespace Sys2Proof.Laws

@[simp] theorem pair_highByte_lowByte (v : Addr) : Machine.pair (Machine.highByte v) (Machine.lowByte v) = v := by
  apply BitVec.eq_of_toNat_eq
  simp only [Machine.pair, Machine.highByte, Machine.lowByte, BitVec.toNat_append, BitVec.extractLsb'_toNat]
  have h : v.toNat < 65536 := v.isLt
  rw [← Nat.shiftLeft_add_eq_or_of_lt (by omega)]
  simp only [Nat.shiftRight_eq_div_pow, Nat.shiftLeft_eq]
  omega

@[simp] theorem highByte_pair (hi lo : Byte) : Machine.highByte (Machine.pair hi lo) = hi := by
  apply BitVec.eq_of_toNat_eq
  have h1 : hi.toNat < 256 := hi.isLt
  have h2 : lo.toNat < 256 := lo.isLt
  simp only [Machine.pair, Machine.highByte, BitVec.toNat_append, BitVec.extractLsb'_toNat]
  rw [← Nat.shiftLeft_add_eq_or_of_lt (by omega)]
  simp only [Nat.shiftRight_eq_div_pow, Nat.shiftLeft_eq]
  omega

@[simp] theorem lowByte_pair (hi lo : Byte) : Machine.lowByte (Machine.pair hi lo) = lo := by
  apply BitVec.eq_of_toNat_eq
  have h1 : hi.toNat < 256 := hi.isLt
  have h2 : lo.toNat < 256 := lo.isLt
  simp only [Machine.pair, Machine.lowByte, BitVec.toNat_append, BitVec.extractLsb'_toNat]
  rw [← Nat.shiftLeft_add_eq_or_of_lt (by omega)]
  simp only [Nat.shiftRight_eq_div_pow, Nat.shiftLeft_eq]
  omega

/-- The number that a little-endian pair stands for (00_scope.md R8). -/
theorem pair_toNat (hi lo : Byte) : (Machine.pair hi lo).toNat = lo.toNat + 256 * hi.toNat := by
  have h2 : lo.toNat < 256 := lo.isLt
  simp only [Machine.pair, BitVec.toNat_append]
  rw [← Nat.shiftLeft_add_eq_or_of_lt (by omega), Nat.shiftLeft_eq]
  omega

/-- A row is what the encoder says of every instruction that it completes to. -/
def RowAgrees (op : Byte) : Row → Prop
  | .one i => i.wellFormed = true ∧ i.opcode = some op ∧ i.operandBytes = []
  | .two f => ∀ d, (f d).wellFormed = true ∧ (f d).opcode = some op ∧ (f d).operandBytes = [d]
  | .three f => ∀ d, (f d).wellFormed = true ∧ (f d).opcode = some op ∧ (f d).operandBytes = addrBytes d

/-- The pair as a numeral built from its bytes (00_scope.md R8). -/
theorem pair_eq_ofNat (hi lo : Byte) : Machine.pair hi lo = BitVec.ofNat 16 (lo.toNat + 256 * hi.toNat) := by
  apply BitVec.eq_of_toNat_eq
  have := hi.isLt
  have := lo.isLt
  rw [pair_toNat, BitVec.toNat_ofNat, Nat.mod_eq_of_lt (by omega)]

theorem forall_byte {P : Byte → Prop} (h : ∀ n : Fin 256, P (BitVec.ofFin n)) (op : Byte) : P op := h op.toFin

/-- A list of rows agrees with the encoder. -/
def RowsAgree (rows : List (Byte × Row)) : Prop := ∀ e ∈ rows, RowAgrees e.1 e.2

theorem rowsAgree_nil : RowsAgree [] := by simp [RowsAgree]

theorem rowsAgree_one {op : Byte} {i : Instr} {rows : List (Byte × Row)} (h : RowAgrees op (.one i))
    (hs : RowsAgree rows) : RowsAgree ((op, .one i) :: rows) := List.forall_mem_cons.mpr ⟨h, hs⟩

theorem rowsAgree_two {op : Byte} {f : Byte → Instr} {rows : List (Byte × Row)} (h : RowAgrees op (.two f))
    (hs : RowsAgree rows) : RowsAgree ((op, .two f) :: rows) := List.forall_mem_cons.mpr ⟨h, hs⟩

theorem rowsAgree_three {op : Byte} {f : Addr → Instr} {rows : List (Byte × Row)} (h : RowAgrees op (.three f))
    (hs : RowsAgree rows) : RowsAgree ((op, .three f) :: rows) := List.forall_mem_cons.mpr ⟨h, hs⟩

theorem rowsAgree_append {rows rows' : List (Byte × Row)} (h : RowsAgree rows) (h' : RowsAgree rows') :
    RowsAgree (rows ++ rows') := List.forall_mem_append.mpr ⟨h, h'⟩

theorem loadStore_agrees : RowsAgree loadStoreRows := by
  repeat' first
    | exact rowsAgree_nil
    | refine rowsAgree_append ?_ ?_
    | refine rowsAgree_one ⟨rfl, rfl, rfl⟩ ?_
    | refine rowsAgree_two (fun d => ⟨rfl, rfl, rfl⟩) ?_
    | refine rowsAgree_three (fun d => ⟨rfl, rfl, rfl⟩) ?_

theorem transferStack_agrees : RowsAgree transferStackRows := by
  repeat' first
    | exact rowsAgree_nil
    | refine rowsAgree_one ⟨rfl, rfl, rfl⟩ ?_

theorem arith_agrees : RowsAgree arithRows := by
  repeat' first
    | exact rowsAgree_nil
    | refine rowsAgree_append ?_ ?_
    | refine rowsAgree_two (fun d => ⟨rfl, rfl, rfl⟩) ?_
    | refine rowsAgree_three (fun d => ⟨rfl, rfl, rfl⟩) ?_

theorem logic_agrees : RowsAgree logicRows := by
  repeat' first
    | exact rowsAgree_nil
    | refine rowsAgree_append ?_ ?_
    | refine rowsAgree_one ⟨rfl, rfl, rfl⟩ ?_
    | refine rowsAgree_two (fun d => ⟨rfl, rfl, rfl⟩) ?_
    | refine rowsAgree_three (fun d => ⟨rfl, rfl, rfl⟩) ?_

theorem control_agrees : RowsAgree controlRows := by
  repeat' first
    | exact rowsAgree_nil
    | refine rowsAgree_append ?_ ?_
    | refine rowsAgree_one ⟨rfl, rfl, rfl⟩ ?_
    | refine rowsAgree_two (fun d => ⟨rfl, rfl, rfl⟩) ?_
    | refine rowsAgree_three (fun d => ⟨rfl, rfl, rfl⟩) ?_

theorem flag_agrees : RowsAgree flagRows := by
  repeat' first
    | exact rowsAgree_nil
    | refine rowsAgree_one ⟨rfl, rfl, rfl⟩ ?_

/-- Every entry of the table agrees with the encoder (30_encoding.md R170 against the instruction rules' encodings). -/
theorem table_agrees : RowsAgree opcodeTable :=
  rowsAgree_append (rowsAgree_append (rowsAgree_append (rowsAgree_append (rowsAgree_append loadStore_agrees
    transferStack_agrees) arith_agrees) logic_agrees) control_agrees) flag_agrees

theorem findRow_mem {rows : List (Byte × Row)} {op : Byte} {r : Row} (h : findRow rows op = some r) :
    (op, r) ∈ rows := by
  induction rows with
  | nil => simp [findRow] at h
  | cons e rows ih =>
    simp only [findRow] at h
    split at h
    · next hk =>
      cases h
      simp [← hk]
    · exact List.mem_cons_of_mem _ (ih h)

/-- The bytes outside the table are exactly the Unknown list of 30_encoding.md R176. -/
theorem findRow_isNone_iff (op : Byte) : (findRow opcodeTable op).isNone = unknownOpcodes.contains op := by
  revert op
  decide

/-- Every opcode byte's row agrees with the encoder. -/
theorem lookup_agrees (op : Byte) : RowAgrees op (lookup op) := by
  have hu := findRow_isNone_iff op
  simp only [lookup]
  cases h : findRow opcodeTable op with
  | some r => exact table_agrees _ (findRow_mem h)
  | none =>
    rw [h] at hu
    refine ⟨hu.symm, ?_, rfl⟩
    simp only [Instr.opcode]
    rw [← hu]
    rfl

/-- What a row completes to. -/
def RowGives (i : Instr) : Row → Prop
  | .one j => i.operandBytes = [] ∧ j = i
  | .two f => ∃ d, i.operandBytes = [d] ∧ f d = i
  | .three f => ∃ d, i.operandBytes = addrBytes d ∧ f d = i

theorem rowGives_mode {m : MemMode} {k : MemMode → Instr} {zp zpX zpY abs absX absY indX indY : Option Byte} {op : Byte}
    (hop : m.opcode zp zpX zpY abs absX absY indX indY = some op) (hk : ∀ m, (k m).operandBytes = m.bytes)
    (h1 : ∀ o, zp = some o → lookup o = .two fun d => k (.zp d))
    (h2 : ∀ o, zpX = some o → lookup o = .two fun d => k (.zpX d))
    (h3 : ∀ o, zpY = some o → lookup o = .two fun d => k (.zpY d))
    (h4 : ∀ o, abs = some o → lookup o = .three fun d => k (.abs d))
    (h5 : ∀ o, absX = some o → lookup o = .three fun d => k (.absX d))
    (h6 : ∀ o, absY = some o → lookup o = .three fun d => k (.absY d))
    (h7 : ∀ o, indX = some o → lookup o = .two fun d => k (.indX d))
    (h8 : ∀ o, indY = some o → lookup o = .two fun d => k (.indY d)) : RowGives (k m) (lookup op) := by
  cases m with
  | zp d => rw [h1 op hop]; exact ⟨d, hk _, rfl⟩
  | zpX d => rw [h2 op hop]; exact ⟨d, hk _, rfl⟩
  | zpY d => rw [h3 op hop]; exact ⟨d, hk _, rfl⟩
  | abs d => rw [h4 op hop]; exact ⟨d, hk _, rfl⟩
  | absX d => rw [h5 op hop]; exact ⟨d, hk _, rfl⟩
  | absY d => rw [h6 op hop]; exact ⟨d, hk _, rfl⟩
  | indX d => rw [h7 op hop]; exact ⟨d, hk _, rfl⟩
  | indY d => rw [h8 op hop]; exact ⟨d, hk _, rfl⟩

end Sys2Proof.Laws
end

