-- ==== Sys2Proof/Laws/State.lean ====
section
/-! SUPPORT. One lemma per field of State per update, each true by unfolding the update. -/

namespace Sys2Proof.Machine

@[simp] theorem State.setPC_pc (s : State) (v : Addr) : (s.setPC v).pc = v := rfl
@[simp] theorem State.setPC_sp (s : State) (v : Addr) : (s.setPC v).sp = s.sp := rfl
@[simp] theorem State.setPC_a (s : State) (v : Addr) : (s.setPC v).a = s.a := rfl
@[simp] theorem State.setPC_x (s : State) (v : Addr) : (s.setPC v).x = s.x := rfl
@[simp] theorem State.setPC_y (s : State) (v : Addr) : (s.setPC v).y = s.y := rfl
@[simp] theorem State.setPC_p (s : State) (v : Addr) : (s.setPC v).p = s.p := rfl
@[simp] theorem State.setPC_engine (s : State) (v : Addr) : (s.setPC v).engine = s.engine := rfl
@[simp] theorem State.setPC_mem (s : State) (v : Addr) : (s.setPC v).mem = s.mem := rfl
@[simp] theorem State.setPC_log (s : State) (v : Addr) : (s.setPC v).log = s.log := rfl
@[simp] theorem State.setPC_latch (s : State) (v : Addr) : (s.setPC v).latch = s.latch := rfl
@[simp] theorem State.setPC_config (s : State) (v : Addr) : (s.setPC v).config = s.config := rfl

@[simp] theorem State.setSP_pc (s : State) (v : Byte) : (s.setSP v).pc = s.pc := rfl
@[simp] theorem State.setSP_sp (s : State) (v : Byte) : (s.setSP v).sp = v := rfl
@[simp] theorem State.setSP_a (s : State) (v : Byte) : (s.setSP v).a = s.a := rfl
@[simp] theorem State.setSP_x (s : State) (v : Byte) : (s.setSP v).x = s.x := rfl
@[simp] theorem State.setSP_y (s : State) (v : Byte) : (s.setSP v).y = s.y := rfl
@[simp] theorem State.setSP_p (s : State) (v : Byte) : (s.setSP v).p = s.p := rfl
@[simp] theorem State.setSP_engine (s : State) (v : Byte) : (s.setSP v).engine = s.engine := rfl
@[simp] theorem State.setSP_mem (s : State) (v : Byte) : (s.setSP v).mem = s.mem := rfl
@[simp] theorem State.setSP_log (s : State) (v : Byte) : (s.setSP v).log = s.log := rfl
@[simp] theorem State.setSP_latch (s : State) (v : Byte) : (s.setSP v).latch = s.latch := rfl
@[simp] theorem State.setSP_config (s : State) (v : Byte) : (s.setSP v).config = s.config := rfl

@[simp] theorem State.setA_pc (s : State) (v : Byte) : (s.setA v).pc = s.pc := rfl
@[simp] theorem State.setA_sp (s : State) (v : Byte) : (s.setA v).sp = s.sp := rfl
@[simp] theorem State.setA_a (s : State) (v : Byte) : (s.setA v).a = v := rfl
@[simp] theorem State.setA_x (s : State) (v : Byte) : (s.setA v).x = s.x := rfl
@[simp] theorem State.setA_y (s : State) (v : Byte) : (s.setA v).y = s.y := rfl
@[simp] theorem State.setA_p (s : State) (v : Byte) : (s.setA v).p = s.p := rfl
@[simp] theorem State.setA_engine (s : State) (v : Byte) : (s.setA v).engine = s.engine := rfl
@[simp] theorem State.setA_mem (s : State) (v : Byte) : (s.setA v).mem = s.mem := rfl
@[simp] theorem State.setA_log (s : State) (v : Byte) : (s.setA v).log = s.log := rfl
@[simp] theorem State.setA_latch (s : State) (v : Byte) : (s.setA v).latch = s.latch := rfl
@[simp] theorem State.setA_config (s : State) (v : Byte) : (s.setA v).config = s.config := rfl

@[simp] theorem State.setX_pc (s : State) (v : Byte) : (s.setX v).pc = s.pc := rfl
@[simp] theorem State.setX_sp (s : State) (v : Byte) : (s.setX v).sp = s.sp := rfl
@[simp] theorem State.setX_a (s : State) (v : Byte) : (s.setX v).a = s.a := rfl
@[simp] theorem State.setX_x (s : State) (v : Byte) : (s.setX v).x = v := rfl
@[simp] theorem State.setX_y (s : State) (v : Byte) : (s.setX v).y = s.y := rfl
@[simp] theorem State.setX_p (s : State) (v : Byte) : (s.setX v).p = s.p := rfl
@[simp] theorem State.setX_engine (s : State) (v : Byte) : (s.setX v).engine = s.engine := rfl
@[simp] theorem State.setX_mem (s : State) (v : Byte) : (s.setX v).mem = s.mem := rfl
@[simp] theorem State.setX_log (s : State) (v : Byte) : (s.setX v).log = s.log := rfl
@[simp] theorem State.setX_latch (s : State) (v : Byte) : (s.setX v).latch = s.latch := rfl
@[simp] theorem State.setX_config (s : State) (v : Byte) : (s.setX v).config = s.config := rfl

@[simp] theorem State.setY_pc (s : State) (v : Byte) : (s.setY v).pc = s.pc := rfl
@[simp] theorem State.setY_sp (s : State) (v : Byte) : (s.setY v).sp = s.sp := rfl
@[simp] theorem State.setY_a (s : State) (v : Byte) : (s.setY v).a = s.a := rfl
@[simp] theorem State.setY_x (s : State) (v : Byte) : (s.setY v).x = s.x := rfl
@[simp] theorem State.setY_y (s : State) (v : Byte) : (s.setY v).y = v := rfl
@[simp] theorem State.setY_p (s : State) (v : Byte) : (s.setY v).p = s.p := rfl
@[simp] theorem State.setY_engine (s : State) (v : Byte) : (s.setY v).engine = s.engine := rfl
@[simp] theorem State.setY_mem (s : State) (v : Byte) : (s.setY v).mem = s.mem := rfl
@[simp] theorem State.setY_log (s : State) (v : Byte) : (s.setY v).log = s.log := rfl
@[simp] theorem State.setY_latch (s : State) (v : Byte) : (s.setY v).latch = s.latch := rfl
@[simp] theorem State.setY_config (s : State) (v : Byte) : (s.setY v).config = s.config := rfl

@[simp] theorem State.setP_pc (s : State) (v : Byte) : (s.setP v).pc = s.pc := rfl
@[simp] theorem State.setP_sp (s : State) (v : Byte) : (s.setP v).sp = s.sp := rfl
@[simp] theorem State.setP_a (s : State) (v : Byte) : (s.setP v).a = s.a := rfl
@[simp] theorem State.setP_x (s : State) (v : Byte) : (s.setP v).x = s.x := rfl
@[simp] theorem State.setP_y (s : State) (v : Byte) : (s.setP v).y = s.y := rfl
@[simp] theorem State.setP_p (s : State) (v : Byte) : (s.setP v).p = maskP v := rfl
@[simp] theorem State.setP_engine (s : State) (v : Byte) : (s.setP v).engine = s.engine := rfl
@[simp] theorem State.setP_mem (s : State) (v : Byte) : (s.setP v).mem = s.mem := rfl
@[simp] theorem State.setP_log (s : State) (v : Byte) : (s.setP v).log = s.log := rfl
@[simp] theorem State.setP_latch (s : State) (v : Byte) : (s.setP v).latch = s.latch := rfl
@[simp] theorem State.setP_config (s : State) (v : Byte) : (s.setP v).config = s.config := rfl

@[simp] theorem State.setNZ_pc (s : State) (v : Byte) : (s.setNZ v).pc = s.pc := rfl
@[simp] theorem State.setNZ_sp (s : State) (v : Byte) : (s.setNZ v).sp = s.sp := rfl
@[simp] theorem State.setNZ_a (s : State) (v : Byte) : (s.setNZ v).a = s.a := rfl
@[simp] theorem State.setNZ_x (s : State) (v : Byte) : (s.setNZ v).x = s.x := rfl
@[simp] theorem State.setNZ_y (s : State) (v : Byte) : (s.setNZ v).y = s.y := rfl
@[simp] theorem State.setNZ_p (s : State) (v : Byte) : (s.setNZ v).p = maskP (putNZ s.p v) := rfl
@[simp] theorem State.setNZ_engine (s : State) (v : Byte) : (s.setNZ v).engine = s.engine := rfl
@[simp] theorem State.setNZ_mem (s : State) (v : Byte) : (s.setNZ v).mem = s.mem := rfl
@[simp] theorem State.setNZ_log (s : State) (v : Byte) : (s.setNZ v).log = s.log := rfl
@[simp] theorem State.setNZ_latch (s : State) (v : Byte) : (s.setNZ v).latch = s.latch := rfl
@[simp] theorem State.setNZ_config (s : State) (v : Byte) : (s.setNZ v).config = s.config := rfl

@[simp] theorem State.setEngine_pc (s : State) (v : EngineState) : (s.setEngine v).pc = s.pc := rfl
@[simp] theorem State.setEngine_sp (s : State) (v : EngineState) : (s.setEngine v).sp = s.sp := rfl
@[simp] theorem State.setEngine_a (s : State) (v : EngineState) : (s.setEngine v).a = s.a := rfl
@[simp] theorem State.setEngine_x (s : State) (v : EngineState) : (s.setEngine v).x = s.x := rfl
@[simp] theorem State.setEngine_y (s : State) (v : EngineState) : (s.setEngine v).y = s.y := rfl
@[simp] theorem State.setEngine_p (s : State) (v : EngineState) : (s.setEngine v).p = s.p := rfl
@[simp] theorem State.setEngine_engine (s : State) (v : EngineState) : (s.setEngine v).engine = v := rfl
@[simp] theorem State.setEngine_mem (s : State) (v : EngineState) : (s.setEngine v).mem = s.mem := rfl
@[simp] theorem State.setEngine_log (s : State) (v : EngineState) : (s.setEngine v).log = s.log := rfl
@[simp] theorem State.setEngine_latch (s : State) (v : EngineState) : (s.setEngine v).latch = s.latch := rfl
@[simp] theorem State.setEngine_config (s : State) (v : EngineState) : (s.setEngine v).config = s.config := rfl

@[simp] theorem State.setMem_pc (s : State) (v : Memory) : (s.setMem v).pc = s.pc := rfl
@[simp] theorem State.setMem_sp (s : State) (v : Memory) : (s.setMem v).sp = s.sp := rfl
@[simp] theorem State.setMem_a (s : State) (v : Memory) : (s.setMem v).a = s.a := rfl
@[simp] theorem State.setMem_x (s : State) (v : Memory) : (s.setMem v).x = s.x := rfl
@[simp] theorem State.setMem_y (s : State) (v : Memory) : (s.setMem v).y = s.y := rfl
@[simp] theorem State.setMem_p (s : State) (v : Memory) : (s.setMem v).p = s.p := rfl
@[simp] theorem State.setMem_engine (s : State) (v : Memory) : (s.setMem v).engine = s.engine := rfl
@[simp] theorem State.setMem_mem (s : State) (v : Memory) : (s.setMem v).mem = v := rfl
@[simp] theorem State.setMem_log (s : State) (v : Memory) : (s.setMem v).log = s.log := rfl
@[simp] theorem State.setMem_latch (s : State) (v : Memory) : (s.setMem v).latch = s.latch := rfl
@[simp] theorem State.setMem_config (s : State) (v : Memory) : (s.setMem v).config = s.config := rfl

@[simp] theorem State.setLatch_pc (s : State) (v : DecodedInstr) : (s.setLatch v).pc = s.pc := rfl
@[simp] theorem State.setLatch_sp (s : State) (v : DecodedInstr) : (s.setLatch v).sp = s.sp := rfl
@[simp] theorem State.setLatch_a (s : State) (v : DecodedInstr) : (s.setLatch v).a = s.a := rfl
@[simp] theorem State.setLatch_x (s : State) (v : DecodedInstr) : (s.setLatch v).x = s.x := rfl
@[simp] theorem State.setLatch_y (s : State) (v : DecodedInstr) : (s.setLatch v).y = s.y := rfl
@[simp] theorem State.setLatch_p (s : State) (v : DecodedInstr) : (s.setLatch v).p = s.p := rfl
@[simp] theorem State.setLatch_engine (s : State) (v : DecodedInstr) : (s.setLatch v).engine = s.engine := rfl
@[simp] theorem State.setLatch_mem (s : State) (v : DecodedInstr) : (s.setLatch v).mem = s.mem := rfl
@[simp] theorem State.setLatch_log (s : State) (v : DecodedInstr) : (s.setLatch v).log = s.log := rfl
@[simp] theorem State.setLatch_latch (s : State) (v : DecodedInstr) : (s.setLatch v).latch = some v := rfl
@[simp] theorem State.setLatch_config (s : State) (v : DecodedInstr) : (s.setLatch v).config = s.config := rfl

@[simp] theorem State.raise_pc (s : State) (e : Event) : (s.raise e).pc = s.pc := rfl
@[simp] theorem State.raise_sp (s : State) (e : Event) : (s.raise e).sp = s.sp := rfl
@[simp] theorem State.raise_a (s : State) (e : Event) : (s.raise e).a = s.a := rfl
@[simp] theorem State.raise_x (s : State) (e : Event) : (s.raise e).x = s.x := rfl
@[simp] theorem State.raise_y (s : State) (e : Event) : (s.raise e).y = s.y := rfl
@[simp] theorem State.raise_p (s : State) (e : Event) : (s.raise e).p = s.p := rfl
@[simp] theorem State.raise_engine (s : State) (e : Event) : (s.raise e).engine = s.engine := rfl
@[simp] theorem State.raise_mem (s : State) (e : Event) : (s.raise e).mem = s.mem := rfl
@[simp] theorem State.raise_log (s : State) (e : Event) : (s.raise e).log = s.log ++ [e] := rfl
@[simp] theorem State.raise_latch (s : State) (e : Event) : (s.raise e).latch = s.latch := rfl
@[simp] theorem State.raise_config (s : State) (e : Event) : (s.raise e).config = s.config := rfl

@[simp] theorem State.logged_pc (s : State) (es : List Event) : (s.logged es).pc = s.pc := rfl
@[simp] theorem State.logged_sp (s : State) (es : List Event) : (s.logged es).sp = s.sp := rfl
@[simp] theorem State.logged_a (s : State) (es : List Event) : (s.logged es).a = s.a := rfl
@[simp] theorem State.logged_x (s : State) (es : List Event) : (s.logged es).x = s.x := rfl
@[simp] theorem State.logged_y (s : State) (es : List Event) : (s.logged es).y = s.y := rfl
@[simp] theorem State.logged_p (s : State) (es : List Event) : (s.logged es).p = s.p := rfl
@[simp] theorem State.logged_engine (s : State) (es : List Event) : (s.logged es).engine = s.engine := rfl
@[simp] theorem State.logged_mem (s : State) (es : List Event) : (s.logged es).mem = s.mem := rfl
@[simp] theorem State.logged_log (s : State) (es : List Event) : (s.logged es).log = s.log ++ es := rfl
@[simp] theorem State.logged_latch (s : State) (es : List Event) : (s.logged es).latch = s.latch := rfl
@[simp] theorem State.logged_config (s : State) (es : List Event) : (s.logged es).config = s.config := rfl

@[simp] theorem State.logged_nil (s : State) : s.logged [] = s := by simp [State.logged]

@[simp] theorem State.logged_logged (s : State) (es fs : List Event) :
    (s.logged es).logged fs = s.logged (es ++ fs) := by simp [State.logged]

theorem State.raise_eq_logged (s : State) (e : Event) : s.raise e = s.logged [e] := rfl

@[simp] theorem State.setMem_self (s : State) : s.setMem s.mem = s := rfl

end Sys2Proof.Machine
end

