-- ==== Sys2Proof/Laws/Flags.lean ====
section
/-! SUPPORT. The flag writes bit by bit, and what each flag computation of the ALU leaves in FLAGS. -/

namespace Sys2Proof.Machine

theorem getLsbD_past (v : Byte) {j : Nat} (hj : ¬j < 8) : v.getLsbD j = false :=
  BitVec.getLsbD_of_ge v j (Nat.le_of_not_lt hj)

theorem getLsbD_bit (k j : Nat) (hk : k < 8) : (1#8 <<< k).getLsbD j = decide (j = k) := by
  simp only [BitVec.getLsbD_shiftLeft, BitVec.getLsbD_one]
  by_cases hlt : j < k
  · have : j ≠ k := by omega
    simp [hlt, this]
  · by_cases hjk : j = k
    · subst hjk
      simp [hk]
    · have : j - k ≠ 0 := by omega
      simp [this, hjk]

theorem getLsbD_withBit (v : Byte) (k : Nat) (b : Bool) (j : Nat) (hk : k < 8) :
    (withBit v k b).getLsbD j = if j = k then b else v.getLsbD j := by
  by_cases hj : j < 8
  · have hbit := getLsbD_bit k j hk
    cases b <;> simp only [withBit, if_true, if_false, Bool.false_eq_true, BitVec.getLsbD_or, BitVec.getLsbD_and,
        BitVec.getLsbD_not, hbit, hj, decide_true] <;>
      by_cases hjk : j = k <;> simp [-BitVec.getLsbD_eq_getElem, hjk]
  · have hjk : j ≠ k := by omega
    rw [getLsbD_past _ hj, if_neg hjk, getLsbD_past _ hj]

theorem getLsbD_maskP (v : Byte) (j : Nat) : (maskP v).getLsbD j = if j = 5 then false else v.getLsbD j := by
  by_cases hj : j < 8
  · have : (0xDF#8).getLsbD j = decide (j ≠ 5) := by
      revert hj j
      decide
    rw [maskP, BitVec.getLsbD_and, this]
    by_cases h : j = 5 <;> simp [h]
  · have h5 : j ≠ 5 := by omega
    rw [getLsbD_past _ hj, if_neg h5, getLsbD_past _ hj]

theorem getLsbD_pushedP (p : Byte) (j : Nat) :
    (pushedP p).getLsbD j = if j = 4 ∨ j = 5 then true else p.getLsbD j := by
  by_cases hj : j < 8
  · have : (0x30#8).getLsbD j = decide (j = 4 ∨ j = 5) := by
      revert hj j
      decide
    rw [pushedP, BitVec.getLsbD_or, this]
    by_cases h : j = 4 ∨ j = 5 <;> simp [h]
  · have h4 : ¬(j = 4 ∨ j = 5) := by omega
    rw [getLsbD_past _ hj, if_neg h4, getLsbD_past _ hj]

/-- Bit 5 of FLAGS reads 0 after every write (10_state.md R46). -/
@[simp] theorem maskP_bit5 (v : Byte) : (maskP v).getLsbD 5 = false := by rw [getLsbD_maskP]; rfl

theorem maskP_of_bit5 {v : Byte} (h : v.getLsbD 5 = false) : maskP v = v := by
  apply BitVec.eq_of_getLsbD_eq
  intro j _
  rw [getLsbD_maskP]
  split <;> simp_all

theorem maskP_maskP (v : Byte) : maskP (maskP v) = maskP v := maskP_of_bit5 (maskP_bit5 v)

/-- A flag write keeps the flags that it does not name. -/
theorem keepsFlags_mask {written : List Nat} {p q : Byte}
    (h : ∀ k, k < 8 → k ≠ 5 → k ∉ written → q.getLsbD k = p.getLsbD k) : KeepsFlags written p (maskP q) :=
  ⟨maskP_bit5 q, fun k hk h5 hw => by rw [getLsbD_maskP, if_neg h5, h k hk h5 hw]⟩

theorem beq_zero_iff (v : Byte) : ((v == 0#8) = true) ↔ v = 0#8 := by simp

theorem msb_eq_bit7 (v : Byte) : v.msb = v.getLsbD 7 := rfl

/-- `SetNZ` on FLAGS (00_scope.md R13). -/
theorem keepsFlags_putNZ (p v : Byte) : KeepsFlags [1, 7] p (maskP (putNZ p v)) := by
  apply keepsFlags_mask
  intro k _ _ hw
  simp only [List.mem_cons, List.not_mem_nil, or_false, not_or] at hw
  simp [putNZ, putZ, putN, getLsbD_withBit, hw]

theorem showsNZ_putNZ (p v : Byte) : ShowsNZ (maskP (putNZ p v)) v := by
  simp [-BitVec.getLsbD_eq_getElem, ShowsNZ, flagN, flagZ, getLsbD_maskP, putNZ, putZ, putN, getLsbD_withBit, msb_eq_bit7]

/-- The flags of a sum in FLAGS (42_alu_arith.md R231). -/
theorem keepsFlags_putSum (p : Byte) (o : Sum) : KeepsFlags [0, 1, 6, 7] p (maskP (putSum p o)) := by
  apply keepsFlags_mask
  intro k _ _ hw
  simp only [List.mem_cons, List.not_mem_nil, or_false, not_or] at hw
  simp [putSum, putC, putV, putZ, putN, getLsbD_withBit, hw]

theorem flagN_putSum (p : Byte) (o : Sum) : flagN (maskP (putSum p o)) = o.n := by
  simp [-BitVec.getLsbD_eq_getElem, flagN, getLsbD_maskP, putSum, putC, putV, putZ, putN, getLsbD_withBit]

theorem flagV_putSum (p : Byte) (o : Sum) : flagV (maskP (putSum p o)) = o.v := by
  simp [-BitVec.getLsbD_eq_getElem, flagV, getLsbD_maskP, putSum, putC, putV, putZ, putN, getLsbD_withBit]

theorem flagZ_putSum (p : Byte) (o : Sum) : flagZ (maskP (putSum p o)) = o.z := by
  simp [-BitVec.getLsbD_eq_getElem, flagZ, getLsbD_maskP, putSum, putC, putV, putZ, putN, getLsbD_withBit]

theorem flagC_putSum (p : Byte) (o : Sum) : flagC (maskP (putSum p o)) = o.c := by
  simp [-BitVec.getLsbD_eq_getElem, flagC, getLsbD_maskP, putSum, putC, putV, putZ, putN, getLsbD_withBit]

/-- The flags of a shift in FLAGS (43_alu_logic_shift.md R265). -/
theorem keepsFlags_putShift (p r : Byte) (c : Bool) : KeepsFlags [0, 1, 7] p (maskP (putShift p r c)) := by
  apply keepsFlags_mask
  intro k _ _ hw
  simp only [List.mem_cons, List.not_mem_nil, or_false, not_or] at hw
  simp [putShift, putNZ, putC, putZ, putN, getLsbD_withBit, hw]

theorem showsNZ_putShift (p r : Byte) (c : Bool) : ShowsNZ (maskP (putShift p r c)) r := showsNZ_putNZ (putC p c) r

theorem flagC_putShift (p r : Byte) (c : Bool) : flagC (maskP (putShift p r c)) = c := by
  simp [-BitVec.getLsbD_eq_getElem, flagC, getLsbD_maskP, putShift, putNZ, putC, putZ, putN, getLsbD_withBit]

end Sys2Proof.Machine
end

