-- ==== Sys2Proof/Laws/Memory.lean ====
section
/-! SUPPORT. The laws of storage cells, resolution, reads and writes, and that every memory operation keeps the canonical
form. -/

namespace Sys2Proof.Machine

/-! ## Cells -/

@[simp] theorem Cells.get_nil (i : Nat) : Cells.get [] i = unlistedByte := rfl

@[simp] theorem Cells.get_cons (c : Host.Cell) (cs : Cells) (i : Nat) :
    Cells.get (c :: cs) i = if c.1 = i then c.2 else Cells.get cs i := rfl

theorem Cells.erase_cons (c : Host.Cell) (cs : Cells) (i : Nat) :
    Cells.erase (c :: cs) i = if c.1 = i then Cells.erase cs i else c :: Cells.erase cs i := by
  by_cases h : c.1 = i <;> simp [Cells.erase, h]

theorem Cells.get_erase (cs : Cells) (i j : Nat) :
    Cells.get (Cells.erase cs i) j = if i = j then unlistedByte else Cells.get cs j := by
  induction cs with
  | nil => simp [Cells.erase]
  | cons c cs ih =>
    rw [Cells.erase_cons]
    by_cases hc : c.1 = i <;> by_cases hj : c.1 = j <;> by_cases hij : i = j <;> simp_all

theorem Cells.get_insert {cs : Cells} {i : Nat} (v : Byte) (j : Nat) (hi : ∀ c ∈ cs, c.1 ≠ i) :
    Cells.get (Cells.insert cs i v) j = if i = j then v else Cells.get cs j := by
  induction cs with
  | nil => simp [Cells.insert]
  | cons c cs ih =>
    have hc := hi c (by simp)
    have ih := ih fun d hd => hi d (by simp [hd])
    simp only [Cells.insert]
    by_cases hj : c.1 = j <;> by_cases hij : i = j <;> split <;> simp_all

theorem Cells.erase_ne (cs : Cells) (i : Nat) : ∀ c ∈ Cells.erase cs i, c.1 ≠ i := by simp [Cells.erase]

theorem Cells.get_put (cs : Cells) (i : Nat) (v : Byte) (j : Nat) :
    Cells.get (Cells.put cs i v) j = if i = j then v else Cells.get cs j := by
  unfold Cells.put
  split
  · simp_all [Cells.get_erase]
  · rw [Cells.get_insert v j (Cells.erase_ne cs i), Cells.get_erase]
    split <;> simp_all

theorem Cells.canonicalFrom_mono {lo lo' n : Nat} {cs : Cells} (hlo : lo ≤ lo')
    (h : Cells.canonicalFrom lo' n cs = true) : Cells.canonicalFrom lo n cs = true := by
  cases cs with
  | nil => rfl
  | cons c cs =>
    simp only [Cells.canonicalFrom, Bool.and_eq_true, decide_eq_true_eq] at h ⊢
    exact ⟨⟨⟨by omega, h.1.1.2⟩, h.1.2⟩, h.2⟩

theorem Cells.canonicalFrom_erase {lo n : Nat} {cs : Cells} (i : Nat) (h : Cells.canonicalFrom lo n cs = true) :
    Cells.canonicalFrom lo n (Cells.erase cs i) = true := by
  induction cs generalizing lo with
  | nil => rfl
  | cons c cs ih =>
    simp only [Cells.canonicalFrom, Bool.and_eq_true, decide_eq_true_eq] at h
    rw [Cells.erase_cons]
    split
    · exact Cells.canonicalFrom_mono (by omega) (ih h.2)
    · simp only [Cells.canonicalFrom, Bool.and_eq_true, decide_eq_true_eq]
      exact ⟨h.1, ih h.2⟩

theorem Cells.canonicalFrom_insert {lo n i : Nat} {cs : Cells} {v : Byte} (h : Cells.canonicalFrom lo n cs = true)
    (hi : ∀ c ∈ cs, c.1 ≠ i) (hlo : lo ≤ i) (hn : i < n) (hv : v ≠ unlistedByte) :
    Cells.canonicalFrom lo n (Cells.insert cs i v) = true := by
  induction cs generalizing lo with
  | nil => simp [Cells.insert, Cells.canonicalFrom, *]
  | cons c cs ih =>
    have hc := hi c (by simp)
    simp only [Cells.canonicalFrom, Bool.and_eq_true, decide_eq_true_eq] at h
    simp only [Cells.insert]
    split
    · simp only [Cells.canonicalFrom, Bool.and_eq_true, decide_eq_true_eq]
      exact ⟨⟨⟨hlo, hn⟩, hv⟩, ⟨⟨by omega, h.1.1.2⟩, h.1.2⟩, h.2⟩
    · simp only [Cells.canonicalFrom, Bool.and_eq_true, decide_eq_true_eq]
      exact ⟨h.1, ih h.2 (fun d hd => hi d (by simp [hd])) (by omega)⟩

/-- A write keeps the canonical form of `n` bytes. -/
theorem Cells.canonical_put {n i : Nat} {cs : Cells} (v : Byte) (h : Cells.canonical n cs = true) (hi : i < n) :
    Cells.canonical n (Cells.put cs i v) = true := by
  unfold Cells.put
  split
  · exact Cells.canonicalFrom_erase i h
  · exact Cells.canonicalFrom_insert (Cells.canonicalFrom_erase i h) (Cells.erase_ne cs i) (Nat.zero_le i) hi ‹_›

theorem Cells.canonicalFrom_grow {lo n n' : Nat} {cs : Cells} (hn : n ≤ n')
    (h : Cells.canonicalFrom lo n cs = true) : Cells.canonicalFrom lo n' cs = true := by
  induction cs generalizing lo with
  | nil => rfl
  | cons c cs ih =>
    simp only [Cells.canonicalFrom, Bool.and_eq_true, decide_eq_true_eq] at h ⊢
    exact ⟨⟨⟨h.1.1.1, by omega⟩, h.1.2⟩, ih h.2⟩

theorem Cells.canonicalFrom_ofBytesFrom (i : Nat) (vs : List Byte) :
    Cells.canonicalFrom i (i + vs.length) (Cells.ofBytesFrom i vs) = true := by
  induction vs generalizing i with
  | nil => rfl
  | cons v vs ih =>
    have ih := ih (i + 1)
    rw [show i + (v :: vs).length = i + 1 + vs.length by simp; omega]
    simp only [Cells.ofBytesFrom]
    split
    · exact Cells.canonicalFrom_mono (Nat.le_succ i) ih
    · simp only [Cells.canonicalFrom, Bool.and_eq_true, decide_eq_true_eq]
      exact ⟨⟨⟨Nat.le_refl i, by omega⟩, ‹_›⟩, ih⟩

theorem imageWf_imageOf (bytes : List Byte) : imageWf (imageOf bytes) = true := by
  simpa [imageWf, imageOf, Cells.canonical] using Cells.canonicalFrom_ofBytesFrom 0 bytes

/-- Equal bytes are equal cells: the canonical form is unique. -/
theorem Cells.canonicalFrom_ext {lo n : Nat} {cs ds : Cells} (hc : Cells.canonicalFrom lo n cs = true)
    (hd : Cells.canonicalFrom lo n ds = true) (h : ∀ i, Cells.get cs i = Cells.get ds i) : cs = ds := by
  have below : ∀ {lo : Nat} {cs : Cells}, Cells.canonicalFrom lo n cs = true →
      ∀ i, i < lo → Cells.get cs i = unlistedByte := by
    intro lo cs hcs
    induction cs generalizing lo with
    | nil => simp
    | cons c cs ih =>
      simp only [Cells.canonicalFrom, Bool.and_eq_true, decide_eq_true_eq] at hcs
      intro i hi
      rw [Cells.get_cons, if_neg (by omega), ih hcs.2 i (by omega)]
  induction cs generalizing lo ds with
  | nil =>
    cases ds with
    | nil => rfl
    | cons d ds =>
      have := h d.1
      simp only [Cells.canonicalFrom, Bool.and_eq_true, decide_eq_true_eq] at hd
      simp_all
  | cons c cs ih =>
    simp only [Cells.canonicalFrom, Bool.and_eq_true, decide_eq_true_eq] at hc
    cases ds with
    | nil =>
      have := h c.1
      simp_all
    | cons d ds =>
      simp only [Cells.canonicalFrom, Bool.and_eq_true, decide_eq_true_eq] at hd
      have hk : c.1 = d.1 := by
        rcases Nat.lt_trichotomy c.1 d.1 with hlt | heq | hgt
        · have := h c.1
          rw [Cells.get_cons, Cells.get_cons, if_pos rfl, if_neg (by omega), below hd.2 _ (by omega)] at this
          exact absurd this hc.1.2
        · exact heq
        · have := h d.1
          rw [Cells.get_cons, Cells.get_cons, if_pos rfl, if_neg (by omega), below hc.2 _ (by omega)] at this
          exact absurd this.symm hd.1.2
      have hv : c.2 = d.2 := by simpa [hk] using h c.1
      have hcd : c = d := Prod.ext hk hv
      subst hcd
      congr 1
      refine ih hc.2 hd.2 fun i => ?_
      by_cases hi : i < c.1 + 1
      · rw [below hc.2 i hi, below hd.2 i hi]
      · have := h i
        rwa [Cells.get_cons, Cells.get_cons, if_neg (by omega), if_neg (by omega)] at this

/-! ## Resolution -/

theorem resolveFrom_none {k : Nat} {rs : List Region} {addr : Nat} (hr : resolveFrom k rs addr = none) :
    ∀ r ∈ rs, r.contains addr = false := by
  induction rs generalizing k with
  | nil => simp
  | cons r rs ih =>
    simp only [resolveFrom] at hr
    split at hr
    · cases hr
    · next hn =>
      split at hr
      · cases hr
      · have := ih hn
        simp_all

/-- What a hit is: the newest region that contains the address, and the offset in it (20_memory.md R91). -/
theorem resolveFrom_some {k : Nat} {rs : List Region} {addr : Nat} {h : Hit} (hr : resolveFrom k rs addr = some h) :
    k ≤ h.k ∧ rs[h.k - k]? = some h.region ∧ h.region.contains addr = true ∧
      h.o = addr - h.region.base.toNat ∧ ∀ j r, h.k < k + j → rs[j]? = some r → r.contains addr = false := by
  induction rs generalizing k with
  | nil => simp [resolveFrom] at hr
  | cons r rs ih =>
    simp only [resolveFrom] at hr
    split at hr
    · next h' heq =>
      cases hr
      obtain ⟨h1, h2, h3, h4, h5⟩ := ih heq
      refine ⟨by omega, ?_, h3, h4, ?_⟩
      · rw [show h.k - k = (h.k - (k + 1)) + 1 by omega, List.getElem?_cons_succ, h2]
      · intro j r' hj hr'
        cases j with
        | zero => omega
        | succ j => exact h5 j r' (by omega) (by simpa using hr')
    · next heq =>
      split at hr
      · next hc =>
        cases hr
        refine ⟨Nat.le_refl k, by simp, hc, rfl, ?_⟩
        intro j r' hj hr'
        cases j with
        | zero => simp at hj
        | succ j =>
          exact resolveFrom_none heq r' (List.mem_of_getElem? (by simpa using hr'))
      · cases hr

theorem Memory.resolve_some {m : Memory} {addr : Addr} {h : Hit} (hr : m.resolve addr = some h) :
    m.regions[h.k]? = some h.region ∧ h.region.contains addr.toNat = true ∧ h.o = addr.toNat - h.region.base.toNat ∧
      h.o < h.region.size := by
  obtain ⟨-, h2, h3, h4, -⟩ := resolveFrom_some hr
  refine ⟨by simpa using h2, h3, h4, ?_⟩
  simp only [Region.contains, Bool.and_eq_true, decide_eq_true_eq] at h3
  omega

/-- A newest region appended to the list is the first that resolution asks. -/
theorem resolveFrom_append (k : Nat) (rs : List Region) (r : Region) (addr : Nat) :
    resolveFrom k (rs ++ [r]) addr =
      if r.contains addr then some { k := k + rs.length, region := r, o := addr - r.base.toNat }
      else resolveFrom k rs addr := by
  induction rs generalizing k with
  | nil => simp [resolveFrom]
  | cons q qs ih =>
    simp only [List.cons_append, resolveFrom, ih, List.length_cons]
    by_cases hc : r.contains addr = true
    · simp [hc]; omega
    · simp [hc]

theorem Memory.resolve_addRegion (m : Memory) (r : Region) (addr : Addr) :
    (m.addRegion r).resolve addr =
      if r.contains addr.toNat then some { k := m.regions.length, region := r, o := addr.toNat - r.base.toNat }
      else m.resolve addr := by
  simp [Memory.resolve, Memory.addRegion, resolveFrom_append]

/-- What resolution says, with the region's bytes left out. -/
def Hit.shape (h : Hit) : Nat × Shape × Nat := (h.k, h.region.shape, h.o)

/-- The storage byte of a shape. -/
def siteOfShape (h : Nat × Shape × Nat) : Site :=
  match h.2.1.kind with
  | .owned _ => .owned h.1 h.2.2
  | .borrowed b => .buffer b h.2.2
  | .mappedFile f => .file f h.2.2

theorem Hit.site_eq (h : Hit) : h.site = siteOfShape h.shape := by
  simp only [Hit.site, siteOfShape, Hit.shape, Region.shape]
  cases h.region.storage <;> rfl

theorem contains_shape {r q : Region} (h : r.shape = q.shape) (addr : Nat) : r.contains addr = q.contains addr := by
  simp only [Region.shape, Shape.mk.injEq] at h
  simp [Region.contains, h.2.1, h.2.2.1]

theorem resolveFrom_shape {rs qs : List Region} (h : rs.map Region.shape = qs.map Region.shape) (k addr : Nat) :
    (resolveFrom k rs addr).map Hit.shape = (resolveFrom k qs addr).map Hit.shape := by
  induction rs generalizing qs k with
  | nil =>
    cases qs with
    | nil => rfl
    | cons => simp at h
  | cons r rs ih =>
    cases qs with
    | nil => simp at h
    | cons q qs =>
      simp only [List.map_cons, List.cons.injEq] at h
      have ih := ih h.2 (k + 1)
      simp only [resolveFrom, contains_shape h.1 addr]
      cases h1 : resolveFrom (k + 1) rs addr <;> cases h2 : resolveFrom (k + 1) qs addr <;> simp_all [Hit.shape]
      · split
        · have := h.1
          simp only [Region.shape, Shape.mk.injEq] at this
          simp [this.2.1, Region.shape]
        · rfl

theorem Memory.resolve_map {m n : Memory} (h : m.map = n.map) (addr : Addr) :
    (m.resolve addr).map Hit.shape = (n.resolve addr).map Hit.shape := resolveFrom_shape h 0 addr.toNat

theorem Memory.siteOf_map {m n : Memory} (h : m.map = n.map) (addr : Addr) : m.siteOf addr = n.siteOf addr := by
  have := congrArg (Option.map siteOfShape) (Memory.resolve_map h addr)
  simpa [Memory.siteOf, Function.comp_def, ← Hit.site_eq] using this

theorem Memory.storable_map {m n : Memory} (h : m.map = n.map) (addr : Addr) : m.storable addr = n.storable addr := by
  have := Memory.resolve_map h addr
  simp only [Memory.storable]
  cases h1 : m.resolve addr <;> cases h2 : n.resolve addr <;> simp_all [Hit.shape, Region.shape]

theorem Memory.resolve_isSome_map {m n : Memory} (h : m.map = n.map) (addr : Addr) :
    (m.resolve addr).isSome = (n.resolve addr).isSome := by
  have := congrArg Option.isSome (Memory.resolve_map h addr)
  simpa using this

/-! ## Storage bytes -/

theorem map_modify_of_comp {α β : Type} {g : α → β} {f : α → α} (h : ∀ x, g (f x) = g x) (l : List α) (k : Nat) :
    (l.modify k f).map g = l.map g := by
  induction l generalizing k with
  | nil => cases k <;> simp
  | cons x l ih => cases k <;> simp [h, ih]

/-- A storage write moves no region. -/
@[simp] theorem Memory.map_putAt (m : Memory) (site : Site) (v : Byte) : (m.putAt site v).map = m.map := by
  cases site with
  | owned k o =>
    refine map_modify_of_comp (fun r => ?_) m.regions k
    simp only [Region.shape]
    cases r.storage <;> rfl
  | buffer b o => rfl
  | file f o => rfl

/-- A storage byte that exists. -/
def Memory.hasSite (m : Memory) : Site → Prop
  | .owned k _ => ∃ r cells, m.regions[k]? = some r ∧ r.storage = .owned cells
  | .buffer b _ => b < m.buffers.length
  | .file f _ => f < m.files.length

theorem Memory.byteAt_putAt {m : Memory} {site : Site} (h : m.hasSite site) (v : Byte) (t : Site) :
    (m.putAt site v).byteAt t = if site = t then v else m.byteAt t := by
  cases site with
  | owned k o =>
    obtain ⟨r, cells, hr, hs⟩ := h
    cases t with
    | owned j i =>
      simp only [Memory.putAt, Memory.byteAt, List.getElem?_modify]
      by_cases hkj : k = j
      · subst hkj
        simp [hr, hs, Storage.putOwned, Storage.ownedCells, Cells.get_put]
      · simp [hkj]
    | buffer => simp [Memory.putAt, Memory.byteAt]
    | file => simp [Memory.putAt, Memory.byteAt]
  | buffer b o =>
    cases t with
    | buffer c i =>
      simp only [Memory.putAt, Memory.byteAt, List.getElem?_modify]
      by_cases hbc : b = c
      · subst hbc
        have h : b < m.buffers.length := h
        simp [List.getElem?_eq_getElem h, putImage, Cells.get_put]
      · simp [hbc]
    | owned => simp [Memory.putAt, Memory.byteAt]
    | file => simp [Memory.putAt, Memory.byteAt]
  | file f o =>
    cases t with
    | file g i =>
      simp only [Memory.putAt, Memory.byteAt, List.getElem?_modify]
      by_cases hfg : f = g
      · subst hfg
        have h : f < m.files.length := h
        simp [List.getElem?_eq_getElem h, putImage, Cells.get_put]
      · simp [hfg]
    | owned => simp [Memory.putAt, Memory.byteAt]
    | buffer => simp [Memory.putAt, Memory.byteAt]

/-- A write to a storage byte leaves every other storage byte alone, whether or not it exists. -/
theorem Memory.byteAt_putAt_ne (m : Memory) {site t : Site} (h : site ≠ t) (v : Byte) :
    (m.putAt site v).byteAt t = m.byteAt t := by
  cases site <;> cases t <;> simp only [Memory.putAt, Memory.byteAt, List.getElem?_modify]
  all_goals
    rename_i k o j i
    by_cases hkj : k = j
    · subst hkj
      have ho : o ≠ i := by simpa using h
      simp only [if_pos, Option.map_eq_map]
      split <;> rename_i heq
      · obtain ⟨q, hq, rfl⟩ := Option.map_eq_some_iff.mp heq
        simp only [hq, putImage, Cells.get_put, if_neg ho]
        try (cases hs : q.storage <;> simp [Storage.putOwned, Storage.ownedCells, Cells.get_put, ho])
      · simp_all
    · simp [hkj]

/-! ## The canonical form of memory -/

/-- The parts of `Memory.wf`. -/
theorem Memory.wf_iff (m : Memory) :
    m.wf = true ↔ (∀ r ∈ m.regions, m.regionWf r = true) ∧ (∀ im ∈ m.buffers, imageWf im = true) ∧
      (∀ hf ∈ m.files, imageWf hf.content = true) ∧ (m.files.map HostFile.path).Nodup := by
  simp [Memory.wf, and_assoc]

/-- The storage bytes of a region of a well-formed memory exist. -/
theorem Memory.hasSite_of_region {m : Memory} {h : Hit} (hm : m.wf = true) (hreg : m.regions[h.k]? = some h.region) :
    m.hasSite h.site := by
  have hw := ((Memory.wf_iff m).mp hm).1 h.region (List.mem_of_getElem? hreg)
  simp only [Memory.regionWf, Bool.and_eq_true] at hw
  simp only [Hit.site]
  cases hs : h.region.storage with
  | owned cells => exact ⟨h.region, cells, hreg, hs⟩
  | borrowed b =>
    rw [hs] at hw
    by_contra hb
    simp [Memory.hasSite] at hb
    simp [List.getElem?_eq_none hb] at hw
  | mappedFile f =>
    rw [hs] at hw
    by_contra hb
    simp [Memory.hasSite] at hb
    simp [List.getElem?_eq_none hb] at hw

/-- The storage byte that an address shows exists in a well-formed memory. -/
theorem Memory.hasSite_of_wf {m : Memory} {addr : Addr} {h : Hit} (hm : m.wf = true) (hr : m.resolve addr = some h) :
    m.hasSite h.site := Memory.hasSite_of_region hm (Memory.resolve_some hr).1

/-- An owned storage byte that an address shows exists in any memory. -/
theorem Memory.hasSite_owned {m : Memory} {addr : Addr} {h : Hit} {cells : Cells} (hr : m.resolve addr = some h)
    (hs : h.region.storage = .owned cells) : m.hasSite h.site := by
  obtain ⟨hreg, -⟩ := Memory.resolve_some hr
  simpa [Hit.site, hs] using ⟨h.region, cells, hreg, hs⟩

/-- The bound that keeps a storage write inside the canonical form. -/
def Memory.siteInside (m : Memory) : Site → Prop
  | .owned k o => ∀ r, m.regions[k]? = some r → o < r.size
  | .buffer b o => ∀ im, m.buffers[b]? = some im → o < im.size
  | .file f o => ∀ hf, m.files[f]? = some hf → o < hf.content.size

theorem forall_mem_modify {α : Type} {p : α → Prop} {l : List α} {k : Nat} {f : α → α} (h : ∀ x ∈ l, p x)
    (hf : ∀ x, l[k]? = some x → p (f x)) : ∀ x ∈ l.modify k f, p x := by
  induction l generalizing k with
  | nil => cases k <;> simp
  | cons a l ih =>
    cases k with
    | zero =>
      intro x hx
      simp only [List.modify_zero_cons, List.mem_cons] at hx
      rcases hx with rfl | hx
      · exact hf a (by simp)
      · exact h x (by simp [hx])
    | succ k =>
      intro x hx
      simp only [List.modify_succ_cons, List.mem_cons] at hx
      rcases hx with rfl | hx
      · exact h x (by simp)
      · exact ih (fun y hy => h y (by simp [hy])) (fun y hy => hf y (by simpa using hy)) x hx

theorem imageWf_putImage {im : Image} {i : Nat} (v : Byte) (h : imageWf im = true) (hi : i < im.size) :
    imageWf (putImage im i v) = true := Cells.canonical_put v h hi

/-- A well-formed region stays so when the sizes of buffers and files stay. -/
theorem Memory.regionWf_congr {m n : Memory} (hb : n.buffers.map Image.size = m.buffers.map Image.size)
    (hf : n.files.map (fun hf => hf.content.size) = m.files.map (fun hf => hf.content.size)) (r : Region) :
    n.regionWf r = m.regionWf r := by
  simp only [Memory.regionWf]
  congr 1
  cases r.storage with
  | owned => rfl
  | borrowed b =>
    have := congrArg (fun l => l[b]?) hb
    simp only [List.getElem?_map] at this
    cases h1 : m.buffers[b]? <;> cases h2 : n.buffers[b]? <;> simp_all
  | mappedFile f =>
    have := congrArg (fun l => l[f]?) hf
    simp only [List.getElem?_map] at this
    cases h1 : m.files[f]? <;> cases h2 : n.files[f]? <;> simp_all

theorem Memory.wf_putAt {m : Memory} {site : Site} (v : Byte) (hm : m.wf = true) (hi : m.siteInside site) :
    (m.putAt site v).wf = true := by
  obtain ⟨h1, h2, h3, h4⟩ := (Memory.wf_iff m).mp hm
  rw [Memory.wf_iff]
  cases site with
  | owned k o =>
    refine ⟨forall_mem_modify (fun r hr => h1 r hr) fun r hr => ?_, h2, h3, h4⟩
    have hw := h1 r (List.mem_of_getElem? hr)
    simp only [Memory.regionWf, Memory.putAt, Bool.and_eq_true] at hw ⊢
    refine ⟨hw.1, ?_⟩
    cases hs : r.storage with
    | owned cells =>
      simp only [hs] at hw
      exact Cells.canonical_put v hw.2 (hi r hr)
    | borrowed b => simpa [hs, Storage.putOwned] using hw.2
    | mappedFile f => simpa [hs, Storage.putOwned] using hw.2
  | buffer b o =>
    refine ⟨fun r hr => ?_, forall_mem_modify h2 fun im him => ?_, h3, h4⟩
    · exact (Memory.regionWf_congr (m := m) (n := m.putAt (.buffer b o) v)
        (map_modify_of_comp (g := Image.size) (f := fun im => putImage im o v) (fun _ => rfl) m.buffers b) rfl r).trans (h1 r hr)
    · exact imageWf_putImage v (h2 im (List.mem_of_getElem? him)) (hi im him)
  | file f o =>
    refine ⟨fun r hr => ?_, h2, forall_mem_modify h3 fun hf hhf => ?_, ?_⟩
    · exact (Memory.regionWf_congr (m := m) (n := m.putAt (.file f o) v) rfl
        (map_modify_of_comp (g := fun hf => hf.content.size)
          (f := fun hf => { hf with content := putImage hf.content o v }) (fun _ => rfl) m.files f) r).trans (h1 r hr)
    · exact imageWf_putImage v (h3 hf (List.mem_of_getElem? hhf)) (hi hf hhf)
    · have : (m.putAt (.file f o) v).files.map HostFile.path = m.files.map HostFile.path :=
        map_modify_of_comp (g := HostFile.path)
          (f := fun hf => { hf with content := putImage hf.content o v }) (fun _ => rfl) m.files f
      rw [this]
      exact h4

/-- The storage byte at offset `o` of a region of a well-formed memory lies inside its storage, for `o < size`. -/
theorem Memory.siteInside_of_region {m : Memory} {h : Hit} (hm : m.wf = true) (hreg : m.regions[h.k]? = some h.region)
    (ho : h.o < h.region.size) : m.siteInside h.site := by
  have hw := ((Memory.wf_iff m).mp hm).1 h.region (List.mem_of_getElem? hreg)
  simp only [Memory.regionWf, Bool.and_eq_true] at hw
  simp only [Hit.site]
  cases hs : h.region.storage with
  | owned cells =>
    intro r hr
    rw [hreg] at hr
    cases hr
    exact ho
  | borrowed b =>
    intro im him
    simp only [hs, him, decide_eq_true_eq] at hw
    omega
  | mappedFile f =>
    intro hf hhf
    simp only [hs, hhf, Bool.and_eq_true, decide_eq_true_eq] at hw
    omega

/-- Any write keeps the canonical form (20_memory.md R97). -/
theorem Memory.wf_write {m : Memory} (addr : Addr) (v : Byte) (hm : m.wf = true) : (m.write addr v).wf = true := by
  simp only [Memory.write]
  split
  · next h hr =>
    obtain ⟨hreg, -, -, ho⟩ := Memory.resolve_some hr
    split
    · exact Memory.wf_putAt v hm (Memory.siteInside_of_region hm hreg ho)
    · exact hm
  · exact hm

/-- Mapping a well-formed region keeps the canonical form. -/
theorem Memory.wf_addRegion {m : Memory} {r : Region} (hm : m.wf = true) (hr : m.regionWf r = true) :
    (m.addRegion r).wf = true := by
  obtain ⟨h1, h2, h3, h4⟩ := (Memory.wf_iff m).mp hm
  rw [Memory.wf_iff]
  refine ⟨fun q hq => ?_, h2, h3, h4⟩
  simp only [Memory.addRegion, List.mem_append, List.mem_singleton] at hq
  rcases hq with hq | rfl
  · exact h1 q hq
  · exact hr

/-- Unmapping keeps the canonical form. -/
theorem Memory.wf_dropRegion {m : Memory} (k : Nat) (hm : m.wf = true) : (m.dropRegion k).wf = true := by
  obtain ⟨h1, h2, h3, h4⟩ := (Memory.wf_iff m).mp hm
  exact (Memory.wf_iff _).mpr ⟨fun q hq => h1 q (List.mem_of_mem_eraseIdx hq), h2, h3, h4⟩

/-! ## Reads and writes -/

@[simp] theorem Memory.map_write (m : Memory) (addr : Addr) (v : Byte) : (m.write addr v).map = m.map := by
  simp only [Memory.write]
  split
  · split <;> simp
  · rfl

@[simp] theorem Memory.siteOf_write (m : Memory) (addr : Addr) (v : Byte) (addr' : Addr) :
    (m.write addr v).siteOf addr' = m.siteOf addr' := Memory.siteOf_map (Memory.map_write m addr v) addr'

@[simp] theorem Memory.storable_write (m : Memory) (addr : Addr) (v : Byte) (addr' : Addr) :
    (m.write addr v).storable addr' = m.storable addr' := Memory.storable_map (Memory.map_write m addr v) addr'

@[simp] theorem Memory.readEvents_write (m : Memory) (addr : Addr) (v : Byte) (addrs : List Addr) :
    (m.write addr v).readEvents addrs = m.readEvents addrs := by
  simp only [Memory.readEvents, Memory.resolve_isSome_map (Memory.map_write m addr v)]

/-- A write that is not storable changes nothing (20_memory.md R97, R99). -/
theorem Memory.write_of_not_storable {m : Memory} {addr : Addr} (h : m.storable addr = false) (v : Byte) :
    m.write addr v = m := by
  simp only [Memory.write, Memory.storable] at h ⊢
  split
  · next hr => simp_all
  · rfl

/-- What reads show after a write (20_memory.md R97, R98, R111). -/
theorem Memory.peek_write {m : Memory} (hm : m.wf = true) (addr : Addr) (v : Byte) (addr' : Addr) :
    (m.write addr v).peek addr' =
      if m.storable addr = true ∧ m.siteOf addr' = m.siteOf addr then v else m.peek addr' := by
  rw [Memory.peek, Memory.siteOf_write]
  cases hs : m.storable addr with
  | false => simp [Memory.write_of_not_storable hs, Memory.peek]
  | true =>
    simp only [Memory.storable] at hs
    cases hr : m.resolve addr with
    | none => simp [hr] at hs
    | some h =>
      simp only [hr] at hs
      have hsite : m.siteOf addr = some h.site := by simp [Memory.siteOf, hr]
      simp only [Memory.write, hr, hs, if_true, hsite, true_and, Memory.peek]
      cases hs' : m.siteOf addr' with
      | none => simp
      | some t => simp only [Memory.byteAt_putAt (Memory.hasSite_of_wf hm hr), Option.some.injEq, eq_comm]

/-- A write leaves alone every address that shows another storage byte (20_memory.md R97), in any memory. -/
theorem Memory.peek_write_ne {m : Memory} {addr addr' : Addr} (h : m.siteOf addr' ≠ m.siteOf addr) (v : Byte) :
    (m.write addr v).peek addr' = m.peek addr' := by
  rw [Memory.peek, Memory.siteOf_write, Memory.peek]
  cases hs' : m.siteOf addr' with
  | none => rfl
  | some t =>
    simp only [Memory.write]
    split
    · next hit hr =>
      have hne : hit.site ≠ t := by
        rintro rfl
        exact h (by rw [hs']; simp [Memory.siteOf, hr])
      split
      · exact Memory.byteAt_putAt_ne m hne v
      · rfl
    · rfl

/-- Writing one storage byte keeps the extents of buffers and files. -/
@[simp] theorem Memory.extents_putAt (m : Memory) (site : Site) (v : Byte) : (m.putAt site v).extents = m.extents := by
  cases site with
  | owned k o => rfl
  | buffer b o =>
    exact Prod.ext (map_modify_of_comp (f := fun im => putImage im o v) (g := Image.size) (fun _ => rfl) m.buffers b) rfl
  | file f o =>
    exact Prod.ext rfl (map_modify_of_comp (f := fun hf => { hf with content := putImage hf.content o v })
      (g := fun hf : HostFile => (hf.path, hf.content.size)) (fun _ => rfl) m.files f)

/-- A write keeps the extents of buffers and files (20_memory.md R97). -/
@[simp] theorem Memory.extents_write (m : Memory) (addr : Addr) (v : Byte) : (m.write addr v).extents = m.extents := by
  simp only [Memory.write]
  split
  · split <;> simp
  · rfl

/-- A write leaves every storage byte but the one that its address shows (20_memory.md R97). -/
theorem Memory.byteAt_write_ne {m : Memory} {addr : Addr} {site : Site} (h : m.siteOf addr ≠ some site) (v : Byte) :
    (m.write addr v).byteAt site = m.byteAt site := by
  simp only [Memory.write]
  split
  · next x hx =>
    split
    · refine Memory.byteAt_putAt_ne m (fun he => h ?_) v
      simp [Memory.siteOf, hx, he]
    · rfl
  · rfl

/-- A region that cannot be written, with a buffer of its own, stays whole under a write anywhere, shadowed or not
(20_memory.md R92, R97). -/
theorem Memory.write_readOnly_region {m : Memory} {k : Nat} {r : Region} {cells : Cells} (hk : m.regions[k]? = some r)
    (hw : r.writable = false) (hs : r.storage = .owned cells) (addr : Addr) (v : Byte) :
    (m.write addr v).regions[k]? = some r := by
  simp only [Memory.write]
  split
  · next x hx =>
    split
    · next hx' =>
      simp only [Memory.putAt]
      split
      · next j o hj =>
        obtain ⟨hreg, -⟩ := Memory.resolve_some hx
        have hne : j ≠ k := by
          intro he
          have hjk : x.k = j := by
            simp only [Hit.site] at hj
            split at hj <;> simp_all
          rw [hjk, he, hk] at hreg
          cases hreg
          rw [hw] at hx'
          cases hx'
        simp [hne, hk]
      · exact hk
      · exact hk
    · exact hk
  · exact hk

/-- Two addresses that show the same byte of an owned buffer are one address. -/
theorem Memory.siteOf_owned_inj {m : Memory} {addr addr' : Addr} {k o : Nat} (h : m.siteOf addr = some (.owned k o))
    (h' : m.siteOf addr' = some (.owned k o)) : addr = addr' := by
  simp only [Memory.siteOf, Option.map_eq_some_iff] at h h'
  obtain ⟨⟨k1, r1, o1⟩, hr1, hs1⟩ := h
  obtain ⟨⟨k2, r2, o2⟩, hr2, hs2⟩ := h'
  obtain ⟨a1, b1, c1, -⟩ := Memory.resolve_some hr1
  obtain ⟨a2, b2, c2, -⟩ := Memory.resolve_some hr2
  simp only [Hit.site] at hs1 hs2 a1 b1 c1 a2 b2 c2
  cases hst1 : r1.storage <;> simp only [hst1, Site.owned.injEq, reduceCtorEq] at hs1
  cases hst2 : r2.storage <;> simp only [hst2, Site.owned.injEq, reduceCtorEq] at hs2
  obtain ⟨rfl, rfl⟩ := hs1
  obtain ⟨rfl, rfl⟩ := hs2
  rw [a1] at a2
  cases a2
  simp only [Region.contains, Bool.and_eq_true, decide_eq_true_eq] at b1 b2
  apply BitVec.eq_of_toNat_eq
  omega

theorem Memory.byteAt_of_resolve_none {m : Memory} {addr : Addr} (h : m.resolve addr = none) :
    m.peek addr = 0x00#8 := by simp [Memory.peek, Memory.siteOf, h]

end Sys2Proof.Machine
end

