-- ==== Sys2Proof/Laws/HostOps.lean ====
section
/-! SUPPORT. What the host's map, file and buffer operations keep: the canonical form of the memory state
(20_memory.md R80-R89, 60_exceptions.md R372). -/

namespace Sys2Proof.Machine

/-- Changing the files keeps the canonical form when no mapped file shrinks and no path comes twice. -/
theorem Memory.wf_setFiles {m : Memory} {fs : List HostFile} (hm : m.wf = true)
    (hget : ∀ f hf, m.files[f]? = some hf → m.maps f = true →
      ∃ hf', fs[f]? = some hf' ∧ hf.content.size ≤ hf'.content.size)
    (hi : ∀ hf ∈ fs, imageWf hf.content = true) (hn : (fs.map HostFile.path).Nodup) :
    ({ m with files := fs } : Memory).wf = true := by
  rw [Memory.wf_iff] at hm ⊢
  refine ⟨fun r hr => ?_, hm.2.1, hi, hn⟩
  have h := hm.1 r hr
  simp only [Memory.regionWf, Bool.and_eq_true] at h ⊢
  refine ⟨h.1, ?_⟩
  cases hs : r.storage with
  | owned c => simpa [hs] using h.2
  | borrowed b => simpa [hs] using h.2
  | mappedFile f =>
    simp only [hs] at h
    have h2 := h.2
    split at h2
    · next hf hfs =>
      obtain ⟨hf', h1', h2'⟩ := hget f hf hfs (List.any_eq_true.mpr ⟨r, hr, by simp [hs]⟩)
      simp only [h1']
      simp at h2 ⊢
      exact ⟨by omega, h2.2⟩
    · cases h2

theorem fileIndexFrom_some {k : Nat} {fs : List HostFile} {path : Text} {f : Nat}
    (h : fileIndexFrom k fs path = some f) : k ≤ f ∧ ∃ hf, fs[f - k]? = some hf ∧ hf.path = path := by
  induction fs generalizing k with
  | nil => cases h
  | cons a fs ih =>
    simp only [fileIndexFrom] at h
    split at h
    · cases h
      simp_all
    · obtain ⟨h1, hf, h2, h3⟩ := ih h
      refine ⟨by omega, hf, ?_, h3⟩
      have : f - k = (f - (k + 1)) + 1 := by omega
      rw [this, List.getElem?_cons_succ]
      exact h2

theorem fileIndexFrom_none {k : Nat} {fs : List HostFile} {path : Text} (h : fileIndexFrom k fs path = none) :
    ∀ hf ∈ fs, hf.path ≠ path := by
  induction fs generalizing k with
  | nil => simp
  | cons a fs ih =>
    simp only [fileIndexFrom] at h
    split at h
    · cases h
    · intro hf hm
      rcases List.mem_cons.mp hm with rfl | hm
      · assumption
      · exact ih h hf hm

/-- The file that a path's index names. -/
theorem Memory.fileIndex_some {m : Memory} {path : Text} {f : Nat} (h : m.fileIndex path = some f) :
    ∃ hf, m.files[f]? = some hf ∧ hf.path = path := by simpa using (fileIndexFrom_some h).2

/-- A new file under a new path. -/
theorem Memory.wf_addFile {m : Memory} {path : Text} {im : Image} (hm : m.wf = true)
    (hp : m.fileIndex path = none) (hi : imageWf im = true) :
    ({ m with files := m.files ++ [{ path := path, content := im }] } : Memory).wf = true := by
  have hw := (Memory.wf_iff m).mp hm
  refine Memory.wf_setFiles hm (fun f hf h _ => ⟨hf, ?_, Nat.le_refl _⟩) (fun hf hh => ?_) ?_
  · rw [List.getElem?_append_left (List.getElem?_eq_some_iff.mp h).1]
    exact h
  · rcases List.mem_append.mp hh with hh | hh
    · exact hw.2.2.1 hf hh
    · rw [List.mem_singleton.mp hh]
      exact hi
  · simp only [List.map_append, List.map_cons, List.map_nil]
    rw [List.nodup_append]
    refine ⟨hw.2.2.2, by simp, ?_⟩
    intro x hx y hy hxy
    simp only [List.mem_map] at hx
    obtain ⟨hf, h1, h2⟩ := hx
    exact fileIndexFrom_none hp hf h1 (by rw [h2, hxy, List.mem_singleton.mp hy])

/-- New contents for a file, no shorter where a region maps it. -/
theorem Memory.wf_modifyFile {m : Memory} {f : Nat} {g : Image → Image} (hm : m.wf = true)
    (hg : ∀ hf, m.files[f]? = some hf → imageWf (g hf.content) = true)
    (hs : ∀ hf, m.files[f]? = some hf → m.maps f = true → hf.content.size ≤ (g hf.content).size) :
    ({ m with files := m.files.modify f fun hf => { hf with content := g hf.content } } : Memory).wf = true := by
  have hw := (Memory.wf_iff m).mp hm
  refine Memory.wf_setFiles hm (fun f' hf h hmap => ?_)
    (forall_mem_modify (p := fun (hf : HostFile) => imageWf hf.content = true) hw.2.2.1 hg) ?_
  · by_cases hff : f = f'
    · subst hff
      exact ⟨{ hf with content := g hf.content }, by simp [h], hs hf h hmap⟩
    · exact ⟨hf, by simp [h, hff], Nat.le_refl _⟩
  · rw [map_modify_of_comp (g := HostFile.path) (by intro x; rfl)]
    exact hw.2.2.2

/-- A new caller-owned buffer. -/
theorem Memory.wf_addBuffer {m : Memory} {im : Image} (hm : m.wf = true) (hi : imageWf im = true) :
    ({ m with buffers := m.buffers ++ [im] } : Memory).wf = true := by
  rw [Memory.wf_iff] at hm ⊢
  refine ⟨fun r hr => ?_, fun x hx => ?_, hm.2.2.1, hm.2.2.2⟩
  · have h := hm.1 r hr
    simp only [Memory.regionWf, Bool.and_eq_true] at h ⊢
    refine ⟨h.1, ?_⟩
    cases hs : r.storage with
    | owned c => simpa [hs] using h.2
    | mappedFile f => simpa [hs] using h.2
    | borrowed b =>
      simp only [hs] at h
      have h2 := h.2
      split at h2
      · next im' hb =>
        have : (m.buffers ++ [im])[b]? = some im' := by
          rw [List.getElem?_append_left (List.getElem?_eq_some_iff.mp hb).1]
          exact hb
        simpa [this] using h2
      · cases h2
  · rcases List.mem_append.mp hx with hx | hx
    · exact hm.2.1 x hx
    · rw [List.mem_singleton.mp hx]
      exact hi

/-- `mapZeroed` (20_memory.md R84). -/
theorem wf_mapZeroed (id : RegionId) (base : Addr) {size : Nat} (writable : Bool) {s : State} (hn : size ≠ 0)
    (hs : s.mem.wf = true) : (mapZeroed id base size writable s).mem.wf = true := by
  rw [mapZeroed, if_neg hn]
  refine Memory.wf_addRegion hs ?_
  simp [Memory.regionWf, Cells.canonical, Cells.canonicalFrom]
  omega

/-- `mapBuffer` (20_memory.md R85). -/
theorem wf_mapBuffer (id : RegionId) (base : Addr) {size buffer : Nat} (writable : Bool) {s : State} {im : Image}
    (hn : size ≠ 0) (hb : s.mem.buffers[buffer]? = some im) (hle : size ≤ im.size) (hs : s.mem.wf = true) :
    (mapBuffer id base size buffer writable s).mem.wf = true := by
  refine Memory.wf_addRegion hs ?_
  simp [Memory.regionWf, hb, hle]
  omega

/-- `mapFile` with `writable = true` (20_memory.md R86). -/
theorem wf_mapFileWritable (id : RegionId) (path : Text) (base : Addr) {size : Nat} (opened : Bool) {s : State}
    (hn : size ≠ 0) (hs : s.mem.wf = true) : (mapFileWritable id base size path opened s).2.mem.wf = true := by
  have hw := (Memory.wf_iff _).mp hs
  simp only [mapFileWritable]
  split
  · simp only [State.setMem, Memory.openWritable]
    split
    · next f hf =>
      obtain ⟨hf', h2, -⟩ := Memory.fileIndex_some hf
      refine Memory.wf_addRegion (Memory.wf_modifyFile (g := fun im => extendImage im size) hs
        (fun x hx => Cells.canonicalFrom_grow (Nat.le_max_left _ _) (hw.2.2.1 x (List.mem_of_getElem? hx)))
        (fun _ _ _ => Nat.le_max_left _ _)) ?_
      simp [Memory.regionWf, h2, extendImage]
      omega
    · next hf =>
      refine Memory.wf_addRegion (Memory.wf_addFile hs hf rfl) ?_
      simp [Memory.regionWf]
      omega
  · exact hs

/-- The file that a read-only `mapFile` copies is one of the files, and not empty (20_memory.md R87). -/
theorem readableFile_some {path : Text} {opened : Bool} {s : State} {im : Image}
    (h : readableFile path opened s = some im) :
    opened = true ∧ 0 < im.size ∧ ∃ f hf, s.mem.fileIndex path = some f ∧ s.mem.files[f]? = some hf ∧ hf.content = im := by
  simp only [readableFile] at h
  split at h
  · next f hf =>
    split at h
    · next hf' hh =>
      split at h
      · next hc =>
        cases h
        simp only [Bool.and_eq_true, decide_eq_true_eq] at hc
        exact ⟨hc.1, hc.2, f, hf', hf, hh, rfl⟩
      · cases h
    · cases h
  · cases h

/-- `mapFile` with `writable = false` (20_memory.md R87). -/
theorem wf_mapFileReadOnly (id : RegionId) (path : Text) (base : Addr) (opened : Bool) {s : State} (hs : s.mem.wf = true) :
    (mapFileReadOnly id base path opened s).2.mem.wf = true := by
  simp only [mapFileReadOnly]
  split
  · next im him =>
    obtain ⟨-, hpos, f, hf, -, hh, rfl⟩ := readableFile_some him
    refine Memory.wf_addRegion hs ?_
    have := ((Memory.wf_iff _).mp hs).2.2.1 hf (List.mem_of_getElem? hh)
    simp only [Memory.regionWf, hpos, decide_true, Bool.true_and]
    exact this
  · exact hs

/-- `unmap` (20_memory.md R89). -/
theorem wf_unmap (id : RegionId) {s : State} (hs : s.mem.wf = true) : (unmap id s).2.mem.wf = true := by
  simp only [unmap]
  split
  · exact Memory.wf_dropRegion _ hs
  · exact hs

/-- A write through a handle goes to a byte inside the region's storage (20_memory.md R80, R94). -/
theorem siteInside_past {m : Memory} {addr : Addr} {h : Hit} {i : Nat} {site : Site} (hm : m.wf = true)
    (hr : m.resolve addr = some h) (hp : h.past i = some site) : m.siteInside site := by
  simp only [Hit.past] at hp
  split at hp
  · next hlt =>
    cases hp
    exact Memory.siteInside_of_region (h := { h with o := h.o + i }) hm (Memory.resolve_some hr).1 hlt.1
  · cases hp

/-- The offset that resolution finds counts from the region's base (20_memory.md R91). -/
theorem resolve_base {m : Memory} {addr : Addr} {h : Hit} (hr : m.resolve addr = some h) :
    h.region.base.toNat + h.o = addr.toNat := by
  obtain ⟨-, hc, ho, -⟩ := Memory.resolve_some hr
  simp only [Region.contains, Bool.and_eq_true, decide_eq_true_eq] at hc
  omega

/-- What a handle reaches depends on the shape of its region only. -/
theorem past_shape {h h' : Hit} (hs : h.shape = h'.shape) (i : Nat) : h.past i = h'.past i := by
  simp only [Hit.shape, Region.shape, Prod.mk.injEq, Shape.mk.injEq] at hs
  obtain ⟨hk, ⟨-, hb, hz, ht, -⟩, ho⟩ := hs
  have hsite : Hit.site { h with o := h.o + i } = Hit.site { h' with o := h'.o + i } := by
    rw [Hit.site_eq, Hit.site_eq]
    simp only [siteOfShape, Hit.shape, Region.shape, hk, ho, ht]
  simp only [Hit.past, hb, hz]
  rw [hsite, ho]

/-- A handle into a region with a buffer of its own reaches bytes of that buffer only (20_memory.md R81, R94). -/
theorem past_owned {h : Hit} {cells : Cells} (hs : h.region.storage = .owned cells) {i : Nat} {site : Site}
    (hp : h.past i = some site) : site = .owned h.k (h.o + i) := by
  simp only [Hit.past] at hp
  split at hp
  · cases hp
    simp only [Hit.site, hs]
  · cases hp

/-- A byte of a region's own buffer is in no file. -/
theorem files_putAt_owned (m : Memory) (k o : Nat) (v : Byte) : (m.putAt (.owned k o) v).files = m.files := rfl

/-! ## The Machine layout -/

/-- What a Machine that is well-formed for boot has (70_reset_and_hazards.md R390). -/
theorem State.bootWellFormed_iff (s : State) : s.bootWellFormed = true ↔
    s.config.bootWellFormed = true ∧ romRegion s.config ∈ s.mem.regions ∧
      (ramRegion s.config).shape ∈ s.mem.map := by
  simp only [State.bootWellFormed, State.romMapped, State.ramMapped, Bool.and_eq_true, decide_eq_true_eq, and_assoc]

/-- What the parameters of such a Machine meet. -/
theorem Config.bootWellFormed_iff (c : Config) : c.bootWellFormed = true ↔
    c.romBase.toNat + c.romImage.size = 0x10000 ∧ 6 ≤ c.romImage.size ∧ 0x0200 ≤ c.romBase.toNat := by
  simp only [Config.bootWellFormed, Bool.and_eq_true, decide_eq_true_eq, and_assoc]

/-! ## The newest region -/

/-- `unmap` of an id that the newest region matches finds that region (20_memory.md R89). -/
theorem newestMatch_addRegion {m : Memory} {r : Region} {id : RegionId} (h : idMatch r.id id = true) :
    (m.addRegion r).newestMatch id = some m.regions.length := by
  have : ∀ k (rs : List Region), newestMatchFrom k (rs ++ [r]) id = some (k + rs.length) := by
    intro k rs
    induction rs generalizing k with
    | nil => simp [newestMatchFrom, h]
    | cons a rs ih =>
      simp [newestMatchFrom, ih]
      omega
  have h0 := this 0 m.regions
  rw [Nat.zero_add] at h0
  exact h0

/-- An address outside a new region shows what it showed before (20_memory.md R91). -/
theorem peek_addRegion_outside {m : Memory} {r : Region} {addr : Addr} (h : r.contains addr.toNat = false) :
    (m.addRegion r).peek addr = m.peek addr := by
  have hs : (m.addRegion r).siteOf addr = m.siteOf addr := by simp [Memory.siteOf, Memory.resolve_addRegion, h]
  simp only [Memory.peek, hs]
  cases hq : m.siteOf addr with
  | none => rfl
  | some site =>
    simp only [Memory.siteOf, Option.map_eq_some_iff] at hq
    obtain ⟨x, hx1, rfl⟩ := hq
    have hlt := (List.getElem?_eq_some_iff.mp (Memory.resolve_some hx1).1).1
    simp only [Hit.site]
    cases x.region.storage <;> simp [Memory.byteAt, Memory.addRegion, List.getElem?_append_left hlt]

end Sys2Proof.Machine
end

