-- ==== Sys2Proof/Laws/Ops.lean ====
section
/-! SUPPORT. The closed form of every shared operation: what it returns, and the whole state it leaves. Later proofs cite
these and do not unfold the operations. -/

namespace Sys2Proof.Machine

/-! ## Single accesses -/

@[simp] theorem Memory.readEvents_nil (m : Memory) : m.readEvents [] = [] := rfl

theorem Memory.readEvents_append (m : Memory) (as bs : List Addr) :
    m.readEvents (as ++ bs) = m.readEvents as ++ m.readEvents bs := by simp [Memory.readEvents]

/-- `memRead` in closed form (20_memory.md R95). -/
theorem memRead_eq (addr : Addr) (s : State) :
    memRead addr s = (s.mem.peek addr, s.logged (s.mem.readEvents [addr])) := by
  simp only [memRead, Memory.peek, Memory.siteOf, Memory.readEvents, List.flatMap_cons, List.flatMap_nil,
    List.append_nil]
  cases s.mem.resolve addr <;> simp [State.raise_eq_logged]

/-- `memWrite` in closed form (20_memory.md R97). -/
theorem memWrite_eq (addr : Addr) (v : Byte) (s : State) :
    memWrite addr v s = (s.setMem (s.mem.write addr v)).logged (s.mem.writeEvents addr) := by
  simp only [memWrite, Memory.write, Memory.writeEvents]
  cases s.mem.resolve addr with
  | none => simp [State.raise_eq_logged]
  | some h => cases hw : h.region.writable <;> simp [State.raise_eq_logged, hw]

/-- Two reads in a row (20_memory.md R101). -/
theorem readPair_eq (loAddr hiAddr : Addr) (s : State) :
    readPair loAddr hiAddr s = (s.mem.peekPair loAddr hiAddr, s.logged (s.mem.readEvents [loAddr, hiAddr])) := by
  simp only [readPair, memRead_eq, State.logged_mem, State.logged_logged, ← Memory.readEvents_append,
    List.singleton_append, Memory.peekPair]

/-- `Read16` in closed form (20_memory.md R102). -/
theorem read16_eq (addr : Addr) (s : State) :
    read16 addr s = (s.mem.peekPair addr (addr + 1#16), s.logged (s.mem.readEvents [addr, addr + 1#16])) :=
  readPair_eq _ _ _

/-! ## Operands -/

/-- The effective address in closed form (30_encoding.md R153-R162). -/
theorem effectiveAddr_eq (m : MemMode) (s : State) :
    effectiveAddr m s = (eaOf m s, s.logged (s.mem.readEvents (eaReads m s))) := by
  cases m <;> simp [effectiveAddr, eaOf, eaReads, zpIndexed, indexed, zpRead16, readPair_eq]

/-- Reading an operand in memory, in closed form (30_encoding.md R164). -/
theorem loadMem_eq (m : MemMode) (s : State) :
    loadMem m s = (s.mem.peek (eaOf m s), s.logged (s.mem.readEvents (eaReads m s ++ [eaOf m s]))) := by
  simp only [loadMem, effectiveAddr_eq, memRead_eq, State.logged_mem, State.logged_logged,
    Memory.readEvents_append]

/-- Reading an operand in closed form (30_encoding.md R152, R164). -/
theorem loadSrc_eq (src : Src) (s : State) :
    loadSrc src s = (operandOf src s, s.logged (s.mem.readEvents (operandReads src s))) := by
  cases src <;> simp [loadSrc, operandOf, operandReads, loadMem_eq]

/-- A store in closed form (20_memory.md R97; 30_encoding.md R164). -/
theorem storeMem_eq (m : MemMode) (v : Byte) (s : State) :
    storeMem m v s =
      (s.setMem (s.mem.write (eaOf m s) v)).logged
        (s.mem.readEvents (eaReads m s) ++ s.mem.writeEvents (eaOf m s)) := by
  simp [storeMem, effectiveAddr_eq, memWrite_eq, State.logged, State.setMem]

/-! ## The stack -/

/-- `Push` in closed form (41_transfer_stack.md R210). -/
theorem push_eq (b : Byte) (s : State) :
    push b s =
      ((s.setMem (s.mem.write (stackAddr s.sp) b)).setSP (s.sp - 1#8)).logged (s.mem.writeEvents (stackAddr s.sp)) := by
  simp [push, memWrite_eq, State.logged, State.setMem, State.setSP]

/-- `Pop` in closed form (41_transfer_stack.md R211). -/
theorem pop_eq (s : State) :
    pop s =
      (s.mem.peek (stackAddr (s.sp + 1#8)),
        (s.setSP (s.sp + 1#8)).logged (s.mem.readEvents [stackAddr (s.sp + 1#8)])) := by
  simp [pop, memRead_eq]

/-- Popping an address in closed form (44_control.md R302). -/
theorem popAddr_eq (s : State) :
    popAddr s =
      (s.mem.peekPair (stackAddr (s.sp + 1#8)) (stackAddr (s.sp + 2#8)),
        (s.setSP (s.sp + 2#8)).logged
          (s.mem.readEvents [stackAddr (s.sp + 1#8), stackAddr (s.sp + 2#8)])) := by
  have h : s.sp + 1#8 + 1#8 = s.sp + 2#8 := by rw [BitVec.add_assoc]; rfl
  simp [popAddr, pop_eq, Memory.peekPair, State.logged, State.setSP, Memory.readEvents, h]

@[simp] theorem Memory.writeEvents_write (m : Memory) (addr : Addr) (v : Byte) (addr' : Addr) :
    (m.write addr v).writeEvents addr' = m.writeEvents addr' := by
  have h := Memory.resolve_map (Memory.map_write m addr v) addr'
  simp only [Memory.writeEvents]
  cases h1 : (m.write addr v).resolve addr' <;> cases h2 : m.resolve addr' <;>
    simp_all [Hit.shape, Region.shape]

/-- Pushing an address in closed form (44_control.md R301). -/
theorem pushAddr_eq (addr : Addr) (s : State) :
    Machine.pushAddr addr s =
      ((s.setMem (s.mem.pushAddr s.sp addr)).setSP (s.sp - 2#8)).logged
        (s.mem.writeEvents (stackAddr s.sp) ++ s.mem.writeEvents (stackAddr (s.sp - 1#8))) := by
  have h : s.sp - 1#8 - 1#8 = s.sp - 2#8 := by bv_omega
  simp [Machine.pushAddr, push_eq, Memory.pushAddr, State.logged, State.setSP, State.setMem, h]

/-- The stack byte's address as a number: it never leaves page 1 (10_state.md R44). -/
theorem stackAddr_eq (sp : Byte) : stackAddr sp = BitVec.ofNat 16 (0x100 + sp.toNat) := by
  apply BitVec.eq_of_toNat_eq
  simp [stackAddr, zext]

/-! ## Stores -/

/-- A write does what a store should (20_memory.md R97). -/
theorem storedAt_write {m : Memory} (hm : m.wf = true) (addr : Addr) (v : Byte) :
    StoredAt m (m.write addr v) addr v :=
  ⟨fun h => by rw [Memory.peek_write hm]; simp [h], fun h => Memory.write_of_not_storable h v,
    fun _ h => Memory.peek_write_ne h v, fun _ h => Memory.byteAt_write_ne h v, Memory.map_write _ _ _,
    Memory.extents_write _ _ _⟩

/-- The events of reads depend on the address map only. -/
theorem Memory.readEvents_map {m n : Memory} (h : m.map = n.map) (addrs : List Addr) :
    m.readEvents addrs = n.readEvents addrs := by
  simp only [Memory.readEvents, Memory.resolve_isSome_map h]

/-- A read-modify-write in closed form: one effective address, read once and written once (30_encoding.md R163). -/
theorem modifyMem_eq (op : AluOp) (m : MemMode) (s : State) :
    modifyMem op m s =
      { s with
        p := maskP (alu s.config.decimalMode op s.a (s.mem.peek (eaOf m s)) s.p).2
        mem := s.mem.write (eaOf m s) (alu s.config.decimalMode op s.a (s.mem.peek (eaOf m s)) s.p).1
        log := s.log ++ s.mem.readEvents (eaReads m s ++ [eaOf m s]) ++ s.mem.writeEvents (eaOf m s) } := by
  simp only [modifyMem, effectiveAddr_eq, memRead_eq, memWrite_eq]
  simp [State.logged, State.setMem, State.setP, Memory.readEvents_append]

end Sys2Proof.Machine
end

