-- ==== Sys2Proof/Laws/Step.lean ====
section
/-! SUPPORT. The fetch in closed form, and, said once for every instruction, what an execution can do to a state. -/

namespace Sys2Proof.Machine

/-! ## Fetch -/

/-- `Fetch()` in closed form (30_encoding.md R141). -/
theorem fetch_eq (s : State) :
    fetch s = (s.mem.peek s.pc, (s.logged (s.mem.readEvents [s.pc])).setPC (s.pc + 1#16)) := by
  simp [fetch, memRead_eq]

/-- The latch's operand depends on the registers and the memory only, not on PC, the log or the latch. -/
theorem resolved_congr (i : Instr) {s t : State} (ha : t.a = s.a) (hx : t.x = s.x) (hy : t.y = s.y)
    (hm : t.mem = s.mem) (hc : t.config = s.config) : resolved i t = resolved i s := by
  have hsrc : ∀ src, resolvedSrc src t = resolvedSrc src s := by
    intro src
    cases src with
    | imm d => rfl
    | mem m => cases m <;> simp [resolvedSrc, resolvedMem, effectiveAddr_eq, eaOf, hx, hy, hm, hc]
  have hmem : ∀ m, resolvedMem m t = resolvedMem m s := fun m => hsrc (.mem m)
  have htarget : ∀ k, resolvedTarget k t = resolvedTarget k s := by
    intro k
    cases k with
    | acc => simp [resolvedTarget, ha]
    | mem m => exact hmem m
  have hjump : ∀ j, (jumpTarget j t).1 = (jumpTarget j s).1 := by
    intro j
    cases j <;> simp [jumpTarget, indRead16, readPair_eq, hm, hc]
  cases i <;> simp [resolved, hsrc, hmem, htarget, hjump]

/-- The fetched instruction and the state in which it executes, when the three bytes from PC on decode to it (R142). -/
theorem fetchInstr_eq {s : State} {i : Instr} {rest : List Byte}
    (h : decode [s.mem.peek s.pc, s.mem.peek (s.pc + 1#16), s.mem.peek (s.pc + 2#16)] = .ok (i, rest)) :
    fetchInstr s = (i, s.fetched i) := by
  have h2 : s.pc + 1#16 + 1#16 = s.pc + 2#16 := by rw [BitVec.add_assoc]; rfl
  have h3 : s.pc + 2#16 + 1#16 = s.pc + 3#16 := by rw [BitVec.add_assoc]; rfl
  have hl := Laws.lookup_agrees (s.mem.peek s.pc)
  simp only [fetchInstr, fetch_eq]
  cases hrow : lookup (s.mem.peek s.pc) with
  | one j =>
    simp only [decode, hrow, Except.ok.injEq, Prod.mk.injEq] at h
    obtain ⟨rfl, -⟩ := h
    rw [hrow] at hl
    have hlen : j.length = 1 := by simp [Instr.length, hl.2.2]
    simp [latchInstr, State.fetched, hlen, addrsFrom, State.logged, State.setPC, State.setLatch]
    rw [resolved_congr j] <;> rfl
  | two f =>
    simp only [decode, hrow, Except.ok.injEq, Prod.mk.injEq] at h
    obtain ⟨rfl, -⟩ := h
    rw [hrow] at hl
    have hlen : ∀ d, (f d).length = 2 := fun d => by simp [Instr.length, (hl d).2.2]
    simp [latchInstr, State.fetched, hlen, addrsFrom, State.logged, State.setPC, State.setLatch, h2,
      ← Memory.readEvents_append]
    rw [resolved_congr (f _)] <;> rfl
  | three f =>
    simp only [decode, hrow, Except.ok.injEq, Prod.mk.injEq] at h
    obtain ⟨rfl, -⟩ := h
    rw [hrow] at hl
    have hlen : ∀ d, (f d).length = 3 := fun d => by simp [Instr.length, (hl d).2.2, addrBytes]
    simp [latchInstr, State.fetched, hlen, addrsFrom, State.logged, State.setPC, State.setLatch, h2, h3,
      ← Memory.readEvents_append]
    rw [resolved_congr (f _)] <;> rfl

/-- Three bytes always begin with an instruction (R142, R177). -/
theorem decode_three (b0 b1 b2 : Byte) : ∃ i rest, decode [b0, b1, b2] = .ok (i, rest) := by
  cases hrow : lookup b0 with
  | one i => exact ⟨i, _, by simp [decode, hrow]; rfl⟩
  | two f => exact ⟨f b1, _, by simp [decode, hrow]; rfl⟩
  | three f => exact ⟨f (pair b2 b1), _, by simp [decode, hrow]; rfl⟩

/-! ## What an execution can do -/

/-- `t` comes from `s` by register writes, masked writes of FLAGS, byte writes through the address map, and events of the
core: everything that an execution can do (10_state.md R58-R60; 20_memory.md R97). -/
structure Evolves (s t : State) : Prop where
  config : t.config = s.config
  engine : t.engine = s.engine
  mem : ∃ ws : List (Addr × Byte), t.mem = ws.foldl (fun m w => m.write w.1 w.2) s.mem
  log : ∃ es, t.log = s.log ++ es ∧ ∀ e ∈ es, e.ofCore = true
  flags : t.p = s.p ∨ t.p.getLsbD 5 = false

/-- The codes of the events that the core raises (60_exceptions.md R341). -/
theorem code_of_ofCore {e : Event} (he : e.ofCore = true) : e.code ∈ [1, 2, 4] := by
  cases e <;> simp_all [Event.ofCore, Event.code]

theorem ofCore_readEvents (m : Memory) (addrs : List Addr) : ∀ e ∈ m.readEvents addrs, e.ofCore = true := by
  intro e he
  simp only [Memory.readEvents, List.mem_flatMap] at he
  obtain ⟨addr, -, he⟩ := he
  split at he <;> simp_all [Event.ofCore]

theorem ofCore_writeEvents (m : Memory) (addr : Addr) : ∀ e ∈ m.writeEvents addr, e.ofCore = true := by
  intro e he
  simp only [Memory.writeEvents] at he
  split at he
  · split at he <;> simp_all [Event.ofCore]
  · simp_all [Event.ofCore]

namespace Evolves

variable {s t : State}

theorem refl (s : State) : Evolves s s := ⟨rfl, rfl, ⟨[], rfl⟩, ⟨[], by simp⟩, .inl rfl⟩

theorem setPC (h : Evolves s t) (v : Addr) : Evolves s (t.setPC v) := ⟨h.1, h.2, h.3, h.4, h.5⟩
theorem setSP (h : Evolves s t) (v : Byte) : Evolves s (t.setSP v) := ⟨h.1, h.2, h.3, h.4, h.5⟩
theorem setA (h : Evolves s t) (v : Byte) : Evolves s (t.setA v) := ⟨h.1, h.2, h.3, h.4, h.5⟩
theorem setX (h : Evolves s t) (v : Byte) : Evolves s (t.setX v) := ⟨h.1, h.2, h.3, h.4, h.5⟩
theorem setY (h : Evolves s t) (v : Byte) : Evolves s (t.setY v) := ⟨h.1, h.2, h.3, h.4, h.5⟩
theorem setP (h : Evolves s t) (v : Byte) : Evolves s (t.setP v) := ⟨h.1, h.2, h.3, h.4, .inr (maskP_bit5 v)⟩
theorem setNZ (h : Evolves s t) (v : Byte) : Evolves s (t.setNZ v) := h.setP _
theorem setLatch (h : Evolves s t) (l : DecodedInstr) : Evolves s (t.setLatch l) := ⟨h.1, h.2, h.3, h.4, h.5⟩

theorem logged (h : Evolves s t) {es : List Event} (hes : ∀ e ∈ es, e.ofCore = true) : Evolves s (t.logged es) := by
  obtain ⟨fs, hfs, hcore⟩ := h.log
  refine ⟨h.1, h.2, h.3, ⟨fs ++ es, by simp [hfs], ?_⟩, h.5⟩
  intro e he
  rcases List.mem_append.mp he with he | he
  · exact hcore e he
  · exact hes e he

theorem raise (h : Evolves s t) {e : Event} (he : e.ofCore = true) : Evolves s (t.raise e) :=
  h.logged (es := [e]) (by simpa using he)

theorem write (h : Evolves s t) (addr : Addr) (v : Byte) : Evolves s (t.setMem (t.mem.write addr v)) := by
  obtain ⟨ws, hws⟩ := h.mem
  exact ⟨h.1, h.2, ⟨ws ++ [(addr, v)], by simp [hws]⟩, h.4, h.5⟩

theorem memRead (h : Evolves s t) (addr : Addr) : Evolves s (memRead addr t).2 := by
  rw [memRead_eq]
  exact h.logged (ofCore_readEvents _ _)

theorem memWrite (h : Evolves s t) (addr : Addr) (v : Byte) : Evolves s (memWrite addr v t) := by
  rw [memWrite_eq]
  exact (h.write addr v).logged (ofCore_writeEvents _ _)

theorem readPair (h : Evolves s t) (loAddr hiAddr : Addr) : Evolves s (readPair loAddr hiAddr t).2 := by
  rw [readPair_eq]
  exact h.logged (ofCore_readEvents _ _)

theorem effectiveAddr (h : Evolves s t) (m : MemMode) : Evolves s (effectiveAddr m t).2 := by
  rw [effectiveAddr_eq]
  exact h.logged (ofCore_readEvents _ _)

theorem loadMem (h : Evolves s t) (m : MemMode) : Evolves s (loadMem m t).2 := (h.effectiveAddr m).memRead _

theorem loadSrc (h : Evolves s t) (src : Src) : Evolves s (loadSrc src t).2 := by
  cases src with
  | imm d => exact h
  | mem m => exact h.loadMem m

theorem storeMem (h : Evolves s t) (m : MemMode) (v : Byte) : Evolves s (storeMem m v t) :=
  (h.effectiveAddr m).memWrite _ _

theorem push (h : Evolves s t) (b : Byte) : Evolves s (push b t) := (h.memWrite _ _).setSP _

theorem pop (h : Evolves s t) : Evolves s (pop t).2 := (h.setSP _).memRead _

theorem pushAddr (h : Evolves s t) (addr : Addr) : Evolves s (pushAddr addr t) := (h.push _).push _

theorem popAddr (h : Evolves s t) : Evolves s (popAddr t).2 := h.pop.pop

theorem takeBreak (h : Evolves s t) (ret : Addr) : Evolves s (takeBreak ret t) :=
  ((((h.pushAddr ret).push _).setP _).readPair _ _).setPC _

theorem returnFromBreak (h : Evolves s t) : Evolves s (returnFromBreak t) := ((h.pop.setP _).popAddr).setPC _

theorem aluToA (h : Evolves s t) (op : AluOp) (m : Byte) : Evolves s (aluToA op m t) := (h.setA _).setP _

theorem aluToFlags (h : Evolves s t) (op : AluOp) (reg m : Byte) : Evolves s (aluToFlags op reg m t) := h.setP _

theorem modifyMem (h : Evolves s t) (op : AluOp) (m : MemMode) : Evolves s (modifyMem op m t) :=
  (((h.effectiveAddr m).memRead _).setP _).memWrite _ _

theorem shiftTarget (h : Evolves s t) (op : AluOp) (k : Target) : Evolves s (shiftTarget op k t) := by
  cases k with
  | acc => exact h.aluToA op _
  | mem m => exact h.modifyMem op m

theorem branch (h : Evolves s t) (cond : Bool) (rr : Byte) : Evolves s (branch cond rr t) := by
  cases cond with
  | false => exact h
  | true => exact h.setPC _

theorem jumpTarget (h : Evolves s t) (j : JumpMode) : Evolves s (jumpTarget j t).2 := by
  cases j with
  | abs d => exact h
  | ind d => exact h.readPair _ _

theorem fetch (h : Evolves s t) : Evolves s (fetch t).2 := (h.memRead _).setPC _

end Evolves

/-- Every instruction, in every state, has a next state, and gets there by register writes, byte writes through the address
map and events of the core alone. -/
theorem exec_evolves (i : Instr) (s : State) : ∃ t, exec i s = .next t ∧ Evolves s t := by
  have h := Evolves.refl s
  cases i with
  | lda src => exact ⟨_, rfl, ((h.loadSrc src).setA _).setNZ _⟩
  | ldx src => exact ⟨_, rfl, ((h.loadSrc src).setX _).setNZ _⟩
  | ldy src => exact ⟨_, rfl, ((h.loadSrc src).setY _).setNZ _⟩
  | sta m => exact ⟨_, rfl, h.storeMem m _⟩
  | stx m => exact ⟨_, rfl, h.storeMem m _⟩
  | sty m => exact ⟨_, rfl, h.storeMem m _⟩
  | tax => exact ⟨_, rfl, (h.setX _).setNZ _⟩
  | tay => exact ⟨_, rfl, (h.setY _).setNZ _⟩
  | txa => exact ⟨_, rfl, (h.setA _).setNZ _⟩
  | tya => exact ⟨_, rfl, (h.setA _).setNZ _⟩
  | tsx => exact ⟨_, rfl, (h.setX _).setNZ _⟩
  | txs => exact ⟨_, rfl, h.setSP _⟩
  | php => exact ⟨_, rfl, h.push _⟩
  | pha => exact ⟨_, rfl, h.push _⟩
  | pla => exact ⟨_, rfl, (h.pop.setA _).setNZ _⟩
  | plp => exact ⟨_, rfl, h.pop.setP _⟩
  | adc src => exact ⟨_, rfl, (h.loadSrc src).aluToA _ _⟩
  | sbc src => exact ⟨_, rfl, (h.loadSrc src).aluToA _ _⟩
  | cmp src => exact ⟨_, rfl, (h.loadSrc src).aluToFlags _ _ _⟩
  | cpx src => exact ⟨_, rfl, (h.loadSrc src).aluToFlags _ _ _⟩
  | cpy src => exact ⟨_, rfl, (h.loadSrc src).aluToFlags _ _ _⟩
  | and src => exact ⟨_, rfl, (h.loadSrc src).aluToA _ _⟩
  | ora src => exact ⟨_, rfl, (h.loadSrc src).aluToA _ _⟩
  | eor src => exact ⟨_, rfl, (h.loadSrc src).aluToA _ _⟩
  | bit m => exact ⟨_, rfl, (h.loadMem m).aluToFlags _ _ _⟩
  | asl k => exact ⟨_, rfl, h.shiftTarget _ k⟩
  | lsr k => exact ⟨_, rfl, h.shiftTarget _ k⟩
  | rol k => exact ⟨_, rfl, h.shiftTarget _ k⟩
  | ror k => exact ⟨_, rfl, h.shiftTarget _ k⟩
  | inc m => exact ⟨_, rfl, h.modifyMem _ m⟩
  | dec m => exact ⟨_, rfl, h.modifyMem _ m⟩
  | inx => exact ⟨_, rfl, (h.setX _).setNZ _⟩
  | iny => exact ⟨_, rfl, (h.setY _).setNZ _⟩
  | dex => exact ⟨_, rfl, (h.setX _).setNZ _⟩
  | dey => exact ⟨_, rfl, (h.setY _).setNZ _⟩
  | bpl rr => exact ⟨_, rfl, h.branch _ rr⟩
  | bmi rr => exact ⟨_, rfl, h.branch _ rr⟩
  | bvc rr => exact ⟨_, rfl, h.branch _ rr⟩
  | bvs rr => exact ⟨_, rfl, h.branch _ rr⟩
  | bcc rr => exact ⟨_, rfl, h.branch _ rr⟩
  | bcs rr => exact ⟨_, rfl, h.branch _ rr⟩
  | bne rr => exact ⟨_, rfl, h.branch _ rr⟩
  | beq rr => exact ⟨_, rfl, h.branch _ rr⟩
  | jmp j => exact ⟨_, rfl, (h.jumpTarget j).setPC _⟩
  | jsr d => exact ⟨_, rfl, (h.pushAddr _).setPC _⟩
  | rts => exact ⟨_, rfl, h.popAddr.setPC _⟩
  | rti => exact ⟨_, rfl, h.returnFromBreak⟩
  | brk => exact ⟨_, rfl, h.takeBreak _⟩
  | clc => exact ⟨_, rfl, h.setP _⟩
  | sec => exact ⟨_, rfl, h.setP _⟩
  | cli => exact ⟨_, rfl, h.setP _⟩
  | sei => exact ⟨_, rfl, h.setP _⟩
  | cld => exact ⟨_, rfl, h.setP _⟩
  | sed => exact ⟨_, rfl, h.setP _⟩
  | clv => exact ⟨_, rfl, h.setP _⟩
  | nop => exact ⟨_, rfl, h⟩
  | unknown op => exact ⟨_, rfl, h.raise rfl⟩

/-! ## What follows from it -/

theorem map_writes (ws : List (Addr × Byte)) (m : Memory) :
    (ws.foldl (fun m w => m.write w.1 w.2) m).map = m.map := by
  induction ws generalizing m with
  | nil => rfl
  | cons w ws ih => rw [List.foldl_cons, ih, Memory.map_write]

theorem wf_writes (ws : List (Addr × Byte)) {m : Memory} (h : m.wf = true) :
    (ws.foldl (fun m w => m.write w.1 w.2) m).wf = true := by
  induction ws generalizing m with
  | nil => exact h
  | cons w ws ih => exact ih (Memory.wf_write w.1 w.2 h)

theorem readOnly_region_writes (ws : List (Addr × Byte)) {m : Memory} {k : Nat} {r : Region} {cells : Cells}
    (hk : m.regions[k]? = some r) (hw : r.writable = false) (hs : r.storage = .owned cells) :
    (ws.foldl (fun m w => m.write w.1 w.2) m).regions[k]? = some r := by
  induction ws generalizing m with
  | nil => exact hk
  | cons w ws ih => exact ih (Memory.write_readOnly_region hk hw hs w.1 w.2)

theorem Evolves.map {s t : State} (h : Evolves s t) : t.mem.map = s.mem.map := by
  obtain ⟨ws, hws⟩ := h.mem
  rw [hws, map_writes]

theorem Evolves.inv {s t : State} (h : Evolves s t) (hs : s.Inv) : t.Inv := by
  obtain ⟨ws, hws⟩ := h.mem
  refine ⟨?_, ?_⟩
  · rcases h.flags with hp | hp
    · rw [hp]; exact hs.1
    · exact hp
  · rw [hws]
    exact wf_writes ws hs.2

end Sys2Proof.Machine
end

