-- ==== Sys2Proof/Tests/Slice0.lean ====
section
/-! SUPPORT. The model's own tests. Every expected value is the spec's: a row of 95_test_vectors.md, an example of a rule, or
a row of the opcode table of 30_encoding.md R170. The last part gives, for each obligation with hypotheses, a state and
operands that meet them. -/

namespace Sys2Proof.Tests

open Sys2Proof.Machine

/-! ## Which terms are instructions -/

/-- Each check of Instr.wellFormed refuses a mode that R172 does not list. -/
theorem test_wellFormed_refuses :
    (Instr.sta (.zpY 0x10#8)).wellFormed = false ∧ (Instr.inc (.absY 0x2000#16)).wellFormed = false ∧
    (Instr.ldx (.mem (.zpX 0x10#8))).wellFormed = false ∧ (Instr.stx (.absY 0x2000#16)).wellFormed = false ∧
    (Instr.sty (.absX 0x2000#16)).wellFormed = false ∧ (Instr.bit (.zpX 0x10#8)).wellFormed = false ∧
    (Instr.adc (.mem (.zpY 0x10#8))).wellFormed = false ∧ (Instr.asl (.mem (.indX 0x10#8))).wellFormed = false ∧
    (Instr.cpx (.mem (.indY 0x10#8))).wellFormed = false ∧ (Instr.unknown 0xEA#8).wellFormed = false := by
  decide

/-- What is refused has no encoding. -/
theorem test_encode_refuses :
    encode (.sta (.zpY 0x10#8)) = none ∧ encode (.bit (.absX 0x2000#16)) = none ∧ encode (.unknown 0xEA#8) = none := by
  decide

/-- A Machine is not well-formed for boot when its ROM stops short of the top of the space, when its image has no room for
the vectors, or when RAM stops below the stack page (R390). -/
theorem test_bootWellFormed_refuses :
    Config.default.bootWellFormed = true ∧
    { Config.default with romImage := { size := 0x2FFF, cells := [] } }.bootWellFormed = false ∧
    { Config.default with romBase := 0xFFFB#16, romImage := { size := 5, cells := [] } }.bootWellFormed = false ∧
    { Config.default with romBase := 0x0100#16, romImage := { size := 0xFF00, cells := [] } }.bootWellFormed = false := by
  decide

/-- A built Machine is not well-formed for boot when its image did not open, or once its ROM or its RAM is unmapped; an
overlay over its vectors does not change that (R390). -/
theorem test_machine_bootWellFormed :
    State.reset.bootWellFormed = true ∧ (State.build Config.default false).bootWellFormed = false ∧
    (unmap romId State.reset).2.bootWellFormed = false ∧ (unmap ramId State.reset).2.bootWellFormed = false ∧
    (mapZeroed overlayId 0xFFF0#16 16 true State.reset).bootWellFormed = true := by
  decide

/-! ## Decoding: every row of R170, and Unknown bytes of R176 -/

/-- Every listed word decodes to its instruction, and encodes back. -/
def decodesAll (rows : List (List Byte × Instr)) : Bool :=
  rows.all fun row =>
    (match decode row.1 with
      | .ok r => decide (r = (row.2, []))
      | .error _ => false) && decide (encode row.2 = some row.1)

theorem test_decode_load_and_store_1 : decodesAll
    [([0xA1#8, 0x12#8], .lda (.mem (.indX 0x12#8))), ([0xA5#8, 0x12#8], .lda (.mem (.zp 0x12#8))),
      ([0xA9#8, 0x12#8], .lda (.imm 0x12#8)), ([0xAD#8, 0x12#8, 0x34#8], .lda (.mem (.abs 0x3412#16))),
      ([0xB1#8, 0x12#8], .lda (.mem (.indY 0x12#8))), ([0xB5#8, 0x12#8], .lda (.mem (.zpX 0x12#8))),
      ([0xB9#8, 0x12#8, 0x34#8], .lda (.mem (.absY 0x3412#16))),
      ([0xBD#8, 0x12#8, 0x34#8], .lda (.mem (.absX 0x3412#16))), ([0xA2#8, 0x12#8], .ldx (.imm 0x12#8)),
      ([0xA6#8, 0x12#8], .ldx (.mem (.zp 0x12#8))), ([0xAE#8, 0x12#8, 0x34#8], .ldx (.mem (.abs 0x3412#16))),
      ([0xB6#8, 0x12#8], .ldx (.mem (.zpY 0x12#8))), ([0xBE#8, 0x12#8, 0x34#8], .ldx (.mem (.absY 0x3412#16))),
      ([0xA0#8, 0x12#8], .ldy (.imm 0x12#8)), ([0xA4#8, 0x12#8], .ldy (.mem (.zp 0x12#8))),
      ([0xAC#8, 0x12#8, 0x34#8], .ldy (.mem (.abs 0x3412#16))), ([0xB4#8, 0x12#8], .ldy (.mem (.zpX 0x12#8))),
      ([0xBC#8, 0x12#8, 0x34#8], .ldy (.mem (.absX 0x3412#16))), ([0x81#8, 0x12#8], .sta (.indX 0x12#8)),
      ([0x85#8, 0x12#8], .sta (.zp 0x12#8))] = true := by
  decide

theorem test_decode_load_and_store_2 : decodesAll
    [([0x8D#8, 0x12#8, 0x34#8], .sta (.abs 0x3412#16)), ([0x91#8, 0x12#8], .sta (.indY 0x12#8)),
      ([0x95#8, 0x12#8], .sta (.zpX 0x12#8)), ([0x99#8, 0x12#8, 0x34#8], .sta (.absY 0x3412#16)),
      ([0x9D#8, 0x12#8, 0x34#8], .sta (.absX 0x3412#16)), ([0x86#8, 0x12#8], .stx (.zp 0x12#8)),
      ([0x8E#8, 0x12#8, 0x34#8], .stx (.abs 0x3412#16)), ([0x96#8, 0x12#8], .stx (.zpY 0x12#8)),
      ([0x84#8, 0x12#8], .sty (.zp 0x12#8)), ([0x8C#8, 0x12#8, 0x34#8], .sty (.abs 0x3412#16)),
      ([0x94#8, 0x12#8], .sty (.zpX 0x12#8))] = true := by
  decide

theorem test_decode_transfer_and_stack : decodesAll
    [([0x48#8], .pha), ([0x08#8], .php), ([0x68#8], .pla), ([0x28#8], .plp), ([0xAA#8], .tax), ([0xA8#8], .tay),
      ([0xBA#8], .tsx), ([0x8A#8], .txa), ([0x9A#8], .txs), ([0x98#8], .tya)] = true := by
  decide

theorem test_decode_arithmetic_1 : decodesAll
    [([0x61#8, 0x12#8], .adc (.mem (.indX 0x12#8))), ([0x65#8, 0x12#8], .adc (.mem (.zp 0x12#8))),
      ([0x69#8, 0x12#8], .adc (.imm 0x12#8)), ([0x6D#8, 0x12#8, 0x34#8], .adc (.mem (.abs 0x3412#16))),
      ([0x71#8, 0x12#8], .adc (.mem (.indY 0x12#8))), ([0x75#8, 0x12#8], .adc (.mem (.zpX 0x12#8))),
      ([0x79#8, 0x12#8, 0x34#8], .adc (.mem (.absY 0x3412#16))),
      ([0x7D#8, 0x12#8, 0x34#8], .adc (.mem (.absX 0x3412#16))), ([0xC1#8, 0x12#8], .cmp (.mem (.indX 0x12#8))),
      ([0xC5#8, 0x12#8], .cmp (.mem (.zp 0x12#8))), ([0xC9#8, 0x12#8], .cmp (.imm 0x12#8)),
      ([0xCD#8, 0x12#8, 0x34#8], .cmp (.mem (.abs 0x3412#16))), ([0xD1#8, 0x12#8], .cmp (.mem (.indY 0x12#8))),
      ([0xD5#8, 0x12#8], .cmp (.mem (.zpX 0x12#8))), ([0xD9#8, 0x12#8, 0x34#8], .cmp (.mem (.absY 0x3412#16))),
      ([0xDD#8, 0x12#8, 0x34#8], .cmp (.mem (.absX 0x3412#16))), ([0xE0#8, 0x12#8], .cpx (.imm 0x12#8)),
      ([0xE4#8, 0x12#8], .cpx (.mem (.zp 0x12#8))), ([0xEC#8, 0x12#8, 0x34#8], .cpx (.mem (.abs 0x3412#16))),
      ([0xC0#8, 0x12#8], .cpy (.imm 0x12#8))] = true := by
  decide

theorem test_decode_arithmetic_2 : decodesAll
    [([0xC4#8, 0x12#8], .cpy (.mem (.zp 0x12#8))), ([0xCC#8, 0x12#8, 0x34#8], .cpy (.mem (.abs 0x3412#16))),
      ([0xE1#8, 0x12#8], .sbc (.mem (.indX 0x12#8))), ([0xE5#8, 0x12#8], .sbc (.mem (.zp 0x12#8))),
      ([0xE9#8, 0x12#8], .sbc (.imm 0x12#8)), ([0xED#8, 0x12#8, 0x34#8], .sbc (.mem (.abs 0x3412#16))),
      ([0xF1#8, 0x12#8], .sbc (.mem (.indY 0x12#8))), ([0xF5#8, 0x12#8], .sbc (.mem (.zpX 0x12#8))),
      ([0xF9#8, 0x12#8, 0x34#8], .sbc (.mem (.absY 0x3412#16))),
      ([0xFD#8, 0x12#8, 0x34#8], .sbc (.mem (.absX 0x3412#16)))] = true := by
  decide

theorem test_decode_logic_1 : decodesAll
    [([0x21#8, 0x12#8], .and (.mem (.indX 0x12#8))), ([0x25#8, 0x12#8], .and (.mem (.zp 0x12#8))),
      ([0x29#8, 0x12#8], .and (.imm 0x12#8)), ([0x2D#8, 0x12#8, 0x34#8], .and (.mem (.abs 0x3412#16))),
      ([0x31#8, 0x12#8], .and (.mem (.indY 0x12#8))), ([0x35#8, 0x12#8], .and (.mem (.zpX 0x12#8))),
      ([0x39#8, 0x12#8, 0x34#8], .and (.mem (.absY 0x3412#16))),
      ([0x3D#8, 0x12#8, 0x34#8], .and (.mem (.absX 0x3412#16))), ([0x24#8, 0x12#8], .bit (.zp 0x12#8)),
      ([0x2C#8, 0x12#8, 0x34#8], .bit (.abs 0x3412#16)), ([0x41#8, 0x12#8], .eor (.mem (.indX 0x12#8))),
      ([0x45#8, 0x12#8], .eor (.mem (.zp 0x12#8))), ([0x49#8, 0x12#8], .eor (.imm 0x12#8)),
      ([0x4D#8, 0x12#8, 0x34#8], .eor (.mem (.abs 0x3412#16))), ([0x51#8, 0x12#8], .eor (.mem (.indY 0x12#8))),
      ([0x55#8, 0x12#8], .eor (.mem (.zpX 0x12#8))), ([0x59#8, 0x12#8, 0x34#8], .eor (.mem (.absY 0x3412#16))),
      ([0x5D#8, 0x12#8, 0x34#8], .eor (.mem (.absX 0x3412#16))), ([0x01#8, 0x12#8], .ora (.mem (.indX 0x12#8))),
      ([0x05#8, 0x12#8], .ora (.mem (.zp 0x12#8)))] = true := by
  decide

theorem test_decode_logic_2 : decodesAll
    [([0x09#8, 0x12#8], .ora (.imm 0x12#8)), ([0x0D#8, 0x12#8, 0x34#8], .ora (.mem (.abs 0x3412#16))),
      ([0x11#8, 0x12#8], .ora (.mem (.indY 0x12#8))), ([0x15#8, 0x12#8], .ora (.mem (.zpX 0x12#8))),
      ([0x19#8, 0x12#8, 0x34#8], .ora (.mem (.absY 0x3412#16))),
      ([0x1D#8, 0x12#8, 0x34#8], .ora (.mem (.absX 0x3412#16)))] = true := by
  decide

theorem test_decode_shift : decodesAll
    [([0x06#8, 0x12#8], .asl (.mem (.zp 0x12#8))), ([0x0A#8], .asl .acc),
      ([0x0E#8, 0x12#8, 0x34#8], .asl (.mem (.abs 0x3412#16))), ([0x16#8, 0x12#8], .asl (.mem (.zpX 0x12#8))),
      ([0x1E#8, 0x12#8, 0x34#8], .asl (.mem (.absX 0x3412#16))), ([0x46#8, 0x12#8], .lsr (.mem (.zp 0x12#8))),
      ([0x4A#8], .lsr .acc), ([0x4E#8, 0x12#8, 0x34#8], .lsr (.mem (.abs 0x3412#16))),
      ([0x56#8, 0x12#8], .lsr (.mem (.zpX 0x12#8))), ([0x5E#8, 0x12#8, 0x34#8], .lsr (.mem (.absX 0x3412#16))),
      ([0x26#8, 0x12#8], .rol (.mem (.zp 0x12#8))), ([0x2A#8], .rol .acc),
      ([0x2E#8, 0x12#8, 0x34#8], .rol (.mem (.abs 0x3412#16))), ([0x36#8, 0x12#8], .rol (.mem (.zpX 0x12#8))),
      ([0x3E#8, 0x12#8, 0x34#8], .rol (.mem (.absX 0x3412#16))), ([0x66#8, 0x12#8], .ror (.mem (.zp 0x12#8))),
      ([0x6A#8], .ror .acc), ([0x6E#8, 0x12#8, 0x34#8], .ror (.mem (.abs 0x3412#16))),
      ([0x76#8, 0x12#8], .ror (.mem (.zpX 0x12#8))), ([0x7E#8, 0x12#8, 0x34#8], .ror (.mem (.absX 0x3412#16)))] = true := by
  decide

theorem test_decode_increment : decodesAll
    [([0xC6#8, 0x12#8], .dec (.zp 0x12#8)), ([0xCE#8, 0x12#8, 0x34#8], .dec (.abs 0x3412#16)),
      ([0xD6#8, 0x12#8], .dec (.zpX 0x12#8)), ([0xDE#8, 0x12#8, 0x34#8], .dec (.absX 0x3412#16)), ([0xCA#8], .dex),
      ([0x88#8], .dey), ([0xE6#8, 0x12#8], .inc (.zp 0x12#8)), ([0xEE#8, 0x12#8, 0x34#8], .inc (.abs 0x3412#16)),
      ([0xF6#8, 0x12#8], .inc (.zpX 0x12#8)), ([0xFE#8, 0x12#8, 0x34#8], .inc (.absX 0x3412#16)), ([0xE8#8], .inx),
      ([0xC8#8], .iny)] = true := by
  decide

theorem test_decode_control : decodesAll
    [([0x90#8, 0x12#8], .bcc 0x12#8), ([0xB0#8, 0x12#8], .bcs 0x12#8), ([0xF0#8, 0x12#8], .beq 0x12#8),
      ([0x30#8, 0x12#8], .bmi 0x12#8), ([0xD0#8, 0x12#8], .bne 0x12#8), ([0x10#8, 0x12#8], .bpl 0x12#8),
      ([0x00#8], .brk), ([0x50#8, 0x12#8], .bvc 0x12#8), ([0x70#8, 0x12#8], .bvs 0x12#8),
      ([0x4C#8, 0x12#8, 0x34#8], .jmp (.abs 0x3412#16)), ([0x6C#8, 0x12#8, 0x34#8], .jmp (.ind 0x3412#16)),
      ([0x20#8, 0x12#8, 0x34#8], .jsr 0x3412#16), ([0x40#8], .rti), ([0x60#8], .rts)] = true := by
  decide

theorem test_decode_flag : decodesAll
    [([0x18#8], .clc), ([0xD8#8], .cld), ([0x58#8], .cli), ([0xB8#8], .clv), ([0xEA#8], .nop), ([0x38#8], .sec),
      ([0xF8#8], .sed), ([0x78#8], .sei)] = true := by
  decide

theorem test_decode_unknown : decodesAll
    [([0x02#8], .unknown 0x02#8), ([0x0C#8], .unknown 0x0C#8), ([0x80#8], .unknown 0x80#8),
      ([0x9C#8], .unknown 0x9C#8), ([0xFF#8], .unknown 0xFF#8)] = true := by
  decide

/-- The decoder names what is missing. -/
theorem test_decode_short : decode [] = .error .noOpcode ∧ decode [0xA9#8] = .error (.missingOperand 0xA9#8) ∧
    decode [0x4C#8, 0x00#8] = .error (.missingOperand 0x4C#8) := by
  decide

/-- Table words: bit 0 is bit 0 of the opcode, and the bits above nbits are 0. -/
theorem test_decodeTableWord :
    decodeTableWord 8 0xEA = some .nop ∧ decodeTableWord 16 0x80A9 = some (.lda (.imm 0x80#8)) ∧
    decodeTableWord 24 0xABCD20 = some (.jsr 0xABCD#16) ∧ decodeTableWord 8 0x80A9 = some (.lda (.imm 0x00#8)) := by
  decide

/-! ## Layouts S and U, and one step -/

/-- A machine of default configuration, Running at 0x0300 with the other registers at the values of R40. -/
def running (mem : Memory) : State := { State.reset with pc := 0x0300#16, engine := .running, mem := mem }

/-- Layout S: RAM below 0xD000, a ROM at 0xD000 with 0x5A in its first byte and the vectors 0x0300 and 0x0400. -/
def layoutS (ram : Cells) : Memory :=
  { regions :=
      [{ id := ramId, base := 0x0000#16, size := 0xD000, storage := .owned ram, writable := true },
       { id := romId, base := 0xD000#16, size := 0x3000,
         storage := .owned [(0, 0x5A#8), (0x2FFD, 0x03#8), (0x2FFF, 0x04#8)], writable := false }]
    buffers := []
    files := [] }

/-- Layout U: RAM below 0x8000 and nothing above. -/
def layoutU (ram : Cells) : Memory :=
  { regions :=
      [{ id := ramId, base := 0x0000#16, size := 0x8000, storage := .owned ram, writable := true }]
    buffers := []
    files := [] }

/-- A Running machine with an instruction at 0x0300 and some bytes of RAM. -/
def start (layout : Cells → Memory) (code : List Byte) (ram : List (Nat × Byte)) : State :=
  running (layout (ram.foldl (fun cs c => Cells.put cs c.1 c.2) (Cells.ofBytesFrom 0x0300 code)))

/-- The six registers. -/
structure Regs where
  pc : Addr
  sp : Byte
  a : Byte
  x : Byte
  y : Byte
  p : Byte
  deriving DecidableEq, Repr

/-- The registers of a state. -/
def regsOf (s : State) : Regs := { pc := s.pc, sp := s.sp, a := s.a, x := s.x, y := s.y, p := s.p }

/-- One step leaves the registers as `regs` says, exactly the listed bytes written, and exactly the listed events. -/
def stepGives (s : State) (regs : Regs → Regs) (bytes : List (Addr × Byte)) (events : List Event) : Bool :=
  match step s with
  | .next t =>
    decide (regsOf t = regs (regsOf s)) && decide (t.log = s.log ++ events) &&
      (bytes.all fun b => decide (t.mem.peek b.1 = b.2)) &&
      decide (t.mem = bytes.foldl (fun m b => m.write b.1 b.2) s.mem)
  | .fault _ | .refused _ => false

/-! ## One step per instruction -/

/-! ### Loads and stores -/

/-- Row 40-2 (R190). -/
theorem test_lda_imm_negative :
    stepGives (start layoutS [0xA9#8, 0x80#8] [])
      (fun r => { r with pc := 0x0302#16, a := 0x80#8, p := 0x84#8 }) [] [] = true := by
  decide

/-- Row 40-3 (R190). -/
theorem test_lda_abs_unmapped :
    stepGives (start layoutU [0xAD#8, 0x00#8, 0x90#8] [])
      (fun r => { r with pc := 0x0303#16, p := 0x06#8 }) [] [.unmappedAccess .read 0x9000#16] = true := by
  decide

/-- Row 40-4 (R191). -/
theorem test_ldx_imm :
    stepGives (start layoutS [0xA2#8, 0xFF#8] [])
      (fun r => { r with pc := 0x0302#16, x := 0xFF#8, p := 0x84#8 }) [] [] = true := by
  decide

/-- Row 40-5 (R192). -/
theorem test_ldy_absX :
    stepGives { start layoutS [0xBC#8, 0x00#8, 0x20#8] [(0x2005, 0x01#8)] with x := 0x05#8 }
      (fun r => { r with pc := 0x0303#16, y := 0x01#8 }) [] [] = true := by
  decide

/-- Row 40-8 (R193). -/
theorem test_sta_indY :
    stepGives { start layoutS [0x91#8, 0x40#8] [(0x0040, 0x00#8), (0x0041, 0x12#8)] with a := 0x77#8, y := 0x03#8 }
      (fun r => { r with pc := 0x0302#16 }) [(0x1203#16, 0x77#8)] [] = true := by
  decide

/-- Row 40-9 (R193). -/
theorem test_sta_abs_unmapped :
    stepGives { start layoutU [0x8D#8, 0x00#8, 0x90#8] [] with a := 0x11#8 }
      (fun r => { r with pc := 0x0303#16 }) [] [.unmappedAccess .write 0x9000#16] = true := by
  decide

/-- Row 40-10 (R194). -/
theorem test_stx_zpY :
    stepGives { start layoutS [0x96#8, 0x10#8] [] with x := 0xAB#8, y := 0x05#8 }
      (fun r => { r with pc := 0x0302#16 }) [(0x0015#16, 0xAB#8)] [] = true := by
  decide

/-- Row 40-11 (R195). -/
theorem test_sty_abs :
    stepGives { start layoutS [0x8C#8, 0x34#8, 0x12#8] [] with y := 0xCD#8 }
      (fun r => { r with pc := 0x0303#16 }) [(0x1234#16, 0xCD#8)] [] = true := by
  decide

/-! ### Transfers and the stack -/

/-- Row 41-1 (R212). -/
theorem test_tax :
    stepGives { start layoutS [0xAA#8] [] with a := 0x80#8 }
      (fun r => { r with pc := 0x0301#16, x := 0x80#8, p := 0x84#8 }) [] [] = true := by
  decide

/-- Row 41-2 (R213). -/
theorem test_tay_zero :
    stepGives { start layoutS [0xA8#8] [] with a := 0x00#8, y := 0x55#8 }
      (fun r => { r with pc := 0x0301#16, y := 0x00#8, p := 0x06#8 }) [] [] = true := by
  decide

/-- Row 41-3 (R214). -/
theorem test_txa :
    stepGives { start layoutS [0x8A#8] [] with x := 0x7F#8 }
      (fun r => { r with pc := 0x0301#16, a := 0x7F#8 }) [] [] = true := by
  decide

/-- Row 41-4 (R215). -/
theorem test_tya :
    stepGives { start layoutS [0x98#8] [] with y := 0xFE#8 }
      (fun r => { r with pc := 0x0301#16, a := 0xFE#8, p := 0x84#8 }) [] [] = true := by
  decide

/-- Row 41-5 (R216). -/
theorem test_tsx :
    stepGives { start layoutS [0xBA#8] [] with sp := 0xFD#8 }
      (fun r => { r with pc := 0x0301#16, x := 0xFD#8, p := 0x84#8 }) [] [] = true := by
  decide

/-- Row 41-6 (R217). -/
theorem test_txs_no_flag :
    stepGives { start layoutS [0x9A#8] [] with x := 0x00#8, p := 0x84#8 }
      (fun r => { r with pc := 0x0301#16, sp := 0x00#8 }) [] [] = true := by
  decide

/-- Row 41-7 (R219). -/
theorem test_pha_wraps :
    stepGives { start layoutS [0x48#8] [] with sp := 0x00#8, a := 0x5A#8 }
      (fun r => { r with pc := 0x0301#16, sp := 0xFF#8 }) [(0x0100#16, 0x5A#8)] [] = true := by
  decide

/-- Row 41-8 (R220). -/
theorem test_pla_wraps :
    stepGives { start layoutS [0x68#8] [(0x0100, 0x80#8)] with sp := 0xFF#8 }
      (fun r => { r with pc := 0x0301#16, sp := 0x00#8, a := 0x80#8, p := 0x84#8 }) [] [] = true := by
  decide

/-- Row 41-9 (R218). -/
theorem test_php_bits_4_5 :
    stepGives { start layoutS [0x08#8] [] with p := 0x04#8 }
      (fun r => { r with pc := 0x0301#16, sp := 0xFC#8 }) [(0x01FD#16, 0x34#8)] [] = true := by
  decide

/-- Row 41-10 (R221). -/
theorem test_plp_bit_5 :
    stepGives { start layoutS [0x28#8] [(0x01FD, 0xFF#8)] with sp := 0xFC#8 }
      (fun r => { r with pc := 0x0301#16, sp := 0xFD#8, p := 0xDF#8 }) [] [] = true := by
  decide

/-! ### Arithmetic -/

/-- Row 42-1 (R240). -/
theorem test_adc_overflow :
    stepGives { start layoutS [0x69#8, 0x50#8] [] with a := 0x50#8 }
      (fun r => { r with pc := 0x0302#16, a := 0xA0#8, p := 0xC4#8 }) [] [] = true := by
  decide

/-- Row 42-9 (R241). -/
theorem test_sbc_borrow_in :
    stepGives { start layoutS [0xE9#8, 0x03#8] [] with a := 0x05#8, p := 0x04#8 }
      (fun r => { r with pc := 0x0302#16, a := 0x01#8, p := 0x05#8 }) [] [] = true := by
  decide

/-- Row 42-11 (R242). -/
theorem test_cmp_less :
    stepGives { start layoutS [0xC9#8, 0x43#8] [] with a := 0x42#8 }
      (fun r => { r with pc := 0x0302#16, p := 0x84#8 }) [] [] = true := by
  decide

/-- Row 42-12 (R242). -/
theorem test_cmp_unsigned :
    stepGives { start layoutS [0xC9#8, 0x01#8] [] with a := 0xF0#8 }
      (fun r => { r with pc := 0x0302#16, p := 0x85#8 }) [] [] = true := by
  decide

/-- Row 42-13 (R243). -/
theorem test_cpx_equal :
    stepGives { start layoutS [0xE0#8, 0x00#8] [] with x := 0x00#8 }
      (fun r => { r with pc := 0x0302#16, p := 0x07#8 }) [] [] = true := by
  decide

/-- Row 42-14 (R244). -/
theorem test_cpy_zp :
    stepGives { start layoutS [0xC4#8, 0x10#8] [(0x0010, 0x20#8)] with y := 0x10#8 }
      (fun r => { r with pc := 0x0302#16, p := 0x84#8 }) [] [] = true := by
  decide

/-- Row 42-16 (R236). -/
theorem test_adc_decimal_binary_zero :
    stepGives { start layoutS [0x69#8, 0x01#8] [] with a := 0x99#8, p := 0x0C#8 }
      (fun r => { r with pc := 0x0302#16, a := 0x00#8, p := 0x8D#8 }) [] [] = true := by
  decide

/-- Row 42-18 (R237). -/
theorem test_sbc_decimal :
    stepGives { start layoutS [0xE9#8, 0x01#8] [] with a := 0x00#8, p := 0x0D#8 }
      (fun r => { r with pc := 0x0302#16, a := 0x99#8, p := 0x8C#8 }) [] [] = true := by
  decide

/-! ### Logic, shifts, increments -/

/-- Row 43-2 (R261). -/
theorem test_and_zero :
    stepGives { start layoutS [0x29#8, 0x0F#8] [] with a := 0xF0#8 }
      (fun r => { r with pc := 0x0302#16, a := 0x00#8, p := 0x06#8 }) [] [] = true := by
  decide

/-- Row 43-3 (R262). -/
theorem test_ora_imm :
    stepGives { start layoutS [0x09#8, 0x80#8] [] with a := 0x01#8 }
      (fun r => { r with pc := 0x0302#16, a := 0x81#8, p := 0x84#8 }) [] [] = true := by
  decide

/-- Row 43-4 (R263). -/
theorem test_eor_self :
    stepGives { start layoutS [0x49#8, 0xA5#8] [] with a := 0xA5#8 }
      (fun r => { r with pc := 0x0302#16, a := 0x00#8, p := 0x06#8 }) [] [] = true := by
  decide

/-- Row 43-5 (R264). -/
theorem test_bit_zp :
    stepGives { start layoutS [0x24#8, 0x10#8] [(0x0010, 0xC0#8)] with a := 0x00#8 }
      (fun r => { r with pc := 0x0302#16, p := 0xC6#8 }) [] [] = true := by
  decide

/-- Row 43-6 (R264). -/
theorem test_bit_abs :
    stepGives { start layoutS [0x2C#8, 0x00#8, 0x20#8] [(0x2000, 0x41#8)] with a := 0x01#8 }
      (fun r => { r with pc := 0x0303#16, p := 0x44#8 }) [] [] = true := by
  decide

/-- Row 43-7 (R266). -/
theorem test_asl_acc :
    stepGives { start layoutS [0x0A#8] [] with a := 0x41#8 }
      (fun r => { r with pc := 0x0301#16, a := 0x82#8, p := 0x84#8 }) [] [] = true := by
  decide

/-- Row 43-9 (R266). -/
theorem test_asl_rom :
    stepGives (start layoutS [0x0E#8, 0x00#8, 0xD0#8] [])
      (fun r => { r with pc := 0x0303#16, p := 0x84#8 }) [] [.readOnlyViolation 0xD000#16] = true := by
  decide

/-- Row 43-11 (R267). -/
theorem test_lsr_acc :
    stepGives { start layoutS [0x4A#8] [] with a := 0x03#8 }
      (fun r => { r with pc := 0x0301#16, a := 0x01#8, p := 0x05#8 }) [] [] = true := by
  decide

/-- Row 43-12 (R267). -/
theorem test_lsr_zpX :
    stepGives { start layoutS [0x56#8, 0x0F#8] [(0x0010, 0x01#8)] with x := 0x01#8 }
      (fun r => { r with pc := 0x0302#16, p := 0x07#8 }) [(0x0010#16, 0x00#8)] [] = true := by
  decide

/-- Row 43-13 (R268). -/
theorem test_rol_acc :
    stepGives { start layoutS [0x2A#8] [] with a := 0x40#8, p := 0x05#8 }
      (fun r => { r with pc := 0x0301#16, a := 0x81#8, p := 0x84#8 }) [] [] = true := by
  decide

/-- Row 43-14 (R268). -/
theorem test_rol_absX :
    stepGives { start layoutS [0x3E#8, 0x00#8, 0x20#8] [(0x2002, 0x80#8)] with x := 0x02#8 }
      (fun r => { r with pc := 0x0303#16, p := 0x07#8 }) [(0x2002#16, 0x00#8)] [] = true := by
  decide

/-- Row 43-15 (R269). -/
theorem test_ror_acc :
    stepGives { start layoutS [0x6A#8] [] with a := 0x02#8, p := 0x05#8 }
      (fun r => { r with pc := 0x0301#16, a := 0x81#8, p := 0x84#8 }) [] [] = true := by
  decide

/-- Row 43-16 (R269). -/
theorem test_ror_zp :
    stepGives (start layoutS [0x66#8, 0x10#8] [(0x0010, 0x01#8)])
      (fun r => { r with pc := 0x0302#16, p := 0x07#8 }) [(0x0010#16, 0x00#8)] [] = true := by
  decide

/-- Row 43-17 (R270). -/
theorem test_inc_zp :
    stepGives (start layoutS [0xE6#8, 0x10#8] [(0x0010, 0xFF#8)])
      (fun r => { r with pc := 0x0302#16, p := 0x06#8 }) [(0x0010#16, 0x00#8)] [] = true := by
  decide

/-- Row 43-18 (R270). -/
theorem test_inc_absX_wraps :
    stepGives { start layoutS [0xFE#8, 0xFF#8, 0xFF#8] [(0x0010, 0x7F#8)] with x := 0x11#8 }
      (fun r => { r with pc := 0x0303#16, p := 0x84#8 }) [(0x0010#16, 0x80#8)] [] = true := by
  decide

/-- Row 43-19 (R271). -/
theorem test_dec_abs :
    stepGives (start layoutS [0xCE#8, 0x34#8, 0x12#8] [(0x1234, 0x01#8)])
      (fun r => { r with pc := 0x0303#16, p := 0x06#8 }) [(0x1234#16, 0x00#8)] [] = true := by
  decide

/-- Row 43-20 (R271). -/
theorem test_dec_zpX :
    stepGives { start layoutS [0xD6#8, 0x0F#8] [(0x0010, 0x00#8)] with x := 0x01#8 }
      (fun r => { r with pc := 0x0302#16, p := 0x84#8 }) [(0x0010#16, 0xFF#8)] [] = true := by
  decide

/-- Row 43-21 (R272). -/
theorem test_inx :
    stepGives { start layoutS [0xE8#8] [] with x := 0xFF#8 }
      (fun r => { r with pc := 0x0301#16, x := 0x00#8, p := 0x06#8 }) [] [] = true := by
  decide

/-- Row 43-22 (R273). -/
theorem test_iny :
    stepGives { start layoutS [0xC8#8] [] with y := 0x7F#8 }
      (fun r => { r with pc := 0x0301#16, y := 0x80#8, p := 0x84#8 }) [] [] = true := by
  decide

/-- Row 43-23 (R274). -/
theorem test_dex :
    stepGives { start layoutS [0xCA#8] [] with x := 0x00#8 }
      (fun r => { r with pc := 0x0301#16, x := 0xFF#8, p := 0x84#8 }) [] [] = true := by
  decide

/-- Row 43-24 (R275). -/
theorem test_dey :
    stepGives { start layoutS [0x88#8] [] with y := 0x01#8 }
      (fun r => { r with pc := 0x0301#16, y := 0x00#8, p := 0x06#8 }) [] [] = true := by
  decide

/-! ### Control -/

/-- Row 44-1 (R291). -/
theorem test_bpl_taken :
    stepGives { start layoutS [0x10#8, 0x05#8] [] with p := 0x04#8 }
      (fun r => { r with pc := 0x0307#16 }) [] [] = true := by
  decide

/-- Row 44-2 (R292). -/
theorem test_bmi_not_taken :
    stepGives { start layoutS [0x30#8, 0x05#8] [] with p := 0x04#8 }
      (fun r => { r with pc := 0x0302#16 }) [] [] = true := by
  decide

/-- Row 44-3 (R293). -/
theorem test_bvc_back_across_page :
    stepGives { start layoutS [0x50#8, 0x80#8] [] with p := 0x04#8 }
      (fun r => { r with pc := 0x0282#16 }) [] [] = true := by
  decide

/-- Row 44-4 (R294). -/
theorem test_bvs_taken :
    stepGives { start layoutS [0x70#8, 0x7F#8] [] with p := 0x44#8 }
      (fun r => { r with pc := 0x0381#16 }) [] [] = true := by
  decide

/-- Row 44-5 (R295). -/
theorem test_bcc_offset_zero :
    stepGives { start layoutS [0x90#8, 0x00#8] [] with p := 0x04#8 }
      (fun r => { r with pc := 0x0302#16 }) [] [] = true := by
  decide

/-- Row 44-6 (R296). -/
theorem test_bcs_taken :
    stepGives { start layoutS [0xB0#8, 0x10#8] [] with p := 0x05#8 }
      (fun r => { r with pc := 0x0312#16 }) [] [] = true := by
  decide

/-- Row 44-7 (R297). -/
theorem test_bne_back :
    stepGives { start layoutS [0xD0#8, 0xFC#8] [] with p := 0x04#8 }
      (fun r => { r with pc := 0x02FE#16 }) [] [] = true := by
  decide

/-- Row 44-8 (R298). -/
theorem test_beq_taken :
    stepGives { start layoutS [0xF0#8, 0x05#8] [] with p := 0x06#8 }
      (fun r => { r with pc := 0x0307#16 }) [] [] = true := by
  decide

/-- Row 44-9 (R298). -/
theorem test_beq_not_taken :
    stepGives { start layoutS [0xF0#8, 0x05#8] [] with p := 0x04#8 }
      (fun r => { r with pc := 0x0302#16 }) [] [] = true := by
  decide

/-- Row 44-10 (R300). -/
theorem test_jmp_abs :
    stepGives (start layoutS [0x4C#8, 0x00#8, 0xC0#8] [])
      (fun r => { r with pc := 0xC000#16 }) [] [] = true := by
  decide

/-- Row 44-11 (R300). -/
theorem test_jmp_ind :
    stepGives (start layoutS [0x6C#8, 0x00#8, 0x20#8] [(0x2000, 0x34#8), (0x2001, 0x12#8)])
      (fun r => { r with pc := 0x1234#16 }) [] [] = true := by
  decide

/-- Row 44-12 (R301). -/
theorem test_jsr :
    stepGives { start layoutS [0x20#8, 0xCD#8, 0xAB#8] [] with sp := 0xFD#8 }
      (fun r => { r with pc := 0xABCD#16, sp := 0xFB#8 }) [(0x01FC#16, 0x02#8), (0x01FD#16, 0x03#8)] [] = true := by
  decide

/-- Row 44-13 (R302). -/
theorem test_rts :
    stepGives { start layoutS [0x60#8] [(0x01FC, 0x02#8), (0x01FD, 0x03#8)] with sp := 0xFB#8 }
      (fun r => { r with pc := 0x0303#16, sp := 0xFD#8 }) [] [] = true := by
  decide

/-- Row 44-14 (R302). -/
theorem test_rts_wraps :
    stepGives { start layoutS [0x60#8] [(0x01FC, 0xFF#8), (0x01FD, 0xFF#8)] with sp := 0xFB#8 }
      (fun r => { r with pc := 0x0000#16, sp := 0xFD#8 }) [] [] = true := by
  decide

/-- Row 44-15 (R310). -/
theorem test_rti :
    stepGives { start layoutS [0x40#8] [(0x01FB, 0x34#8), (0x01FC, 0x02#8), (0x01FD, 0x03#8)] with sp := 0xFA#8 }
      (fun r => { r with pc := 0x0302#16, sp := 0xFD#8, p := 0x14#8 }) [] [] = true := by
  decide

/-- Row 44-17 (R311). -/
theorem test_brk_keeps_d :
    stepGives { start layoutS [0x00#8] [] with sp := 0xFD#8, p := 0xCB#8 }
      (fun r => { r with pc := 0x0400#16, sp := 0xFA#8, p := 0xCF#8 })
      [(0x01FB#16, 0xFB#8), (0x01FC#16, 0x02#8), (0x01FD#16, 0x03#8)] [] = true := by
  decide

/-- Row 44-18 (R311). -/
theorem test_brk_from_unmapped :
    stepGives { start layoutU [] [] with pc := 0x9000#16, sp := 0xFD#8 }
      (fun r => { r with pc := 0x0000#16, sp := 0xFA#8 })
      [(0x01FB#16, 0x34#8), (0x01FC#16, 0x02#8), (0x01FD#16, 0x90#8)]
      [.unmappedAccess .read 0x9000#16, .unmappedAccess .read 0xFFFE#16, .unmappedAccess .read 0xFFFF#16] = true := by
  decide

/-! ### Flags, NOP, Unknown -/

/-- Row 45-1 (R320). -/
theorem test_clc :
    stepGives { start layoutS [0x18#8] [] with p := 0x05#8 }
      (fun r => { r with pc := 0x0301#16, p := 0x04#8 }) [] [] = true := by
  decide

/-- Row 45-2 (R321). -/
theorem test_sec :
    stepGives { start layoutS [0x38#8] [] with p := 0x04#8 }
      (fun r => { r with pc := 0x0301#16, p := 0x05#8 }) [] [] = true := by
  decide

/-- Row 45-3 (R322). -/
theorem test_cli :
    stepGives { start layoutS [0x58#8] [] with p := 0x04#8 }
      (fun r => { r with pc := 0x0301#16, p := 0x00#8 }) [] [] = true := by
  decide

/-- Row 45-4 (R323). -/
theorem test_sei :
    stepGives { start layoutS [0x78#8] [] with p := 0x00#8 }
      (fun r => { r with pc := 0x0301#16, p := 0x04#8 }) [] [] = true := by
  decide

/-- Row 45-5 (R324). -/
theorem test_cld :
    stepGives { start layoutS [0xD8#8] [] with p := 0x0C#8 }
      (fun r => { r with pc := 0x0301#16, p := 0x04#8 }) [] [] = true := by
  decide

/-- Row 45-6 (R325). -/
theorem test_sed :
    stepGives { start layoutS [0xF8#8] [] with p := 0x04#8 }
      (fun r => { r with pc := 0x0301#16, p := 0x0C#8 }) [] [] = true := by
  decide

/-- Row 45-7 (R326). -/
theorem test_clv :
    stepGives { start layoutS [0xB8#8] [] with p := 0x44#8 }
      (fun r => { r with pc := 0x0301#16, p := 0x04#8 }) [] [] = true := by
  decide

/-- Row 45-8 (R327). -/
theorem test_nop :
    stepGives (start layoutS [0xEA#8] [])
      (fun r => { r with pc := 0x0301#16 }) [] [] = true := by
  decide

/-- Row 45-9 (R328). -/
theorem test_unknown_02 :
    stepGives (start layoutS [0x02#8] [])
      (fun r => { r with pc := 0x0301#16 }) [] [.unknownOpcode 0x02#8 0x0300#16] = true := by
  decide

/-- Row 45-11 (R328). -/
theorem test_unknown_one_byte :
    stepGives (start layoutS [0x0C#8, 0xA9#8, 0x01#8] [])
      (fun r => { r with pc := 0x0301#16 }) [] [.unknownOpcode 0x0C#8 0x0300#16] = true := by
  decide

/-- The latch after LDA 0x1000,X at 0x0300 with X = 2, and after an Unknown byte (30_encoding.md R142, 10_state.md R56). -/
theorem test_latch :
    (match step { start layoutS [0xBD#8, 0x00#8, 0x10#8] [] with x := 0x02#8 } with
      | .next t => t.latch
      | .fault _ | .refused _ => none) =
      some { pc0 := 0x0300#16, opcode := 0xBD#8, instr := .lda (.mem (.absX 0x1000#16)),
             rawBytes := [0xBD#8, 0x00#8, 0x10#8], resolved := .ea 0x1002#16 } ∧
    (match step (start layoutS [0x02#8] []) with
      | .next t => t.latch
      | .fault _ | .refused _ => none) =
      some { pc0 := 0x0300#16, opcode := 0x02#8, instr := .unknown 0x02#8, rawBytes := [0x02#8], resolved := .none } := by
  decide

/-! ## The ALU's other rows -/

/-- Rows 42-2 to 42-4: A, V and C of binary sums. -/
theorem test_addBin : addBin 0xFF#8 0x01#8 false = { r := 0x00#8, n := false, v := false, z := true, c := true } ∧
    addBin 0x7F#8 0x01#8 false = { r := 0x80#8, n := true, v := true, z := false, c := false } ∧
    addBin 0xFF#8 0xFF#8 true = { r := 0xFF#8, n := true, v := false, z := false, c := true } := by
  decide

/-- Rows 42-6 to 42-8. -/
theorem test_subBin : subBin 0x50#8 0xB0#8 true = { r := 0xA0#8, n := true, v := true, z := false, c := false } ∧
    subBin 0x10#8 0x50#8 true = { r := 0xC0#8, n := true, v := false, z := false, c := false } ∧
    subBin 0x00#8 0x01#8 true = { r := 0xFF#8, n := true, v := false, z := false, c := false } := by
  decide

/-- Rows 42-15, 42-17, 42-19: decimal sums and a difference. -/
theorem test_decimal : addDec 0x58#8 0x46#8 false = { r := 0x04#8, n := true, v := true, z := false, c := true } ∧
    addDec 0x12#8 0x34#8 true = { r := 0x47#8, n := false, v := false, z := false, c := false } ∧
    subDec 0x46#8 0x12#8 true = { r := 0x34#8, n := false, v := false, z := false, c := true } := by
  decide

/-- Row 42-20: with DECIMAL_MODE = binary the D flag is ignored. -/
theorem test_decimal_binary_setting : alu .binary .add 0x58#8 0x46#8 0x0C#8 = (0x9E#8, 0xCC#8) ∧
    alu .nmos .add 0x58#8 0x46#8 0x0C#8 = (0x04#8, 0xCD#8) := by
  decide

/-! ## Addressing modes: rows 30-1 to 30-11 -/

/-- Rows 30-1 to 30-3: zero-page sums wrap within page 0. -/
theorem test_zero_page :
    eaOf (.zp 0x10#8) (start layoutS [] []) = 0x0010#16 ∧
    eaOf (.zpX 0xF0#8) { start layoutS [] [] with x := 0x20#8 } = 0x0010#16 ∧
    eaOf (.zpY 0xF0#8) { start layoutS [] [] with y := 0x20#8 } = 0x0010#16 := by
  decide

/-- Rows 30-4 and 30-5: absolute sums cross pages and wrap at 16 bits. -/
theorem test_absolute_indexed :
    (loadMem (.absX 0x12FF#16) { start layoutS [] [(0x1300, 0x11#8)] with x := 0x01#8 }).1 = 0x11#8 ∧
    (loadMem (.absY 0xFFFF#16) { start layoutS [] [(0x0001, 0x33#8)] with y := 0x02#8 }).1 = 0x33#8 := by
  decide

/-- Rows 30-6 and 30-7: a (zp,X) pointer at 0xFF under both POINTER_WRAP settings. -/
theorem test_indX_pointer_wrap :
    (loadMem (.indX 0xFE#8) { start layoutS []
      [(0x0000, 0x20#8), (0x0100, 0x21#8), (0x2000, 0xAA#8), (0x2100, 0xBB#8)] with x := 0x01#8 }).1 = 0xAA#8 ∧
    (loadMem (.indX 0xFE#8) { start layoutS []
      [(0x0000, 0x20#8), (0x0100, 0x21#8), (0x2000, 0xAA#8), (0x2100, 0xBB#8)] with
      x := 0x01#8, config := { Config.default with pointerWrap := .linear } }).1 = 0xBB#8 := by
  decide

/-- Rows 30-8 and 30-9: (zp),Y carries into the high byte and wraps at 16 bits. -/
theorem test_indY :
    (loadMem (.indY 0x40#8) { start layoutS [] [(0x0040, 0xF8#8), (0x0041, 0x12#8), (0x1308, 0x5C#8)] with
      y := 0x10#8 }).1 = 0x5C#8 ∧
    (loadMem (.indY 0x40#8) { start layoutS [] [(0x0001, 0x66#8), (0x0040, 0xFF#8), (0x0041, 0xFF#8)] with
      y := 0x02#8 }).1 = 0x66#8 := by
  decide

/-- Rows 30-10 and 30-11: JMP (ind) at a page end under both POINTER_WRAP settings. -/
theorem test_jmp_ind_pointer_wrap :
    (jumpTarget (.ind 0x12FF#16) (start layoutS [] [(0x1200, 0x56#8), (0x12FF, 0x34#8), (0x1300, 0x78#8)])).1 =
      0x5634#16 ∧
    (jumpTarget (.ind 0x12FF#16) { start layoutS [] [(0x1200, 0x56#8), (0x12FF, 0x34#8), (0x1300, 0x78#8)] with
      config := { Config.default with pointerWrap := .linear } }).1 = 0x7834#16 := by
  decide

/-! ## Registers: rows G-1 to G-6 -/

theorem test_register_set :
    (Register.set { width := 8, value := 0, resetValue := 4, maskOn := 0, maskOff := 0x20 } 0xFF).get = 0xDF ∧
    (Register.set { width := 8, value := 0, resetValue := 0xFD, maskOn := 0, maskOff := 0 } 0x1FD).get = 0xFD ∧
    (Register.set { width := 16, value := 0, resetValue := 0, maskOn := 0, maskOff := 0 } 0x12345).get = 0x2345 ∧
    (Register.set { width := 8, value := 0, resetValue := 0, maskOn := 0, maskOff := 0 } (-1)).get = 0xFF ∧
    (Register.postIncrement { width := 8, value := 0xFF, resetValue := 0, maskOn := 0, maskOff := 0 }) =
      ({ width := 8, value := 0, resetValue := 0, maskOn := 0, maskOff := 0 }, 0xFF) := by
  decide

theorem test_registerFile :
    RegisterFile.add State.reset.registerFile ['A'] (CpuReg.x.view State.reset) =
      (.duplicateName, State.reset.registerFile) ∧
    hostGet ['Q'] State.reset = (.failed, State.reset.raise (.notFound ['Q'])) ∧
    hostGet ['S', 'P'] State.reset = (.value 0xFD, State.reset) := by
  decide

/-! ## Regions: rows M1 to M9 -/

/-- What a sequence of host operations leaves: the last reply, and the events it added. -/
def callAll : List HostOp → State → Option (HostReply × List Event)
  | [], s => some (.done, s.log)
  | [op], s => match hostCall op s with
    | .next r => some (r.1, r.2.log)
    | .fault _ | .refused _ => none
  | op :: ops, s => match hostCall op s with
    | .next r => callAll ops r.2
    | .fault _ | .refused _ => none

/-- Row M1. -/
theorem test_overlay :
    callAll [.write 0x1000#16 0x11#8, .mapZeroed ⟨['B'], rfl⟩ 0x1000#16 16 true true, .write 0x1000#16 0x55#8,
      .read 0x1000#16] (start layoutS [] []) = some (.byte 0x55#8, []) ∧
    callAll [.write 0x1000#16 0x11#8, .mapZeroed ⟨['B'], rfl⟩ 0x1000#16 16 true true, .write 0x1000#16 0x55#8,
      .unmap ⟨['B'], rfl⟩, .read 0x1000#16] (start layoutS [] []) = some (.byte 0x11#8, []) := by
  decide

/-- Row M2, the read-only region coming from a file. -/
theorem test_no_fall_through :
    callAll [.write 0x2000#16 0x22#8, .writeFile ['f'] [0x99#8], .mapFile ⟨['R'], rfl⟩ 0x2000#16 1 ['f'] false true true,
      .write 0x2000#16 0x01#8, .read 0x2000#16] (start layoutS [] []) =
      some (.byte 0x99#8, [.readOnlyViolation 0x2000#16]) := by
  decide

/-- Rows M3 and M3b. -/
theorem test_id_match :
    callAll [.mapZeroed ⟨"ABCDEFGHIJKLMNOPQ".toList, by decide⟩ 0x3000#16 1 true true, .write 0x3000#16 0x01#8,
      .unmap ⟨"ABCDEFGHIJKLMNOPZ".toList, by decide⟩, .read 0x3000#16] (start layoutS [] []) =
      some (.byte 0x00#8, []) ∧
    callAll [.mapZeroed ⟨['a', 'b', 'c', 'd'], rfl⟩ 0x3000#16 1 true true, .unmap ⟨['a', 'b', 'c'], rfl⟩]
      (start layoutS [] []) = some (.failed, [.unmappedRegionId ⟨['a', 'b', 'c'], rfl⟩]) := by
  decide

/-- Rows M4 and M5: an unmapped read, and the last byte of a region that ends at 0x10000. -/
theorem test_edges :
    callAll [.read 0x9000#16] (start layoutU [] []) = some (.byte 0x00#8, [.unmappedAccess .read 0x9000#16]) ∧
    callAll [.read 0xFFFF#16] (start layoutS [] []) = some (.byte 0x04#8, []) := by
  decide

/-- The six codes of the table of R341. -/
theorem test_event_codes :
    [Event.unmappedAccess .read 0x9000#16, .readOnlyViolation 0xD000#16, .unmappedRegionId ⟨['B'], rfl⟩,
      .unknownOpcode 0x02#8 0x0300#16, .fileOpenFailure ['f'], .notFound ['B']].map Event.code = [1, 2, 3, 4, 5, 6] := by
  decide

/-- Row M6: of two regions of one id the newest goes. -/
theorem test_duplicate_ids :
    callAll [.mapZeroed ⟨['X'], rfl⟩ 0x3000#16 1 true true, .write 0x3000#16 0x01#8,
      .mapZeroed ⟨['X'], rfl⟩ 0x3000#16 1 true true, .write 0x3000#16 0x02#8, .unmap ⟨['X'], rfl⟩,
      .read 0x3000#16] (start layoutS [] []) = some (.byte 0x01#8, []) := by
  decide

/-- Row M7: two regions of one Borrowed buffer. -/
theorem test_shared_buffer :
    callAll [.newBuffer (List.replicate 16 0x00#8), .mapBuffer ⟨['P'], rfl⟩ 0x4000#16 16 0 true,
      .mapBuffer ⟨['Q'], rfl⟩ 0x5000#16 16 0 true, .write 0x4000#16 0x3C#8, .read 0x5000#16] (start layoutS [] []) =
      some (.byte 0x3C#8, []) := by
  decide

/-- Rows M8 and M9, and the calls that are refused or fatal. -/
theorem test_failed_calls :
    callAll [.writeFile ['e'] [], .mapFile ⟨['E'], rfl⟩ 0x6000#16 1 ['e'] false true true] (start layoutS [] []) =
      some (.failed, [.fileOpenFailure ['e']]) ∧
    callAll [.unloadOverlay] (start layoutS [] []) = some (.failed, [.unmappedRegionId overlayId]) ∧
    hostCall (.mapZeroed ⟨['Z'], rfl⟩ 0x0000#16 0 true true) State.reset = .refused .zeroSizeMap ∧
    hostCall (.mapZeroed ⟨['Z'], rfl⟩ 0x0000#16 1 true false) State.reset = .fault .allocationFailure ∧
    hostCall (.mapBuffer ⟨['Z'], rfl⟩ 0x0000#16 1 0 true) State.reset = .refused .noSuchBuffer ∧
    hostCall (.readThrough 0xFFFF#16 1) State.reset = .refused .pastStorage ∧
    hostCall (.readThrough 0xFFFF#16 1) (mapZeroed overlayId 0xFFFF#16 2 true State.reset) = .refused .pastStorage :=
  ⟨by decide, by decide, rfl, rfl, rfl, rfl, rfl⟩

/-- Program P6's overlay: its writes stay in its file and leave with it. -/
theorem test_overlay_file :
    callAll [.writeFile ['o'] [0xA9#8, 0x01#8], .loadOverlay ['o'] 0x0300#16 8 true, .write 0x0300#16 0x01#8,
      .read 0x0300#16] (start layoutS [] []) = some (.byte 0x01#8, []) ∧
    callAll [.writeFile ['o'] [0xA9#8, 0x01#8], .loadOverlay ['o'] 0x0300#16 8 true, .write 0x0300#16 0x01#8,
      .unloadOverlay, .read 0x0300#16] (start layoutS [] []) = some (.byte 0x00#8, []) ∧
    callAll [.writeFile ['o'] [0xA9#8], .loadOverlay ['o'] 0x0300#16 8 true, .writeFile ['o'] []] (start layoutS [] []) =
      none := by
  decide

/-! ## Reset: rows Z-1 to Z-4 -/

theorem test_first_step :
    stepGives { start layoutS [] [] with pc := 0x0000#16, engine := .uninitialized }
      (fun r => { r with pc := 0x0300#16 }) [] [] = true ∧
    stepGives { start layoutU [] [] with pc := 0x0000#16, engine := .uninitialized }
      (fun r => { r with pc := 0x0000#16 }) []
      [.unmappedAccess .read 0xFFFC#16, .unmappedAccess .read 0xFFFD#16] = true := by
  decide

/-- Row Z-3: the vector comes from a newer region over 0xFFFC. -/
theorem test_vector_overlay :
    stepGives { start layoutS [] [] with
        pc := 0x0000#16, engine := .uninitialized,
        mem := (layoutS []).addRegion
          { id := overlayId, base := 0xFFFC#16, size := 2, storage := .owned [(1, 0xC0#8)], writable := true } }
      (fun r => { r with pc := 0xC000#16 }) [] [] = true := by
  decide

theorem test_reset_while_running :
    hostCall .reset { start layoutS [] [(0x0010, 0x77#8)] with
        a := 0x55#8, p := 0xC7#8, sp := 0x10#8, log := [.notFound ['Q']] } =
      .next (.done, { start layoutS [] [(0x0010, 0x77#8)] with
        pc := 0x0000#16, engine := .uninitialized, log := [.notFound ['Q']] }) := rfl

/-- A table word placed after reset is what the very next step runs. -/
theorem test_withFetchWord :
    stepGives (State.reset.withFetchWord 16 0x80A9)
      (fun r => { r with pc := 0x0002#16, a := 0x80#8, p := 0x84#8 }) [] [] = true ∧
    stepGives ({ State.reset with pc := 0xFFFF#16 }.withFetchWord 24 0xABCD4C)
      (fun r => { r with pc := 0xABCD#16 }) [] [] = true ∧
    stepGives ({ start layoutU [] [] with pc := 0x9000#16 }.withFetchWord 8 0xE8)
      (fun r => { r with pc := 0x9001#16, x := 0x01#8 }) [] [] = true := by
  decide

/-! ## The hypotheses of the obligations can be met -/

/-- Two regions that share a Borrowed buffer, and a mapped file. -/
def sharing : Memory :=
  { regions :=
      [{ id := ⟨['P'], rfl⟩, base := 0x4000#16, size := 16, storage := .borrowed 0, writable := true },
       { id := ⟨['Q'], rfl⟩, base := 0x5000#16, size := 16, storage := .borrowed 0, writable := true }]
    buffers := [{ size := 16, cells := [] }]
    files := [{ path := ['f'], content := { size := 2, cells := [(0, 0x99#8)] } },
      { path := ['e'], content := { size := 0, cells := [] } }] }

theorem witness_DecodeInvertsEncode :
    (Instr.sta (.indY 0xFF#8)).wellFormed = true ∧ (Instr.unknown 0xFF#8).wellFormed = true := by decide

theorem witness_EncodeInvertsDecode :
    decode [0xBD#8, 0xFF#8, 0x12#8, 0x00#8] = .ok (.lda (.mem (.absX 0x12FF#16)), [0x00#8]) := by decide

theorem witness_UnknownBytesAreOneByteLong : 0x02#8 ∈ unknownOpcodes ∧ 0xEA#8 ∉ unknownOpcodes := by decide

theorem witness_StepRunsTheFetchedInstruction :
    (start layoutS [0xE8#8] []).engine = .running ∧
    decode [(start layoutS [0xE8#8] []).mem.peek 0x0300#16, (start layoutS [0xE8#8] []).mem.peek 0x0301#16,
      (start layoutS [0xE8#8] []).mem.peek 0x0302#16] = .ok (.inx, [0x00#8, 0x00#8]) := by decide

theorem witness_ResetVectorStepLoadsOnlyPC : State.reset.engine = .uninitialized := rfl

/-- A state that meets the invariant and has a next state. -/
theorem witness_StepKeepsStateInvariant :
    (start layoutS [0x08#8] []).Inv ∧ ∃ t, step (start layoutS [0x08#8] []) = .next t := ⟨by decide, _, rfl⟩

theorem witness_StepOnlyAppendsAndKeepsMap : ∃ t, step (start layoutU [0x8D#8, 0x00#8, 0x90#8] []) = .next t := ⟨_, rfl⟩

theorem witness_HostCallKeepsStateInvariant :
    State.reset.Inv ∧ ∃ reply t, hostCall (.loadOverlay ['o'] 0xFFFF#16 1 true) State.reset = .next (reply, t) :=
  ⟨by decide, _, _, rfl⟩

/-- A run with a core step and a host operation. -/
theorem witness_RunsOfBuiltMachinesKeepInvariant :
    imageWf Config.default.romImage = true ∧
    ∃ t, Reaches (State.build Config.default true) t ∧ t.engine = .running ∧ t.x = 0x07#8 :=
  ⟨by decide, _, .move .core (.move (.host (.setRegister ['X'] 7)) .refl rfl) rfl, by decide, by decide⟩

/-- Layout S with a writable byte over the first byte of the ROM. -/
def layoutO (ram : Cells) : Memory :=
  (layoutS ram).addRegion { id := overlayId, base := 0xD000#16, size := 1, storage := .owned [], writable := true }

/-- A read-only region under a newer one, a read-only byte, and an unmapped address, each beside a step that writes
there. -/
theorem witness_StepSparesReadOnlyBytes :
    (∃ t, step { start layoutO [0x8D#8, 0x00#8, 0xD0#8] [] with a := 0x11#8 } = .next t) ∧
    (∃ r cells, (layoutO []).regions[1]? = some r ∧ r.writable = false ∧ r.storage = .owned cells ∧
      r.contains 0xD000 = true) ∧
    (∃ t, step { start layoutS [0x8D#8, 0x00#8, 0xD0#8] [] with a := 0x11#8 } = .next t) ∧
    (∃ h cells, (layoutS []).resolve 0xD000#16 = some h ∧ h.region.storage = .owned cells ∧
      h.region.writable = false) ∧
    (∃ t, step { start layoutU [0x8D#8, 0x00#8, 0x80#8] [] with a := 0x11#8 } = .next t) ∧
    (layoutU []).resolve 0x8000#16 = none :=
  ⟨⟨_, rfl⟩, ⟨_, _, rfl, rfl, rfl, by decide⟩, ⟨_, rfl⟩, ⟨_, _, rfl, rfl, rfl⟩, ⟨_, rfl⟩, rfl⟩

theorem witness_ResetRestoresRegistersOnly : State.reset.config.resetValues = Config.decidedResetValues := rfl

theorem witness_WriteThenReadReturnsTheByte :
    State.reset.mem.wf = true ∧ State.reset.mem.storable 0x0000#16 = true ∧
    State.reset.mem.storable 0xCFFF#16 = true := ⟨by decide, by decide, by decide⟩

theorem witness_UnmappedReadsZeroAndDropsWrites :
    ∀ r ∈ (layoutU []).regions, ¬(r.base.toNat ≤ (0x8000#16).toNat ∧ (0x8000#16).toNat < r.base.toNat + r.size) := by
  decide

theorem witness_ReadOnlyWriteIsDropped :
    (∃ h, State.reset.mem.resolve 0xD000#16 = some h ∧ h.region.writable = false) ∧
    ∃ h, State.reset.mem.resolve 0xFFFF#16 = some h ∧ h.region.writable = false :=
  ⟨⟨_, rfl, rfl⟩, _, rfl, rfl⟩

theorem witness_WriteSparesOtherBytes :
    State.reset.mem.siteOf 0x0001#16 ≠ State.reset.mem.siteOf 0x0000#16 ∧
    State.reset.mem.siteOf 0x0000#16 = some (.owned 0 0) ∧ (0x0001#16 : Addr) ≠ 0x0000#16 := by decide

theorem witness_OverlayShadowsUntilUnmapped :
    0 < 16 ∧ ∀ w ∈ [((0x1000#16 : Addr), 0x55#8), (0x100F#16, 0x66#8)],
      (0x1000#16).toNat ≤ w.1.toNat ∧ w.1.toNat < (0x1000#16).toNat + 16 := by simp

theorem witness_SharedStorageShowsWritesAtBoth :
    sharing.wf = true ∧ sharing.storable 0x4000#16 = true ∧ sharing.siteOf 0x5000#16 = sharing.siteOf 0x4000#16 ∧
    sharing.siteOf 0x500F#16 = sharing.siteOf 0x400F#16 := by decide

theorem witness_ReadOnlyFileMapCopiesTheFile :
    sharing.fileIndex ['f'] = some 0 ∧
    sharing.files[0]? = some { path := ['f'], content := { size := 2, cells := [(0, 0x99#8)] } } ∧
    sharing.fileIndex ['e'] = some 1 ∧
    sharing.files[1]? = some { path := ['e'], content := { size := 0, cells := [] } } := by decide

/-- The clauses on a copy: a file that no region maps takes a new content after it was mapped read-only; a handle into the
region is written through; an address outside shows the file itself. -/
theorem witness_ReadOnlyFileMapCopiesTheFile_copy :
    State.reset.mem.fileIndex ['r', 'o', 'm'] = some 0 ∧ State.reset.mem.maps 0 = false ∧
    (callAll [.mapFile overlayId 0x4000#16 0 ['r', 'o', 'm'] false true true, .writeFile ['r', 'o', 'm'] [0x99#8],
      .writeThrough 0x4000#16 0x2FFF 0x11#8, .read 0x4000#16] State.reset) = some (.byte 0x00#8, []) ∧
    callAll [.mapFile overlayId 0x4000#16 2 ['g'] true true true, .mapFile romId 0x5000#16 0 ['g'] false true true,
      .write 0x4000#16 0x99#8, .read 0x5000#16] State.reset = some (.byte 0x00#8, []) := by decide

/-- A file that exists, shorter than the map, and one that does not; a region that ends past 0xFFFF. -/
theorem witness_WritableFileMapWritesTheFile :
    sharing.wf = true ∧ 0 < 4 ∧
    sharing.files[0]? = some { path := ['f'], content := { size := 2, cells := [(0, 0x99#8)] } } ∧
    sharing.fileIndex ['n'] = none ∧
    (0xFFFF#16).toNat ≤ (0xFFFF#16 : Addr).toNat ∧ (0xFFFF#16 : Addr).toNat < (0xFFFF#16).toNat + 4 := by decide

/-- A buffer of the mapped size, and one byte too short. -/
theorem witness_BorrowedMapSharesTheBuffer :
    sharing.wf = true ∧ 0 < 16 ∧ ∃ im, sharing.buffers[0]? = some im ∧ 16 ≤ im.size ∧ im.size < 17 :=
  ⟨by decide, by decide, _, rfl, by decide, by decide⟩

/-- An image that is not empty, and ROM_BASE on both sides of the lower end of its range. -/
theorem witness_BuiltMachineHoldsRamThenRom :
    0 < Config.default.romImage.size ∧ Config.default.romBase ≠ 0x0000#16 ∧
    Config.default.bootWellFormed = true ∧ (0xCFFF#16 : Addr).toNat < Config.default.romBase.toNat ∧
    { Config.default with romBase := 0x0200#16, romImage := { size := 0xFE00, cells := [] } }.bootWellFormed = true ∧
    { Config.default with romBase := 0xFFFA#16, romImage := { size := 6, cells := [] } }.bootWellFormed = true ∧
    { Config.default with romBase := 0x0000#16 }.romBase = 0x0000#16 := by decide

/-- Handles at both ends of the ROM: the last byte inside, the first byte past its storage. A region that passes 0xFFFF:
a byte that its storage holds and no address names. -/
theorem witness_PointerWriteIgnoresWritable :
    State.reset.mem.wf = true ∧
    (∃ h, State.reset.mem.resolve 0xD000#16 = some h ∧ h.o + 0x2FFF < h.region.size ∧
      (0xD000#16).toNat + 0x2FFF < 0x10000 ∧ h.region.size ≤ h.o + 0x3000) ∧
    ∃ h, (mapZeroed overlayId 0xFFFF#16 2 true State.reset).mem.resolve 0xFFFF#16 = some h ∧
      h.o + 1 < h.region.size ∧ 0x10000 ≤ (0xFFFF#16).toNat + 1 :=
  ⟨by decide, ⟨_, rfl, by decide, by decide, by decide⟩, _, rfl, by decide, by decide⟩

theorem witness_RegisterCountsWrapAtWidth :
    (CpuReg.x.view { State.reset with x := 0xFF#8 }).maskOn = 0 ∧
    (CpuReg.x.view { State.reset with x := 0xFF#8 }).maskOff = 0 ∧
    (CpuReg.x.view { State.reset with x := 0xFF#8 }).value < 2 ^ 8 := by decide

theorem witness_RegisterFileFindsTheSixNames :
    ([] : Text) ∉ [['P', 'C'], ['S', 'P'], ['A'], ['X'], ['Y'], ['F', 'L', 'A', 'G', 'S']] ∧
    ([] : Text) ∉ State.reset.registerFile.map Prod.fst ∧ (['Y'] : Text) ∈ State.reset.registerFile.map Prod.fst := by
  decide

theorem witness_PointerHighBytesFollowTheWrapSetting :
    State.reset.config.pointerWrap = .nmos ∧
    { State.reset with config := { Config.default with pointerWrap := .linear } }.config.pointerWrap = .linear :=
  ⟨rfl, rfl⟩

theorem witness_StoresWriteTheEffectiveAddress : State.reset.mem.wf = true ∧ sharing.wf = true := by decide

theorem witness_PushesStoreAtTheStackByte : State.reset.mem.wf = true ∧ sharing.wf = true := by decide

theorem witness_ShiftsMoveOneBitThroughCarry : State.reset.mem.wf = true ∧ sharing.wf = true := by decide

theorem witness_MemoryCountsWrapAndShowNZ : State.reset.mem.wf = true ∧ sharing.wf = true := by decide

theorem witness_PullsReadTheStackByte : (0x0100#16 : Addr) = BitVec.ofNat 16 (0x100 + ((0xFF#8).toNat + 1) % 256) := rfl

theorem witness_BranchesAddTheOffsetWhenTheyHold :
    ({ State.reset with pc := 0xFF80#16 } : State) =
      { State.reset with pc := BitVec.ofInt 16 ((State.reset.pc.toNat : Int) + (0x80#8).toInt) } := rfl

/-- SP = 0x00: the second push wraps to 0x01FF. -/
theorem witness_JsrPushesTheReturnAddress :
    State.reset.mem.wf = true ∧ (0x0100#16 : Addr) = BitVec.ofNat 16 (0x100 + (0x00#8).toNat) ∧
    (0x01FF#16 : Addr) = BitVec.ofNat 16 (0x100 + ((0x00#8).toNat + 255) % 256) := by decide

/-- SP = 0xFE: the second pop wraps to 0x0100. -/
theorem witness_RtsReturnsPastThePoppedAddress :
    (0x01FF#16 : Addr) = BitVec.ofNat 16 (0x100 + ((0xFE#8).toNat + 1) % 256) ∧
    (0x0100#16 : Addr) = BitVec.ofNat 16 (0x100 + ((0xFE#8).toNat + 2) % 256) := by decide

/-- SP = 0x01: the third push wraps to 0x01FF. -/
theorem witness_BrkSavesStateAndTakesTheVector :
    State.reset.mem.wf = true ∧ (0x0101#16 : Addr) = BitVec.ofNat 16 (0x100 + (0x01#8).toNat) ∧
    (0x0100#16 : Addr) = BitVec.ofNat 16 (0x100 + ((0x01#8).toNat + 255) % 256) ∧
    (0x01FF#16 : Addr) = BitVec.ofNat 16 (0x100 + ((0x01#8).toNat + 254) % 256) := by decide

/-- SP = 0xFE: the second pop wraps to 0x0100. -/
theorem witness_RtiRestoresStatusAndPC :
    (0x01FF#16 : Addr) = BitVec.ofNat 16 (0x100 + ((0xFE#8).toNat + 1) % 256) ∧
    (0x0100#16 : Addr) = BitVec.ofNat 16 (0x100 + ((0xFE#8).toNat + 2) % 256) ∧
    (0x0101#16 : Addr) = BitVec.ofNat 16 (0x100 + ((0xFE#8).toNat + 3) % 256) := by decide

/-- The stack byte in the three cases of the law. -/
theorem witness_PopAfterPushReturnsTheByte :
    (layoutS []).wf = true ∧ (layoutS []).storable (stackAddr 0x00#8) = true ∧
    sharing.resolve (stackAddr 0xFF#8) = none ∧
    ((layoutS []).addRegion
      { id := ⟨[], rfl⟩, base := 0x0100#16, size := 1, storage := .owned [], writable := false }).storable
      (stackAddr 0x00#8) = false := by decide

/-- Binary mode by P.D and by the configuration, and decimal mode with valid BCD bytes at both ends of the range. -/
theorem witness_AdcAddsInBinaryOrDecimal :
    flagD State.reset.p = false ∧
    { State.reset with config := { Config.default with decimalMode := .binary } }.config.decimalMode = .binary ∧
    flagD { State.reset with p := 0x0D#8 }.p = true ∧ State.reset.config.decimalMode = .nmos ∧ ValidBcd 0x99#8 ∧
    ValidBcd (operandOf (.imm 0x00#8) State.reset) :=
  ⟨by decide, rfl, by decide, rfl, ⟨by decide, by decide⟩, ⟨by decide, by decide⟩⟩

theorem witness_SbcSubtractsInBinaryOrDecimal :
    flagD State.reset.p = false ∧
    { State.reset with config := { Config.default with decimalMode := .binary } }.config.decimalMode = .binary ∧
    flagD { State.reset with p := 0x0C#8 }.p = true ∧ State.reset.config.decimalMode = .nmos ∧ ValidBcd 0x00#8 ∧
    ValidBcd (operandOf (.imm 0x99#8) State.reset) :=
  ⟨by decide, rfl, by decide, rfl, ⟨by decide, by decide⟩, ⟨by decide, by decide⟩⟩

/-- A call and a return on a state of layout S. -/
theorem witness_CallThenReturnResumesAfterTheCall :
    (start layoutS [0x20#8, 0xCD#8, 0xAB#8] [(0xABCD, 0x60#8)]).Inv ∧
    (start layoutS [0x20#8, 0xCD#8, 0xAB#8] [(0xABCD, 0x60#8)]).mem.peek 0x0300#16 = 0x20#8 ∧
    (start layoutS [0x20#8, 0xCD#8, 0xAB#8] [(0xABCD, 0x60#8)]).mem.storable (stackAddr 0xFD#8) = true ∧
    (start layoutS [0x20#8, 0xCD#8, 0xAB#8] [(0xABCD, 0x60#8)]).mem.storable (stackAddr 0xFC#8) = true ∧
    (start layoutS [0x20#8, 0xCD#8, 0xAB#8] [(0xABCD, 0x60#8)]).mem.siteOf (stackAddr 0xFD#8) ≠
      (start layoutS [0x20#8, 0xCD#8, 0xAB#8] [(0xABCD, 0x60#8)]).mem.siteOf (stackAddr 0xFC#8) ∧
    ∃ t, step (start layoutS [0x20#8, 0xCD#8, 0xAB#8] [(0xABCD, 0x60#8)]) = .next t ∧
      t.mem.peek t.pc = 0x60#8 :=
  ⟨by decide, by decide, by decide, by decide, by decide, _, rfl, by decide⟩

/-- A break whose handler is an RTI, on a state of layout S. -/
theorem witness_ReturnFromBreakResumesPastIt :
    (start layoutS [0x00#8] [(0x0400, 0x40#8)]).Inv ∧
    (start layoutS [0x00#8] [(0x0400, 0x40#8)]).mem.peek 0x0300#16 = 0x00#8 ∧
    (start layoutS [0x00#8] [(0x0400, 0x40#8)]).mem.storable (stackAddr 0xFD#8) = true ∧
    (start layoutS [0x00#8] [(0x0400, 0x40#8)]).mem.storable (stackAddr 0xFC#8) = true ∧
    (start layoutS [0x00#8] [(0x0400, 0x40#8)]).mem.storable (stackAddr 0xFB#8) = true ∧
    (start layoutS [] []).mem.siteOf (stackAddr 0xFD#8) = some (.owned 0 0x1FD) ∧
    (start layoutS [] []).mem.siteOf (stackAddr 0xFC#8) = some (.owned 0 0x1FC) ∧
    (start layoutS [] []).mem.siteOf (stackAddr 0xFB#8) = some (.owned 0 0x1FB) ∧
    ∃ t, step (start layoutS [0x00#8] [(0x0400, 0x40#8)]) = .next t ∧ t.engine = .running ∧
      t.mem.peek t.pc = 0x40#8 :=
  ⟨by decide, by decide, by decide, by decide, by decide, by decide, by decide, by decide, _, rfl, by decide, by decide⟩

theorem witness_NopAndUnknownOnlyAdvance :
    (start layoutS [0xFF#8] []).engine = .running ∧
    (start layoutS [0xFF#8] []).mem.peek (start layoutS [0xFF#8] []).pc ∈ unknownOpcodes := by decide

theorem witness_NonStoringInstructionsLeaveMemory :
    storesMemory (.asl .acc) = false ∧ (∃ t, exec (.asl .acc) State.reset = .next t) ∧
    storesMemory (.asl (.mem (.zp 0x10#8))) = true := ⟨by decide, ⟨_, rfl⟩, by decide⟩

end Sys2Proof.Tests
end

section
/-! The RegisterFile and the host's access to the CPU registers by name (10_state.md R36-R40). -/

namespace Sys2Proof.Machine

/-! ## Finding and adding a name -/

/-- `find` succeeds exactly on the names of the file. -/
theorem RegisterFile.isSome_find_iff (rf : RegisterFile) (name : Text) :
    (RegisterFile.find rf name).isSome ↔ name ∈ rf.map Prod.fst := by
  induction rf with
  | nil => simp [RegisterFile.find]
  | cons nr rf ih =>
    rw [RegisterFile.find, List.map_cons, List.mem_cons]
    split
    next h => simp [h]
    next h => simp [ih, Ne.symm h]

theorem RegisterFile.add_of_mem {rf : RegisterFile} {name : Text} (r : Register) (h : name ∈ rf.map Prod.fst) :
    RegisterFile.add rf name r = (.duplicateName, rf) :=
  if_pos ((RegisterFile.isSome_find_iff rf name).mpr h)

theorem RegisterFile.add_of_notMem {rf : RegisterFile} {name : Text} (r : Register) (h : name ∉ rf.map Prod.fst) :
    RegisterFile.add rf name r = (.added, rf ++ [(name, r)]) :=
  if_neg (mt (RegisterFile.isSome_find_iff rf name).mp h)

/-! ## The CPU registers by name -/

/-- The six names are distinct: each one finds its own register. -/
@[simp] theorem findCpuReg_name (r : CpuReg) : findCpuReg cpuRegs r.name = some r := by
  cases r <;> rfl

theorem findCpuReg_of_notMem {rs : List CpuReg} {name : Text} (h : name ∉ rs.map CpuReg.name) :
    findCpuReg rs name = none := by
  induction rs with
  | nil => rfl
  | cons r rs ih =>
    obtain ⟨hne, hrs⟩ := not_or.mp (mt List.mem_cons.mpr h)
    rw [findCpuReg, if_neg (Ne.symm hne), ih hrs]

@[simp] theorem hostGet_name (r : CpuReg) (s : State) : hostGet r.name s = (.value (r.view s).get, s) := by
  simp [hostGet]

theorem hostGet_of_notMem {name : Text} (h : name ∉ cpuRegs.map CpuReg.name) (s : State) :
    hostGet name s = (.failed, s.raise (.notFound name)) := by
  simp [hostGet, findCpuReg_of_notMem h]

/-- What `forEach()` returns: the registers in the order of `cpuRegs` (10_state.md R39). -/
def cpuValues (s : State) : List (Text × Nat) := cpuRegs.map fun r => (r.name, (r.view s).get)

theorem hostCall_forEach (s : State) : hostCall .forEach s = .next (.registers (cpuValues s), s) := rfl

theorem hostCall_getRegister_of_mem {s : State} {nv : Text × Nat} (h : nv ∈ cpuValues s) :
    hostCall (.getRegister nv.1) s = .next (.value nv.2, s) := by
  obtain ⟨r, -, rfl⟩ := List.mem_map.mp h
  exact congrArg _ (hostGet_name r s)

theorem hostCall_getRegister_of_notMem {s : State} {name : Text} (h : name ∉ (cpuValues s).map Prod.fst) :
    hostCall (.getRegister name) s = .next (.failed, s.raise (.notFound name)) :=
  congrArg _ (hostGet_of_notMem (by simpa [cpuValues] using h) s)

/-- Settles O33: the six registers by cases on the register that a name is of, any file by what `find` finds. -/
theorem registerFileFindsTheSixNames : Obligations.RegisterFileFindsTheSixNames := by
  unfold Obligations.RegisterFileFindsTheSixNames
  refine ⟨fun s cpu hcpu => ?_, fun rf name r => ⟨RegisterFile.add_of_notMem r, RegisterFile.add_of_mem r⟩⟩
  obtain rfl : cpu = cpuValues s := hcpu
  exact ⟨hostCall_forEach s, fun _ => hostCall_getRegister_of_mem, fun _ => hostCall_getRegister_of_notMem⟩

end Sys2Proof.Machine
end

section
/-! What a byte read, a byte write and a two-byte read do at an address (20_memory.md R95-R104). -/

namespace Sys2Proof.Machine

/-! ## Resolution that finds nothing, and storable addresses -/

theorem Region.contains_eq_true_iff (r : Region) (addr : Nat) :
    r.contains addr = true ↔ r.base.toNat ≤ addr ∧ addr < r.base.toNat + r.size := by
  simp [Region.contains]

/-- No region contains the address exactly when resolution finds none (20_memory.md R83, R91). -/
theorem Memory.resolve_eq_none_iff (m : Memory) (addr : Addr) :
    m.resolve addr = none ↔
      ∀ r ∈ m.regions, ¬(r.base.toNat ≤ addr.toNat ∧ addr.toNat < r.base.toNat + r.size) := by
  simp only [← Region.contains_eq_true_iff]
  constructor
  · intro hnone r hr
    simp [resolveFrom_none hnone r hr]
  · intro hall
    cases hres : m.resolve addr with
    | none => rfl
    | some h =>
      obtain ⟨hreg, hcontains, -, -⟩ := Memory.resolve_some hres
      exact absurd hcontains (hall h.region (List.mem_of_getElem? hreg))

theorem Memory.storable_iff (m : Memory) (addr : Addr) :
    m.storable addr = true ↔ ∃ h, m.resolve addr = some h ∧ h.region.writable = true := by
  rw [Memory.storable]
  cases m.resolve addr <;> simp

/-! ## The events of one access -/

theorem Memory.readEvents_of_resolve_some {m : Memory} {addr : Addr} {h : Hit} (hres : m.resolve addr = some h) :
    m.readEvents [addr] = [] := by simp [Memory.readEvents, hres]

theorem Memory.readEvents_of_resolve_none {m : Memory} {addr : Addr} (hres : m.resolve addr = none) :
    m.readEvents [addr] = [.unmappedAccess .read addr] := by simp [Memory.readEvents, hres]

theorem Memory.writeEvents_of_resolve_none {m : Memory} {addr : Addr} (hres : m.resolve addr = none) :
    m.writeEvents addr = [.unmappedAccess .write addr] := by simp [Memory.writeEvents, hres]

theorem Memory.readEvents_of_storable {m : Memory} {addr : Addr} (hst : m.storable addr = true) :
    m.readEvents [addr] = [] := by
  obtain ⟨h, hres, -⟩ := (m.storable_iff addr).mp hst
  exact Memory.readEvents_of_resolve_some hres

theorem Memory.writeEvents_of_storable {m : Memory} {addr : Addr} (hst : m.storable addr = true) :
    m.writeEvents addr = [] := by
  obtain ⟨h, hres, hw⟩ := (m.storable_iff addr).mp hst
  simp [Memory.writeEvents, hres, hw]

theorem Memory.write_of_resolve_none {m : Memory} {addr : Addr} (hres : m.resolve addr = none) (v : Byte) :
    m.write addr v = m :=
  Memory.write_of_not_storable (by simp [Memory.storable, hres]) v

/-- A write to a mapped writable region stores and logs nothing (20_memory.md R97). -/
theorem memWrite_of_storable {s : State} {addr : Addr} (hst : s.mem.storable addr = true) (v : Byte) :
    memWrite addr v s = s.setMem (s.mem.write addr v) := by
  rw [memWrite_eq, Memory.writeEvents_of_storable hst, State.logged_nil]

/-! ## Where the high byte of a pointer lies -/

theorem zext_eq_ofNat (z : Byte) : zext z = BitVec.ofNat 16 z.toNat := by
  apply BitVec.eq_of_toNat_eq
  simp [zext]

theorem add_one_eq_ofNat (addr : Addr) : addr + 1#16 = BitVec.ofNat 16 ((addr.toNat + 1) % 65536) := by
  bv_omega

theorem highByte_toNat (addr : Addr) : (highByte addr).toNat = addr.toNat / 256 := by
  rw [highByte, BitVec.extractLsb'_toNat, Nat.shiftRight_eq_div_pow]
  omega

theorem lowByte_toNat (addr : Addr) : (lowByte addr).toNat = addr.toNat % 256 := by
  simp [lowByte]

/-- With nmos the high byte of a zero-page pointer stays in page 0 (20_memory.md R103). -/
theorem zpPointerHigh_nmos (z : Byte) : zpPointerHigh .nmos z = BitVec.ofNat 16 ((z.toNat + 1) % 256) := by
  rw [zpPointerHigh, zext_eq_ofNat, BitVec.toNat_add]
  rfl

theorem zpPointerHigh_linear (z : Byte) : zpPointerHigh .linear z = BitVec.ofNat 16 (z.toNat + 1) := by
  rw [zpPointerHigh, zext_eq_ofNat, BitVec.ofNat_add]

/-- The two masks of R104 take the page of one address and the byte in the page of another. -/
theorem or_page_masks_eq_pair (a b : Addr) :
    (a &&& 0xFF00#16) ||| (b &&& 0x00FF#16) = pair (highByte a) (lowByte b) := by
  have page_mask : ∀ i < 16, (0xFF00#16).getLsbD i = decide (8 ≤ i) := by decide
  have byte_mask : ∀ i < 16, (0x00FF#16).getLsbD i = decide (i < 8) := by decide
  apply BitVec.eq_of_getLsbD_eq
  intro i hi
  rw [BitVec.getLsbD_or, BitVec.getLsbD_and, BitVec.getLsbD_and, page_mask i hi, byte_mask i hi, pair,
    BitVec.getLsbD_append]
  by_cases h8 : i < 8
  · simp [h8, lowByte]
  · have hpage : 8 ≤ i := by omega
    have hoff : i - 8 < 8 := by omega
    simp [h8, hpage, hoff, highByte]

/-- With nmos the high byte of an absolute pointer stays in the page of its low byte (20_memory.md R104). -/
theorem absPointerHigh_nmos (addr : Addr) :
    absPointerHigh .nmos addr = BitVec.ofNat 16 (addr.toNat / 256 * 256 + (addr.toNat + 1) % 256) := by
  have hlow : (addr + 1#16).toNat % 256 = (addr.toNat + 1) % 256 := by
    rw [BitVec.toNat_add, Nat.mod_mod_of_dvd _ (by decide)]
    rfl
  rw [absPointerHigh, or_page_masks_eq_pair, Laws.pair_eq_ofNat, highByte_toNat, lowByte_toNat, hlow, Nat.add_comm,
    Nat.mul_comm]

theorem absPointerHigh_linear (addr : Addr) :
    absPointerHigh .linear addr = BitVec.ofNat 16 ((addr.toNat + 1) % 65536) := add_one_eq_ofNat addr

/-! ## Two-byte reads -/

/-- At `s`, `op` is two byte reads in a row. That is asked at `s` only, for the setting read there says where `hi` is. -/
theorem readsPair_of_eq_readPair {op : State → Addr × State} {lo hi : Addr} {s : State}
    (hop : op s = readPair lo hi s) : ReadsPair op lo hi s :=
  ⟨s.mem.peekPair lo hi, Laws.pair_toNat _ _, hop.trans (readPair_eq lo hi s)⟩

theorem readsPair_read16 (addr : Addr) (s : State) : ReadsPair (read16 addr) addr (addr + 1#16) s :=
  readsPair_of_eq_readPair rfl

theorem readsPair_zpRead16 (z : Byte) (s : State) :
    ReadsPair (zpRead16 z) (zext z) (zpPointerHigh s.config.pointerWrap z) s := readsPair_of_eq_readPair rfl

theorem readsPair_indRead16 (addr : Addr) (s : State) :
    ReadsPair (indRead16 addr) addr (absPointerHigh s.config.pointerWrap addr) s := readsPair_of_eq_readPair rfl

/-! ## The obligations -/

/-- Settles O35: all three are `readPair`, and the address of the high byte follows from the setting. -/
theorem pointerHighBytesFollowTheWrapSetting : Obligations.PointerHighBytesFollowTheWrapSetting := by
  unfold Obligations.PointerHighBytesFollowTheWrapSetting
  intro s z addr
  have h16 := readsPair_read16 addr s
  have hzp := readsPair_zpRead16 z s
  have hind := readsPair_indRead16 addr s
  rw [add_one_eq_ofNat] at h16
  rw [zext_eq_ofNat] at hzp
  refine ⟨h16, fun hnmos => ?_, fun hlinear => ?_⟩
  · rw [hnmos, zpPointerHigh_nmos] at hzp
    rw [hnmos, absPointerHigh_nmos] at hind
    exact ⟨hzp, hind⟩
  · rw [hlinear, zpPointerHigh_linear] at hzp
    rw [hlinear, absPointerHigh_linear] at hind
    exact ⟨hzp, hind⟩

/-- Settles O16: neither access logs an event, and a read shows what the write stored at the same storage byte. -/
theorem writeThenReadReturnsTheByte : Obligations.WriteThenReadReturnsTheByte := by
  unfold Obligations.WriteThenReadReturnsTheByte
  intro s addr v hwf hst
  have hpeek : (s.mem.write addr v).peek addr = v := by rw [Memory.peek_write hwf, if_pos ⟨hst, rfl⟩]
  have hevents := Memory.readEvents_of_storable hst
  simp [memWrite_of_storable hst, memRead_eq, hpeek, hevents]

/-- Settles O17: resolution finds no region, so a read shows 0x00 and a write stores nothing. -/
theorem unmappedReadsZeroAndDropsWrites : Obligations.UnmappedReadsZeroAndDropsWrites := by
  unfold Obligations.UnmappedReadsZeroAndDropsWrites
  intro s addr v houtside
  have hres := (s.mem.resolve_eq_none_iff addr).mpr houtside
  constructor
  · rw [memRead_eq, Memory.byteAt_of_resolve_none hres, Memory.readEvents_of_resolve_none hres]
    rfl
  · rw [memWrite_eq, Memory.write_of_resolve_none hres, Memory.writeEvents_of_resolve_none hres]
    rfl

/-- Settles O19: a read leaves the memory as it is, and its one possible event is that of an unmapped address. -/
theorem readsChangeOnlyTheLog : Obligations.ReadsChangeOnlyTheLog := by
  unfold Obligations.ReadsChangeOnlyTheLog
  intro s addr
  refine ⟨s.mem.peek addr, s.mem.readEvents [addr], memRead_eq addr s, by simp [memRead_eq], ?_⟩
  cases hres : s.mem.resolve addr with
  | none => exact .inr ⟨Memory.readEvents_of_resolve_none hres, Memory.byteAt_of_resolve_none hres⟩
  | some h => exact .inl (Memory.readEvents_of_resolve_some hres)

end Sys2Proof.Machine
end

section
/-! What the decoder reads from each opcode byte, and which bytes it reads as Unknown (30_encoding.md R142, R170, R176). -/

namespace Sys2Proof

/-- What decodes is an instruction of the table, and the bytes read are its opcode and its own operand bytes. -/
theorem decode_cons_ok {op : Byte} {rest rest' : List Byte} {i : Instr} (h : decode (op :: rest) = .ok (i, rest')) :
    i.wellFormed = true ∧ i.opcode = some op ∧ rest = i.operandBytes ++ rest' := by
  have hrow := Laws.lookup_agrees op
  simp only [decode] at h
  generalize lookup op = row at h hrow
  split at h
  next j =>
    cases h
    obtain ⟨hwf, hop, hbytes⟩ := hrow
    exact ⟨hwf, hop, by simp [hbytes]⟩
  next f d tail =>
    cases h
    obtain ⟨hwf, hop, hbytes⟩ := hrow d
    exact ⟨hwf, hop, by simp [hbytes]⟩
  next f lo hi tail =>
    cases h
    obtain ⟨hwf, hop, hbytes⟩ := hrow (Machine.pair hi lo)
    exact ⟨hwf, hop, by simp [hbytes, addrBytes]⟩
  next => cases h

theorem lookup_of_mem_unknownOpcodes {op : Byte} (h : op ∈ unknownOpcodes) : lookup op = .one (.unknown op) := by
  have hnone : (findRow opcodeTable op).isNone = true := by
    rw [Laws.findRow_isNone_iff, List.contains_iff_mem]
    exact h
  rw [lookup, Option.isNone_iff_eq_none.mp hnone, Option.getD_none]

theorem decode_cons_of_mem_unknownOpcodes {op : Byte} (h : op ∈ unknownOpcodes) (rest : List Byte) :
    decode (op :: rest) = .ok (.unknown op, rest) := by
  simp only [decode, lookup_of_mem_unknownOpcodes h]

/-- An Unknown instruction has an encoding only where R176 lists its byte. -/
theorem mem_unknownOpcodes_of_opcode_unknown {u op : Byte} (h : (Instr.unknown u).opcode = some op) :
    op ∈ unknownOpcodes := by
  rw [Instr.opcode, Option.ite_none_right_eq_some, List.contains_iff_mem] at h
  obtain ⟨hmem, hu⟩ := h
  cases hu
  exact hmem

/-- Settles O4: the listed bytes have no row in the table, and whatever decodes has the byte read as its own opcode. -/
theorem unknownBytesAreOneByteLong : Obligations.UnknownBytesAreOneByteLong := by
  unfold Obligations.UnknownBytesAreOneByteLong
  refine ⟨by decide, by decide, fun op rest => ⟨fun hmem => decode_cons_of_mem_unknownOpcodes hmem rest, ?_⟩⟩
  intro hnotMem u rest' hdecode
  obtain ⟨-, hop, -⟩ := decode_cons_ok hdecode
  exact hnotMem (mem_unknownOpcodes_of_opcode_unknown hop)

end Sys2Proof
end

section
/-! The sums of the indexed modes in integers (30_encoding.md R153-R162). -/

namespace Sys2Proof.Machine

@[simp] theorem zext_toNat (b : Byte) : (zext b).toNat = b.toNat := by
  rw [zext_eq_ofNat, BitVec.toNat_ofNat, Nat.mod_eq_of_lt (by omega)]

theorem zpIndexed_toNat (d index : Byte) : (zpIndexed d index).toNat = (d.toNat + index.toNat) % 256 := by
  rw [zpIndexed, zext_toNat, BitVec.toNat_add]

theorem indexed_toNat (base : Addr) (index : Byte) :
    (indexed base index).toNat = (base.toNat + index.toNat) % 65536 := by
  rw [indexed, BitVec.toNat_add, zext_toNat]

theorem byte_add_eq_ofNat (a b : Byte) : a + b = BitVec.ofNat 8 ((a.toNat + b.toNat) % 256) := by
  apply BitVec.eq_of_toNat_eq
  rw [BitVec.toNat_add, BitVec.toNat_ofNat, Nat.mod_mod]

/-- Settles O34: mode by mode the sum in integers, and for the state the closed form of `effectiveAddr`. -/
theorem effectiveAddressesFollowTheModes : Obligations.EffectiveAddressesFollowTheModes := by
  unfold Obligations.EffectiveAddressesFollowTheModes
  intro s d d16
  refine ⟨?zp, ?zpX, ?zpY, ?abs, ?absX, ?absY, ?indX, ?indY, fun m => effectiveAddr_eq m s⟩
  case zp => exact zext_toNat d
  case zpX => exact zpIndexed_toNat d s.x
  case zpY => exact zpIndexed_toNat d s.y
  case abs => rfl
  case absX => exact indexed_toNat d16 s.x
  case absY => exact indexed_toNat d16 s.y
  case indX => rw [← byte_add_eq_ofNat]; rfl
  case indY => exact indexed_toNat (zpRead16 d s).1 s.y

end Sys2Proof.Machine
end

section
/-! How the decoder reads a byte whose row of the opcode table is known (30_encoding.md R142, R143, R145). -/

namespace Sys2Proof

theorem oneByte_of_lookup {op : Byte} {i : Instr} (h : lookup op = .one i) : OneByte op i := by
  intro rest
  simp only [decode, h]

theorem twoBytes_of_lookup {op : Byte} {f : Byte → Instr} (h : lookup op = .two f) : TwoBytes op f := by
  intro d rest
  simp only [decode, h]

theorem threeBytes_of_lookup {op : Byte} {f : Addr → Instr} (h : lookup op = .three f) : ThreeBytes op f := by
  intro lo hi rest
  simp only [decode, h, Laws.pair_eq_ofNat]

/-- `hrows` says that the decoder's table holds the eight rows, so it closes by `rfl` for each instruction. -/
theorem accumulatorEncodings_of_rows {k : Src → Instr} {imm zp zpX abs absX absY indX indY : Byte}
    (hrows : (accumulatorRows k indX zp imm abs indY zpX absY absX).map (fun e => lookup e.1) =
      (accumulatorRows k indX zp imm abs indY zpX absY absX).map Prod.snd) :
    AccumulatorEncodings k imm zp zpX abs absX absY indX indY := by
  simp only [accumulatorRows, List.map_cons, List.cons.injEq] at hrows
  obtain ⟨hindX, hzp, himm, habs, hindY, hzpX, habsY, habsX, -⟩ := hrows
  exact ⟨twoBytes_of_lookup himm, twoBytes_of_lookup hzp, twoBytes_of_lookup hzpX, threeBytes_of_lookup habs,
    threeBytes_of_lookup habsX, threeBytes_of_lookup habsY, twoBytes_of_lookup hindX, twoBytes_of_lookup hindY⟩

end Sys2Proof
end

section
/-! Loads and stores (40_load_store.md R190-R196). -/

namespace Sys2Proof.Machine

/-! ## The next state of each instruction, from the closed forms of `loadSrc` and `storeMem` -/

theorem exec_lda (src : Src) (s : State) :
    exec (.lda src) s = .next (((s.logged (s.mem.readEvents (operandReads src s))).setA (operandOf src s)).setNZ
      (operandOf src s)) := by
  change execLda src s = _
  rw [execLda, loadSrc_eq]

theorem exec_ldx (src : Src) (s : State) :
    exec (.ldx src) s = .next (((s.logged (s.mem.readEvents (operandReads src s))).setX (operandOf src s)).setNZ
      (operandOf src s)) := by
  change execLdx src s = _
  rw [execLdx, loadSrc_eq]

theorem exec_ldy (src : Src) (s : State) :
    exec (.ldy src) s = .next (((s.logged (s.mem.readEvents (operandReads src s))).setY (operandOf src s)).setNZ
      (operandOf src s)) := by
  change execLdy src s = _
  rw [execLdy, loadSrc_eq]

/-- The whole state that a store leaves: the pointer reads of the mode come before the write in the log. -/
theorem storeMem_eq_update (m : MemMode) (v : Byte) (s : State) :
    storeMem m v s =
      { s with mem := s.mem.write (eaOf m s) v,
               log := s.log ++ s.mem.readEvents (eaReads m s) ++ s.mem.writeEvents (eaOf m s) } := by
  rw [storeMem_eq, List.append_assoc]
  rfl

theorem exec_sta (m : MemMode) (s : State) : exec (.sta m) s = .next (storeMem m s.a s) := rfl

theorem exec_stx (m : MemMode) (s : State) : exec (.stx m) s = .next (storeMem m s.x s) := rfl

theorem exec_sty (m : MemMode) (s : State) : exec (.sty m) s = .next (storeMem m s.y s) := rfl

/-! ## The obligations -/

/-- Settles O36: each load is the closed form of its operand read, then `SetNZ`; the encodings are rows of the table. -/
theorem loadsSetTheirRegisterAndNZ : Obligations.LoadsSetTheirRegisterAndNZ := by
  unfold Obligations.LoadsSetTheirRegisterAndNZ
  refine ⟨?effect, ?lda, ?ldx, ?ldy⟩
  case effect =>
    intro src s
    exact ⟨maskP (putNZ s.p (operandOf src s)), keepsFlags_putNZ s.p _, showsNZ_putNZ s.p _, exec_lda src s,
      exec_ldx src s, exec_ldy src s⟩
  case lda => exact accumulatorEncodings_of_rows rfl
  case ldx =>
    exact ⟨twoBytes_of_lookup rfl, twoBytes_of_lookup rfl, twoBytes_of_lookup rfl, threeBytes_of_lookup rfl,
      threeBytes_of_lookup rfl⟩
  case ldy =>
    exact ⟨twoBytes_of_lookup rfl, twoBytes_of_lookup rfl, twoBytes_of_lookup rfl, threeBytes_of_lookup rfl,
      threeBytes_of_lookup rfl⟩

/-- Settles O37: each store is one `Memory.write` at the effective address, which does what `StoredAt` says; the encodings
are rows of the table. -/
theorem storesWriteTheEffectiveAddress : Obligations.StoresWriteTheEffectiveAddress := by
  unfold Obligations.StoresWriteTheEffectiveAddress
  refine ⟨?effect, ?sta, ?stx, ?sty⟩
  case effect =>
    intro m s hwf
    simp only [exec_sta, exec_stx, exec_sty, storeMem_eq_update]
    exact ⟨s.mem.write (eaOf m s) s.a, s.mem.write (eaOf m s) s.x, s.mem.write (eaOf m s) s.y,
      storedAt_write hwf _ _, storedAt_write hwf _ _, storedAt_write hwf _ _, rfl, rfl, rfl⟩
  case sta =>
    exact ⟨twoBytes_of_lookup rfl, twoBytes_of_lookup rfl, threeBytes_of_lookup rfl, threeBytes_of_lookup rfl,
      threeBytes_of_lookup rfl, twoBytes_of_lookup rfl, twoBytes_of_lookup rfl⟩
  case stx => exact ⟨twoBytes_of_lookup rfl, twoBytes_of_lookup rfl, threeBytes_of_lookup rfl⟩
  case sty => exact ⟨twoBytes_of_lookup rfl, twoBytes_of_lookup rfl, threeBytes_of_lookup rfl⟩

end Sys2Proof.Machine
end

section
/-! Register transfers and the stack instructions (41_transfer_stack.md R210-R222). -/

namespace Sys2Proof.Machine

/-! ## The stack byte of a push and of a pop -/

/-- The whole state that a push leaves: SP counts down also where the byte is dropped (41_transfer_stack.md R210). -/
theorem push_eq_update (b : Byte) (s : State) :
    push b s =
      { s with sp := s.sp - 1#8, mem := s.mem.write (stackAddr s.sp) b,
               log := s.log ++ s.mem.writeEvents (stackAddr s.sp) } := push_eq b s

/-- The byte that a pop returns and the whole state that it leaves (41_transfer_stack.md R211). -/
theorem pop_eq_update (s : State) :
    pop s =
      (s.mem.peek (stackAddr (s.sp + 1#8)),
        { s with sp := s.sp + 1#8, log := s.log ++ s.mem.readEvents [stackAddr (s.sp + 1#8)] }) := pop_eq s

theorem byte_sub_one_toNat (v : Byte) : (v - 1#8).toNat = (v.toNat + 255) % 256 := by
  rw [BitVec.toNat_sub, Nat.add_comm]
  rfl

/-- SP wraps within a byte, so the address that a pop reads stays in page 1 (10_state.md R44). -/
theorem stackAddr_add_one_eq (sp : Byte) : stackAddr (sp + 1#8) = BitVec.ofNat 16 (0x100 + (sp.toNat + 1) % 256) := by
  rw [stackAddr_eq, BitVec.toNat_add]
  rfl

/-! ## A pop after a push -/

@[simp] theorem pop_push_sp (b : Byte) (s : State) : (pop (push b s)).2.sp = s.sp := by
  simp [pop_eq, push_eq]

/-- The pop reads the address that the push wrote. -/
theorem pop_push_byte (b : Byte) (s : State) :
    (pop (push b s)).1 = (s.mem.write (stackAddr s.sp) b).peek (stackAddr s.sp) := by
  simp [pop_eq, push_eq]

theorem pop_push_byte_of_storable {s : State} (hwf : s.mem.wf = true) (hst : s.mem.storable (stackAddr s.sp) = true)
    (b : Byte) : (pop (push b s)).1 = b := by
  rw [pop_push_byte, Memory.peek_write hwf, if_pos ⟨hst, rfl⟩]

theorem pop_push_byte_of_not_storable {s : State} (hst : s.mem.storable (stackAddr s.sp) = false) (b : Byte) :
    (pop (push b s)).1 = s.mem.peek (stackAddr s.sp) := by
  rw [pop_push_byte, Memory.write_of_not_storable hst]

theorem pop_push_byte_of_resolve_none {s : State} (hres : s.mem.resolve (stackAddr s.sp) = none) (b : Byte) :
    (pop (push b s)).1 = 0x00#8 := by
  rw [pop_push_byte, Memory.write_of_resolve_none hres, Memory.byteAt_of_resolve_none hres]

/-! ## The next state of each instruction -/

theorem exec_tax (s : State) : exec .tax s = .next ((s.setX s.a).setNZ s.a) := rfl

theorem exec_tay (s : State) : exec .tay s = .next ((s.setY s.a).setNZ s.a) := rfl

theorem exec_txa (s : State) : exec .txa s = .next ((s.setA s.x).setNZ s.x) := rfl

theorem exec_tya (s : State) : exec .tya s = .next ((s.setA s.y).setNZ s.y) := rfl

theorem exec_tsx (s : State) : exec .tsx s = .next ((s.setX s.sp).setNZ s.sp) := rfl

theorem exec_txs (s : State) : exec .txs s = .next (s.setSP s.x) := rfl

theorem exec_pha (s : State) : exec .pha s = .next (push s.a s) := rfl

theorem exec_php (s : State) : exec .php s = .next (push (pushedP s.p) s) := rfl

theorem exec_pla (s : State) : exec .pla s = .next (((pop s).2.setA (pop s).1).setNZ (pop s).1) := rfl

theorem exec_plp (s : State) : exec .plp s = .next ((pop s).2.setP (pop s).1) := rfl

/-! ## The obligations -/

/-- Settles O38: each transfer but TXS is its register write, then `SetNZ` of the value copied; the encodings are rows of
the table. -/
theorem transfersCopyOneRegister : Obligations.TransfersCopyOneRegister := by
  unfold Obligations.TransfersCopyOneRegister
  refine ⟨fun s => ⟨?fromA, ?fromX, ?fromY, ?fromSP, exec_txs s⟩, ?encodings⟩
  case fromA => exact ⟨_, keepsFlags_putNZ s.p s.a, showsNZ_putNZ s.p s.a, exec_tax s, exec_tay s⟩
  case fromX => exact ⟨_, keepsFlags_putNZ s.p s.x, showsNZ_putNZ s.p s.x, exec_txa s⟩
  case fromY => exact ⟨_, keepsFlags_putNZ s.p s.y, showsNZ_putNZ s.p s.y, exec_tya s⟩
  case fromSP => exact ⟨_, keepsFlags_putNZ s.p s.sp, showsNZ_putNZ s.p s.sp, exec_tsx s⟩
  case encodings =>
    exact ⟨oneByte_of_lookup rfl, oneByte_of_lookup rfl, oneByte_of_lookup rfl, oneByte_of_lookup rfl,
      oneByte_of_lookup rfl, oneByte_of_lookup rfl⟩

/-- Settles O39: a push is one `Memory.write` at the stack byte, which does what `StoredAt` says; the encodings are rows of
the table. -/
theorem pushesStoreAtTheStackByte : Obligations.PushesStoreAtTheStackByte := by
  unfold Obligations.PushesStoreAtTheStackByte
  simp only [← stackAddr_eq, exec_pha, exec_php, push_eq_update]
  refine ⟨?push, ?instructions, oneByte_of_lookup rfl, oneByte_of_lookup rfl⟩
  case push =>
    intro s b hwf
    exact ⟨_, _, storedAt_write hwf _ _, byte_sub_one_toNat s.sp, rfl⟩
  case instructions =>
    intro s hwf
    refine ⟨_, _, pushedP s.p, storedAt_write hwf _ _, storedAt_write hwf _ _, ?bit4, ?bit5, ?others, rfl, rfl⟩
    case bit4 => rw [getLsbD_pushedP, if_pos (.inl rfl)]
    case bit5 => rw [getLsbD_pushedP, if_pos (.inr rfl)]
    case others =>
      intro k h4 h5
      rw [getLsbD_pushedP, if_neg (not_or.mpr ⟨h4, h5⟩)]

/-- Settles O40: PLA is the pop, then `SetNZ` of its byte; PLP writes the byte through the mask of FLAGS; the encodings are
rows of the table. -/
theorem pullsReadTheStackByte : Obligations.PullsReadTheStackByte := by
  unfold Obligations.PullsReadTheStackByte
  simp only [← stackAddr_add_one_eq, exec_pla, exec_plp, pop_eq_update]
  refine ⟨?effect, oneByte_of_lookup rfl, oneByte_of_lookup rfl⟩
  case effect =>
    rintro s _ rfl
    refine ⟨⟨_, BitVec.toNat_add s.sp 1#8, rfl⟩, ⟨_, keepsFlags_putNZ s.p _, showsNZ_putNZ s.p _, rfl⟩,
      ⟨_, maskP_bit5 _, ?plpBits, rfl⟩⟩
    case plpBits =>
      intro k h5
      rw [getLsbD_maskP, if_neg h5]

/-- Settles O41: SP counts down and up again, so the pop reads the address of the push, where the write was kept or
dropped. -/
theorem popAfterPushReturnsTheByte : Obligations.PopAfterPushReturnsTheByte := by
  unfold Obligations.PopAfterPushReturnsTheByte
  intro s b hwf
  exact ⟨pop_push_sp b s, fun hst => pop_push_byte_of_storable hwf hst b,
    fun hres => pop_push_byte_of_resolve_none hres b, fun hst => pop_push_byte_of_not_storable hst b⟩

end Sys2Proof.Machine
end

section
/-! Addition, subtraction and comparison (42_alu_arith.md R231-R244). -/

namespace Sys2Proof.Machine

/-! ## Binary sums and differences in integers -/

theorem testBit8_iff_of_lt {n : Nat} (h : n < 512) : n.testBit 8 = true ↔ 256 ≤ n := by
  rw [Nat.testBit_eq_decide_div_mod_eq, decide_eq_true_iff]
  omega

/-- Signed overflow: the result's sign differs from that of both operands (42_alu_arith.md R232). -/
theorem msb_overflow_iff {a m r : Byte} {c : Bool} (hr : r.toNat = (a.toNat + m.toNat + c.toNat) % 256) :
    ((a ^^^ r) &&& (m ^^^ r)).msb = true ↔
      a.toInt + m.toInt + (c.toNat : Int) < -128 ∨ 127 < a.toInt + m.toInt + (c.toNat : Int) := by
  have hc := c.toNat_le
  have hbits : ((a ^^^ r) &&& (m ^^^ r)).msb = true ↔ a.msb ≠ r.msb ∧ m.msb ≠ r.msb := by simp
  rw [hbits]
  simp only [BitVec.msb_eq_decide, BitVec.toInt_eq_toNat_cond, ne_eq, decide_eq_decide]
  omega

theorem binarySum_addBin (p a m : Byte) (c : Bool) :
    BinarySum a m c (addBin a m c).r (maskP (putSum p (addBin a m c))) := by
  have hr : (addBin a m c).r.toNat = (a.toNat + m.toNat + c.toNat) % 256 := BitVec.toNat_ofNat ..
  have hc := c.toNat_le
  refine ⟨hr, ⟨flagN_putSum p _, ?z⟩, ?c, ?v⟩
  case z => rw [flagZ_putSum]; exact beq_zero_iff _
  case c => rw [flagC_putSum]; exact testBit8_iff_of_lt (by omega)
  case v => rw [flagV_putSum]; exact msb_overflow_iff hr

theorem byte_not_toNat (m : Byte) : (~~~m).toNat = 255 - m.toNat := BitVec.toNat_not

theorem byte_not_toInt (m : Byte) : (~~~m).toInt = -m.toInt - 1 := by
  rw [BitVec.toInt_eq_toNat_cond, BitVec.toInt_eq_toNat_cond, byte_not_toNat]
  omega

/-- Subtraction is addition of the ones' complement (42_alu_arith.md R233). -/
theorem binaryDifference_of_binarySum_not {a m r p' : Byte} {c : Bool} (h : BinarySum a (~~~m) c r p') :
    BinaryDifference a m c r p' := by
  obtain ⟨hr, hnz, hc, hv⟩ := h
  rw [byte_not_toNat] at hr hc
  rw [byte_not_toInt] at hv
  refine ⟨?d, hnz, hc.trans ?c, hv.trans ?v⟩ <;> omega

theorem binaryDifference_subBin (p a m : Byte) (c : Bool) :
    BinaryDifference a m c (subBin a m c).r (maskP (putSum p (subBin a m c))) :=
  binaryDifference_of_binarySum_not (binarySum_addBin p a (~~~m) c)

/-! ## Decimal digits -/

theorem highDigit_eq (a : Byte) : a &&& 0xF0#8 = BitVec.ofNat 8 (a.toNat / 16 * 16) := by
  rw [show (0xF0#8) = BitVec.allOnes 8 <<< 4 from rfl, ← BitVec.shiftLeft_ushiftRight]
  apply BitVec.eq_of_toNat_eq
  simp [Nat.shiftLeft_eq, Nat.shiftRight_eq_div_pow]

theorem highDigit_toNat (a : Byte) : (a &&& 0xF0#8).toNat = a.toNat / 16 * 16 := by
  rw [highDigit_eq, BitVec.toNat_ofNat]
  omega

/-- The number whose low byte is `t` modulo 100 in BCD, with the carry or borrow of `t` above it. -/
def bcdWord (t : Int) : Int := t / 100 * 256 + t % 100 / 10 * 16 + t % 10

theorem bcdWord_byte {r : Byte} {t : Int} (h : (r.toNat : Int) = bcdWord t % 256) :
    ValidBcd r ∧ (bcdValue r : Int) = t % 100 := by
  have hdigits : (r.toNat : Int) = t % 100 / 10 * 16 + t % 10 := by
    unfold bcdWord at h
    omega
  unfold ValidBcd bcdValue
  omega

theorem le_bcdWord_iff (t : Int) : 256 ≤ bcdWord t ↔ 100 ≤ t := by
  unfold bcdWord
  omega

/-! ## Decimal sums -/

/-- The decimal adjustment of a sum of two low digits (42_alu_arith.md R236). -/
def adjustLowSum (lo : Nat) : Nat := if 10 ≤ lo then (lo + 6) % 16 + 16 else lo

/-- The sum of the low digits, adjusted (42_alu_arith.md R236, `lo`). -/
def sumLow (a m : Byte) (c : Bool) : Nat := adjustLowSum (a.toNat % 16 + m.toNat % 16 + c.toNat)

/-- The sum before the high digit is adjusted (42_alu_arith.md R236). -/
def sumRaw (a m : Byte) (c : Bool) : Nat := a.toNat / 16 * 16 + m.toNat / 16 * 16 + sumLow a m c

/-- The sum with both digits adjusted (42_alu_arith.md R236). -/
def sumAdjusted (a m : Byte) (c : Bool) : Nat := if 160 ≤ sumRaw a m c then sumRaw a m c + 96 else sumRaw a m c

theorem addDec_eq (a m : Byte) (c : Bool) :
    addDec a m c =
      { r := BitVec.ofNat 8 (sumAdjusted a m c), n := (sumRaw a m c).testBit 7,
        v := decide (signedHighDigit a + signedHighDigit m + (sumLow a m c : Int) < -128) ||
          decide (127 < signedHighDigit a + signedHighDigit m + (sumLow a m c : Int)),
        z := (addBin a m c).z, c := decide (256 ≤ sumAdjusted a m c) } := by
  simp only [addDec, highDigit_toNat]
  simp only [highDigit_eq]
  rfl

/-- The four cases are whether the low digits carry and whether the high digits do. -/
theorem sumAdjusted_of_validBcd {a m : Byte} (ha : ValidBcd a) (hm : ValidBcd m) (c : Bool) :
    (sumAdjusted a m c : Int) = bcdWord (bcdValue a + bcdValue m + c.toNat : Nat) := by
  obtain ⟨hal, hah⟩ := ha
  obtain ⟨hml, hmh⟩ := hm
  have hc := c.toNat_le
  unfold sumAdjusted sumRaw sumLow adjustLowSum bcdWord bcdValue
  generalize a.toNat / 16 = ah, a.toNat % 16 = al, m.toNat / 16 = mh, m.toNat % 16 = ml at *
  split <;> split <;> omega

theorem decimalSum_addDec (p a m : Byte) (c : Bool) :
    DecimalSum a m c (addDec a m c).r (maskP (putSum p (addDec a m c))) := by
  have hr : (addDec a m c).r.toNat = sumAdjusted a m c % 256 := by rw [addDec_eq, BitVec.toNat_ofNat]
  have hcarry : flagC (maskP (putSum p (addDec a m c))) = true ↔ 256 ≤ sumAdjusted a m c := by
    rw [flagC_putSum, addDec_eq, decide_eq_true_iff]
  refine ⟨⟨_, sumLow a m c, sumRaw a m c, sumAdjusted a m c, rfl, rfl, rfl, rfl, ?n, ?v, hr, hcarry⟩, ?z, ?bcd⟩
  case n =>
    rw [flagN_putSum, addDec_eq, Nat.testBit_eq_decide_div_mod_eq, decide_eq_decide]
    omega
  case v => rw [flagV_putSum, addDec_eq, Bool.or_eq_true, decide_eq_true_iff, decide_eq_true_iff]
  case z =>
    rw [flagZ_putSum]
    exact (beq_zero_iff _).trans (by simp [BitVec.toNat_eq])
  case bcd =>
    intro ha hm
    have hword := sumAdjusted_of_validBcd ha hm c
    obtain ⟨hvalid, hvalue⟩ := bcdWord_byte (r := (addDec a m c).r) (by rw [← hword, hr]; rfl)
    have hle := le_bcdWord_iff (bcdValue a + bcdValue m + c.toNat : Nat)
    rw [← hword] at hle
    exact ⟨hvalid, by exact_mod_cast hvalue, hcarry.trans (by exact_mod_cast hle)⟩

/-! ## Decimal differences -/

/-- The decimal adjustment of a difference of two low digits (42_alu_arith.md R237). -/
def adjustLowDifference (lo : Int) : Int := if lo < 0 then (lo - 6) % 16 - 16 else lo

/-- The difference of the low digits, adjusted (42_alu_arith.md R237, `lo`). -/
def differenceLow (a m : Byte) (c : Bool) : Int :=
  adjustLowDifference ((a.toNat % 16 : Nat) - (m.toNat % 16 : Nat) + c.toNat - 1)

/-- The difference before the high digit is adjusted (42_alu_arith.md R237). -/
def differenceRaw (a m : Byte) (c : Bool) : Int :=
  (a.toNat / 16 * 16 : Nat) - (m.toNat / 16 * 16 : Nat) + differenceLow a m c

/-- The difference with both digits adjusted (42_alu_arith.md R237). -/
def differenceAdjusted (a m : Byte) (c : Bool) : Int :=
  if differenceRaw a m c < 0 then differenceRaw a m c - 96 else differenceRaw a m c

theorem subDecByte_eq (a m : Byte) (c : Bool) : subDecByte a m c = BitVec.ofInt 8 (differenceAdjusted a m c) := by
  simp only [subDecByte, highDigit_toNat]
  rfl

theorem subDecByte_toNat (a m : Byte) (c : Bool) :
    ((subDecByte a m c).toNat : Int) = differenceAdjusted a m c % 256 := by
  rw [subDecByte_eq, BitVec.toNat_ofInt]
  omega

/-- The four cases are whether the low digits borrow and whether the high digits do. -/
theorem differenceAdjusted_of_validBcd {a m : Byte} (ha : ValidBcd a) (hm : ValidBcd m) (c : Bool) :
    differenceAdjusted a m c = bcdWord (bcdValue a - bcdValue m - (1 - (c.toNat : Int))) := by
  obtain ⟨hal, hah⟩ := ha
  obtain ⟨hml, hmh⟩ := hm
  have hc := c.toNat_le
  unfold differenceAdjusted differenceRaw differenceLow adjustLowDifference bcdWord bcdValue
  generalize a.toNat / 16 = ah, a.toNat % 16 = al, m.toNat / 16 = mh, m.toNat % 16 = ml at *
  split <;> split <;> omega

/-- Valid BCD bytes are ordered as the numbers that they stand for, so a binary borrow is a BCD borrow. -/
theorem noBorrow_iff_of_validBcd {a m : Byte} (ha : ValidBcd a) (hm : ValidBcd m) (c : Bool) :
    0 ≤ (a.toNat : Int) - m.toNat - (1 - (c.toNat : Int)) ↔
      0 ≤ (bcdValue a : Int) - bcdValue m - (1 - (c.toNat : Int)) := by
  obtain ⟨hal, hah⟩ := ha
  obtain ⟨hml, hmh⟩ := hm
  have hc := c.toNat_le
  unfold bcdValue
  omega

theorem decimalDifference_subDec (p a m : Byte) (c : Bool) :
    DecimalDifference a m c (subDec a m c).r (maskP (putSum p (subDec a m c))) := by
  have hbin : BinaryDifference a m c (subBin a m c).r (maskP (putSum p (subDec a m c))) :=
    binaryDifference_subBin p a m c
  have hr := subDecByte_toNat a m c
  refine ⟨⟨_, differenceLow a m c, differenceRaw a m c, rfl, rfl, rfl, hr⟩, ⟨_, hbin⟩, ?bcd⟩
  case bcd =>
    intro ha hm
    rw [differenceAdjusted_of_validBcd ha hm] at hr
    obtain ⟨hvalid, hvalue⟩ := bcdWord_byte hr
    obtain ⟨-, -, hcarry, -⟩ := hbin
    exact ⟨hvalid, hvalue, hcarry.trans (noBorrow_iff_of_validBcd ha hm c)⟩

/-! ## Comparison -/

theorem getLsbD_putCompare (p reg m : Byte) (k : Nat) :
    (putCompare p reg m).getLsbD k =
      if k = 7 then (reg - m).msb else if k = 1 then reg == m
      else if k = 0 then decide (m.toNat ≤ reg.toNat) else p.getLsbD k := by
  simp [-BitVec.getLsbD_eq_getElem, putCompare, putC, putZ, putN, getLsbD_withBit]

theorem byte_sub_msb (a b : Byte) : (a - b).msb = decide (128 ≤ (a.toNat + 256 - b.toNat) % 256) := by
  rw [BitVec.msb_eq_decide, BitVec.toNat_sub, decide_eq_decide]
  omega

theorem comparedFlags_putCompare (p reg m : Byte) : ComparedFlags p (maskP (putCompare p reg m)) reg m := by
  refine ⟨keepsFlags_mask ?keeps, ?c, ?z, ?n⟩
  case keeps =>
    intro k _ _ hw
    simp only [List.mem_cons, List.not_mem_nil, or_false, not_or] at hw
    simp [-BitVec.getLsbD_eq_getElem, getLsbD_putCompare, hw]
  case c => simp [-BitVec.getLsbD_eq_getElem, flagC, getLsbD_maskP, getLsbD_putCompare]
  case z => simp [-BitVec.getLsbD_eq_getElem, flagZ, getLsbD_maskP, getLsbD_putCompare]
  case n => simp [-BitVec.getLsbD_eq_getElem, flagN, getLsbD_maskP, getLsbD_putCompare, byte_sub_msb]

/-! ## The result of the ALU in both modes (42_alu_arith.md R235) -/

theorem decimalActive_eq_false {dm : DecimalMode} {p : Byte} (h : flagD p = false ∨ dm = .binary) :
    decimalActive dm p = false := by
  obtain hd | rfl := h
  · rw [decimalActive, hd, Bool.false_and]
  · exact Bool.and_false _

theorem decimalActive_eq_true {dm : DecimalMode} {p : Byte} (hd : flagD p = true) (hdm : dm = .nmos) :
    decimalActive dm p = true := by
  subst hdm
  rw [decimalActive, hd]
  rfl

theorem alu_add_of_binary {dm : DecimalMode} {p : Byte} (h : flagD p = false ∨ dm = .binary) (a m : Byte) :
    alu dm .add a m p = ((addBin a m (flagC p)).r, putSum p (addBin a m (flagC p))) := by
  simp [alu, decimalActive_eq_false h]

theorem alu_add_of_decimal {dm : DecimalMode} {p : Byte} (hd : flagD p = true) (hdm : dm = .nmos) (a m : Byte) :
    alu dm .add a m p = ((addDec a m (flagC p)).r, putSum p (addDec a m (flagC p))) := by
  simp [alu, decimalActive_eq_true hd hdm]

theorem alu_sub_of_binary {dm : DecimalMode} {p : Byte} (h : flagD p = false ∨ dm = .binary) (a m : Byte) :
    alu dm .sub a m p = ((subBin a m (flagC p)).r, putSum p (subBin a m (flagC p))) := by
  simp [alu, decimalActive_eq_false h]

theorem alu_sub_of_decimal {dm : DecimalMode} {p : Byte} (hd : flagD p = true) (hdm : dm = .nmos) (a m : Byte) :
    alu dm .sub a m p = ((subDec a m (flagC p)).r, putSum p (subDec a m (flagC p))) := by
  simp [alu, decimalActive_eq_true hd hdm]

theorem keepsFlags_alu_add (dm : DecimalMode) (a m p : Byte) :
    KeepsFlags [0, 1, 6, 7] p (maskP (alu dm .add a m p).2) := keepsFlags_putSum p _

theorem keepsFlags_alu_sub (dm : DecimalMode) (a m p : Byte) :
    KeepsFlags [0, 1, 6, 7] p (maskP (alu dm .sub a m p).2) := keepsFlags_putSum p _

/-! ## The next state of each instruction -/

/-- The whole state that an arithmetic instruction on A leaves, after its operand read. -/
theorem aluToA_loadSrc_eq (op : AluOp) (src : Src) (s : State) :
    aluToA op (loadSrc src s).1 (loadSrc src s).2 =
      { s with a := (alu s.config.decimalMode op s.a (operandOf src s) s.p).1,
               p := maskP (alu s.config.decimalMode op s.a (operandOf src s) s.p).2,
               log := s.log ++ s.mem.readEvents (operandReads src s) } := by
  rw [loadSrc_eq]
  rfl

/-- The whole state that a comparison leaves, after its operand read. -/
theorem aluToFlags_cmp_loadSrc_eq (reg : Byte) (src : Src) (s : State) :
    aluToFlags .cmp reg (loadSrc src s).1 (loadSrc src s).2 =
      { s with p := maskP (putCompare s.p reg (operandOf src s)),
               log := s.log ++ s.mem.readEvents (operandReads src s) } := by
  rw [loadSrc_eq]
  rfl

theorem exec_adc (src : Src) (s : State) :
    exec (.adc src) s = .next (aluToA .add (loadSrc src s).1 (loadSrc src s).2) := rfl

theorem exec_sbc (src : Src) (s : State) :
    exec (.sbc src) s = .next (aluToA .sub (loadSrc src s).1 (loadSrc src s).2) := rfl

theorem exec_cmp (src : Src) (s : State) :
    exec (.cmp src) s = .next (aluToFlags .cmp s.a (loadSrc src s).1 (loadSrc src s).2) := by
  change execCmp src s = _
  rw [execCmp, loadSrc_eq, State.logged_a]

theorem exec_cpx (src : Src) (s : State) :
    exec (.cpx src) s = .next (aluToFlags .cmp s.x (loadSrc src s).1 (loadSrc src s).2) := by
  change execCpx src s = _
  rw [execCpx, loadSrc_eq, State.logged_x]

theorem exec_cpy (src : Src) (s : State) :
    exec (.cpy src) s = .next (aluToFlags .cmp s.y (loadSrc src s).1 (loadSrc src s).2) := by
  change execCpy src s = _
  rw [execCpy, loadSrc_eq, State.logged_y]

/-! ## The obligations -/

/-- Settles O42: the ALU adds in the mode that P.D and DECIMAL_MODE select, and each mode's sum is the one stated; the
encodings are rows of the table. -/
theorem adcAddsInBinaryOrDecimal : Obligations.AdcAddsInBinaryOrDecimal := by
  unfold Obligations.AdcAddsInBinaryOrDecimal
  simp only [exec_adc, aluToA_loadSrc_eq]
  refine ⟨fun src s => ⟨_, _, keepsFlags_alu_add _ _ _ _, ?binary, ?decimal, rfl⟩, accumulatorEncodings_of_rows rfl⟩
  case binary =>
    intro h
    rw [alu_add_of_binary h]
    exact binarySum_addBin s.p s.a _ _
  case decimal =>
    intro hd hdm
    rw [alu_add_of_decimal hd hdm]
    exact decimalSum_addDec s.p s.a _ _

/-- Settles O43: the ALU subtracts in the mode that P.D and DECIMAL_MODE select, and each mode's difference is the one
stated; the encodings are rows of the table. -/
theorem sbcSubtractsInBinaryOrDecimal : Obligations.SbcSubtractsInBinaryOrDecimal := by
  unfold Obligations.SbcSubtractsInBinaryOrDecimal
  simp only [exec_sbc, aluToA_loadSrc_eq]
  refine ⟨fun src s => ⟨_, _, keepsFlags_alu_sub _ _ _ _, ?binary, ?decimal, rfl⟩, accumulatorEncodings_of_rows rfl⟩
  case binary =>
    intro h
    rw [alu_sub_of_binary h]
    exact binaryDifference_subBin s.p s.a _ _
  case decimal =>
    intro hd hdm
    rw [alu_sub_of_decimal hd hdm]
    exact decimalDifference_subDec s.p s.a _ _

/-- Settles O44: each comparison writes only FLAGS, as `putCompare` of its register and M leaves it; the encodings are
rows of the table. -/
theorem comparesWriteOnlyFlags : Obligations.ComparesWriteOnlyFlags := by
  unfold Obligations.ComparesWriteOnlyFlags
  simp only [exec_cmp, exec_cpx, exec_cpy, aluToFlags_cmp_loadSrc_eq]
  refine ⟨fun src s => ⟨?cmp, ?cpx, ?cpy⟩, accumulatorEncodings_of_rows rfl, ?cpxRows, ?cpyRows⟩
  case cmp => exact ⟨_, comparedFlags_putCompare s.p s.a _, rfl⟩
  case cpx => exact ⟨_, comparedFlags_putCompare s.p s.x _, rfl⟩
  case cpy => exact ⟨_, comparedFlags_putCompare s.p s.y _, rfl⟩
  case cpxRows => exact ⟨twoBytes_of_lookup rfl, twoBytes_of_lookup rfl, threeBytes_of_lookup rfl⟩
  case cpyRows => exact ⟨twoBytes_of_lookup rfl, twoBytes_of_lookup rfl, threeBytes_of_lookup rfl⟩

end Sys2Proof.Machine
end

section
/-! How the decoder reads the encodings of a shift and of a count in memory (30_encoding.md R143, R145). -/

namespace Sys2Proof

/-- `hrows` says that the decoder's table holds the five rows, so it closes by `rfl` for each instruction. -/
theorem shiftEncodings_of_rows {k : Target → Instr} {acc zp zpX abs absX : Byte}
    (hrows : (shiftRows k zp acc abs zpX absX).map (fun e => lookup e.1) =
      (shiftRows k zp acc abs zpX absX).map Prod.snd) :
    ShiftEncodings k acc zp zpX abs absX := by
  simp only [shiftRows, List.map_cons, List.cons.injEq] at hrows
  obtain ⟨hzp, hacc, habs, hzpX, habsX, -⟩ := hrows
  exact ⟨oneByte_of_lookup hacc, twoBytes_of_lookup hzp, twoBytes_of_lookup hzpX, threeBytes_of_lookup habs,
    threeBytes_of_lookup habsX⟩

/-- `hrows` says that the decoder's table holds the four rows, so it closes by `rfl` for each instruction. -/
theorem incrementEncodings_of_rows {k : MemMode → Instr} {zp zpX abs absX : Byte}
    (hrows : (incrementRows k zp abs zpX absX).map (fun e => lookup e.1) =
      (incrementRows k zp abs zpX absX).map Prod.snd) :
    IncrementEncodings k zp zpX abs absX := by
  simp only [incrementRows, List.map_cons, List.cons.injEq] at hrows
  obtain ⟨hzp, habs, hzpX, habsX, -⟩ := hrows
  exact ⟨twoBytes_of_lookup hzp, twoBytes_of_lookup hzpX, threeBytes_of_lookup habs, threeBytes_of_lookup habsX⟩

end Sys2Proof
end

section
/-! Logic, BIT, shifts and counts (43_alu_logic_shift.md R260-R275). -/

namespace Sys2Proof.Machine

/-! ## The flags of BIT -/

theorem getLsbD_alu_bit (dm : DecimalMode) (a m p : Byte) (k : Nat) :
    (alu dm .bit a m p).2.getLsbD k =
      if k = 1 then a &&& m == 0#8 else if k = 6 then m.getLsbD 6
      else if k = 7 then m.getLsbD 7 else p.getLsbD k := by
  simp only [alu, putZ, putV, putN, getLsbD_withBit _ _ _ _ (by decide : 1 < 8),
    getLsbD_withBit _ _ _ _ (by decide : 6 < 8), getLsbD_withBit _ _ _ _ (by decide : 7 < 8)]

theorem keepsFlags_alu_bit (dm : DecimalMode) (a m p : Byte) :
    KeepsFlags [1, 6, 7] p (maskP (alu dm .bit a m p).2) := by
  apply keepsFlags_mask
  intro k _ _ hw
  simp only [List.mem_cons, List.not_mem_nil, or_false, not_or] at hw
  obtain ⟨h1, h6, h7⟩ := hw
  rw [getLsbD_alu_bit, if_neg h1, if_neg h6, if_neg h7]

theorem flagN_alu_bit (dm : DecimalMode) (a m p : Byte) :
    flagN (maskP (alu dm .bit a m p).2) = m.getLsbD 7 := by
  rw [flagN, getLsbD_maskP, getLsbD_alu_bit]
  rfl

theorem flagV_alu_bit (dm : DecimalMode) (a m p : Byte) :
    flagV (maskP (alu dm .bit a m p).2) = m.getLsbD 6 := by
  rw [flagV, getLsbD_maskP, getLsbD_alu_bit]
  rfl

theorem flagZ_alu_bit (dm : DecimalMode) (a m p : Byte) :
    flagZ (maskP (alu dm .bit a m p).2) = (a &&& m == 0#8) := by
  rw [flagZ, getLsbD_maskP, getLsbD_alu_bit]
  rfl

/-- A and M give zero exactly when they share no bit. -/
theorem byte_and_eq_zero_iff (a m : Byte) : a &&& m = 0#8 ↔ ∀ k, (a.getLsbD k && m.getLsbD k) = false := by
  constructor
  · intro hzero k
    rw [← BitVec.getLsbD_and, hzero, BitVec.getLsbD_zero]
  · intro hbits
    apply BitVec.eq_of_getLsbD_eq
    intro k _
    rw [BitVec.getLsbD_and, hbits, BitVec.getLsbD_zero]

/-! ## A shifted byte and its carry out, in integers (43_alu_logic_shift.md R265) -/

theorem byte_bit7_toNat (v : Byte) : (v.getLsbD 7).toNat = v.toNat / 128 := by
  have hv := v.isLt
  rw [← BitVec.testBit_toNat, Nat.toNat_testBit]
  omega

theorem byte_bit0_toNat (v : Byte) : (v.getLsbD 0).toNat = v.toNat % 2 := by
  rw [← BitVec.testBit_toNat, Nat.toNat_testBit, pow_zero, Nat.div_one]

theorem byte_shiftLeft_one_toNat (v : Byte) : (v <<< 1).toNat = 2 * v.toNat % 256 := by
  rw [BitVec.toNat_shiftLeft, Nat.shiftLeft_eq, Nat.mul_comm]

theorem byte_ushiftRight_one_toNat (v : Byte) : (v >>> 1).toNat = v.toNat / 2 := by
  rw [BitVec.toNat_ushiftRight, Nat.shiftRight_eq_div_pow]

theorem shiftOut_asl_toNat (v : Byte) (c : Bool) :
    (shiftOut .asl v c).1.toNat + 256 * (shiftOut .asl v c).2.toNat = 2 * v.toNat := by
  have hv := v.isLt
  simp only [shiftOut, byte_bit7_toNat, byte_shiftLeft_one_toNat]
  omega

theorem shiftOut_lsr_toNat (v : Byte) (c : Bool) :
    2 * (shiftOut .lsr v c).1.toNat + (shiftOut .lsr v c).2.toNat = v.toNat := by
  simp only [shiftOut, byte_bit0_toNat, byte_ushiftRight_one_toNat]
  omega

/-- The bit that ROL takes in is free in the doubled value, so `or` adds it. -/
theorem shiftOut_rol_byte_toNat (v : Byte) (c : Bool) :
    (shiftOut .rol v c).1.toNat = 2 * v.toNat % 256 + c.toNat := by
  have hlow : c.toNat < 2 ^ 1 := c.toNat_lt
  have hbottom : (BitVec.ofNat 8 c.toNat).toNat = c.toNat := by cases c <;> rfl
  have htop : 2 * v.toNat % 256 = 2 ^ 1 * (v.toNat % 128) := by omega
  calc (shiftOut .rol v c).1.toNat
      = 2 * v.toNat % 256 ||| c.toNat := by
        rw [← hbottom, ← byte_shiftLeft_one_toNat]
        exact BitVec.toNat_or _ _
    _ = 2 * v.toNat % 256 + c.toNat := by rw [htop, Nat.two_pow_add_eq_or_of_lt hlow]

/-- The bit that ROR takes in is free in the halved value, so `or` adds it. -/
theorem shiftOut_ror_byte_toNat (v : Byte) (c : Bool) :
    (shiftOut .ror v c).1.toNat = v.toNat / 2 + 128 * c.toNat := by
  have hlow : v.toNat / 2 < 2 ^ 7 := by omega
  have htop : (BitVec.ofNat 8 c.toNat <<< 7).toNat = 2 ^ 7 * c.toNat := by cases c <;> rfl
  calc (shiftOut .ror v c).1.toNat
      = v.toNat / 2 ||| 2 ^ 7 * c.toNat := by
        rw [← htop, ← byte_ushiftRight_one_toNat]
        exact BitVec.toNat_or _ _
    _ = v.toNat / 2 + 128 * c.toNat := by
        rw [Nat.or_comm, ← Nat.two_pow_add_eq_or_of_lt hlow, Nat.add_comm]

theorem shiftOut_rol_toNat (v : Byte) (c : Bool) :
    (shiftOut .rol v c).1.toNat + 256 * (shiftOut .rol v c).2.toNat = 2 * v.toNat + c.toNat := by
  have hv := v.isLt
  have hcarry : (shiftOut .rol v c).2.toNat = v.toNat / 128 := byte_bit7_toNat v
  rw [shiftOut_rol_byte_toNat, hcarry]
  omega

theorem shiftOut_ror_toNat (v : Byte) (c : Bool) :
    2 * (shiftOut .ror v c).1.toNat + (shiftOut .ror v c).2.toNat = v.toNat + 256 * c.toNat := by
  have hcarry : (shiftOut .ror v c).2.toNat = v.toNat % 2 := byte_bit0_toNat v
  rw [shiftOut_ror_byte_toNat, hcarry]
  omega

/-- A shift or rotate is its `shiftOut`, on A and on memory alike; only `hrel` differs from one to another. -/
theorem shiftsAs_of_shiftOut {mk : Target → Instr} {op : AluOp} {rel : (v c r carry : Nat) → Prop}
    (hexec : ∀ t s, exec (mk t) s = .next (shiftTarget op t s))
    (halu : ∀ dm a m p, alu dm op a m p =
      ((shiftOut op m (flagC p)).1, putShift p (shiftOut op m (flagC p)).1 (shiftOut op m (flagC p)).2))
    (hrel : ∀ v c, rel v.toNat c.toNat (shiftOut op v c).1.toNat (shiftOut op v c).2.toNat) : ShiftsAs mk rel := by
  simp only [ShiftsAs, hexec, shiftTarget, aluToA, modifyMem_eq, halu]
  constructor
  case left =>
    intro s
    exact ⟨_, _, by rw [flagC_putShift]; exact hrel s.a _, showsNZ_putShift s.p _ _, keepsFlags_putShift s.p _ _, rfl⟩
  case right =>
    intro m s hwf
    exact ⟨_, _, _, by rw [flagC_putShift]; exact hrel _ _, showsNZ_putShift s.p _ _, keepsFlags_putShift s.p _ _,
      storedAt_write hwf _ _, rfl⟩

/-! ## The next state of each instruction -/

theorem exec_and (src : Src) (s : State) :
    exec (.and src) s = .next (aluToA .and (loadSrc src s).1 (loadSrc src s).2) := rfl

theorem exec_ora (src : Src) (s : State) :
    exec (.ora src) s = .next (aluToA .ora (loadSrc src s).1 (loadSrc src s).2) := rfl

theorem exec_eor (src : Src) (s : State) :
    exec (.eor src) s = .next (aluToA .eor (loadSrc src s).1 (loadSrc src s).2) := rfl

/-- The whole state that BIT leaves. -/
theorem exec_bit (m : MemMode) (s : State) :
    exec (.bit m) s = .next
      { s with p := maskP (alu s.config.decimalMode .bit s.a (s.mem.peek (eaOf m s)) s.p).2,
               log := s.log ++ s.mem.readEvents (eaReads m s ++ [eaOf m s]) } := by
  change execBit m s = _
  rw [execBit, loadMem_eq]
  rfl

theorem exec_asl (t : Target) (s : State) : exec (.asl t) s = .next (shiftTarget .asl t s) := rfl

theorem exec_lsr (t : Target) (s : State) : exec (.lsr t) s = .next (shiftTarget .lsr t s) := rfl

theorem exec_rol (t : Target) (s : State) : exec (.rol t) s = .next (shiftTarget .rol t s) := rfl

theorem exec_ror (t : Target) (s : State) : exec (.ror t) s = .next (shiftTarget .ror t s) := rfl

theorem exec_inc (m : MemMode) (s : State) : exec (.inc m) s = .next (modifyMem .inc m s) := rfl

theorem exec_dec (m : MemMode) (s : State) : exec (.dec m) s = .next (modifyMem .dec m s) := rfl

theorem exec_inx (s : State) : exec .inx s = .next ((s.setX (s.x + 1#8)).setNZ (s.x + 1#8)) := rfl

theorem exec_iny (s : State) : exec .iny s = .next ((s.setY (s.y + 1#8)).setNZ (s.y + 1#8)) := rfl

theorem exec_dex (s : State) : exec .dex s = .next ((s.setX (s.x - 1#8)).setNZ (s.x - 1#8)) := rfl

theorem exec_dey (s : State) : exec .dey s = .next ((s.setY (s.y - 1#8)).setNZ (s.y - 1#8)) := rfl

/-! ## The obligations -/

/-- Settles O45: each result is one `BitVec` operation, read bit by bit, and its flags are `SetNZ` of it; the encodings
are rows of the table. -/
theorem logicWritesAccumulatorAndNZ : Obligations.LogicWritesAccumulatorAndNZ := by
  unfold Obligations.LogicWritesAccumulatorAndNZ
  simp only [exec_and, exec_ora, exec_eor, aluToA_loadSrc_eq]
  refine ⟨fun src s => ⟨?and, ?ora, ?eor⟩, accumulatorEncodings_of_rows rfl, accumulatorEncodings_of_rows rfl,
    accumulatorEncodings_of_rows rfl⟩
  case and => exact ⟨_, _, fun _ => BitVec.getLsbD_and, keepsFlags_putNZ s.p _, showsNZ_putNZ s.p _, rfl⟩
  case ora => exact ⟨_, _, fun _ => BitVec.getLsbD_or, keepsFlags_putNZ s.p _, showsNZ_putNZ s.p _, rfl⟩
  case eor => exact ⟨_, _, fun _ => BitVec.getLsbD_xor, keepsFlags_putNZ s.p _, showsNZ_putNZ s.p _, rfl⟩

/-- Settles O46: N and V are bits of M as the ALU copies them, Z is the test of `A & M`; the encodings are rows of the
table. -/
theorem bitTestsTheOperand : Obligations.BitTestsTheOperand := by
  unfold Obligations.BitTestsTheOperand
  refine ⟨fun m s => ⟨_, keepsFlags_alu_bit _ _ _ _, flagN_alu_bit _ _ _ _, flagV_alu_bit _ _ _ _, ?z, exec_bit m s⟩,
    twoBytes_of_lookup rfl, threeBytes_of_lookup rfl⟩
  case z =>
    rw [flagZ_alu_bit]
    exact (beq_zero_iff _).trans (byte_and_eq_zero_iff _ _)

/-- Settles O47: one argument for the four, which differ in the relation that `shiftOut` meets; the encodings are rows of
the table. -/
theorem shiftsMoveOneBitThroughCarry : Obligations.ShiftsMoveOneBitThroughCarry := by
  unfold Obligations.ShiftsMoveOneBitThroughCarry
  refine ⟨?asl, ?lsr, ?rol, ?ror, shiftEncodings_of_rows rfl, shiftEncodings_of_rows rfl, shiftEncodings_of_rows rfl,
    shiftEncodings_of_rows rfl⟩
  case asl => exact shiftsAs_of_shiftOut exec_asl (fun _ _ _ _ => rfl) shiftOut_asl_toNat
  case lsr => exact shiftsAs_of_shiftOut exec_lsr (fun _ _ _ _ => rfl) shiftOut_lsr_toNat
  case rol => exact shiftsAs_of_shiftOut exec_rol (fun _ _ _ _ => rfl) shiftOut_rol_toNat
  case ror => exact shiftsAs_of_shiftOut exec_ror (fun _ _ _ _ => rfl) shiftOut_ror_toNat

/-- Settles O48: a read-modify-write stores the counted byte at the address it read, and its flags are `SetNZ` of that
byte; the encodings are rows of the table. -/
theorem memoryCountsWrapAndShowNZ : Obligations.MemoryCountsWrapAndShowNZ := by
  unfold Obligations.MemoryCountsWrapAndShowNZ
  simp only [exec_inc, exec_dec, modifyMem_eq]
  refine ⟨fun m s hwf => ⟨?inc, ?dec⟩, incrementEncodings_of_rows rfl, incrementEncodings_of_rows rfl⟩
  case inc =>
    exact ⟨_, _, _, BitVec.toNat_add _ 1#8, keepsFlags_putNZ s.p _, showsNZ_putNZ s.p _, storedAt_write hwf _ _, rfl⟩
  case dec =>
    exact ⟨_, _, _, byte_sub_one_toNat _, keepsFlags_putNZ s.p _, showsNZ_putNZ s.p _, storedAt_write hwf _ _, rfl⟩

/-- Settles O49: each count is its register write, then `SetNZ` of the counted byte; the encodings are rows of the
table. -/
theorem indexCountsWrapAndShowNZ : Obligations.IndexCountsWrapAndShowNZ := by
  unfold Obligations.IndexCountsWrapAndShowNZ
  refine ⟨fun s => ⟨?inx, ?iny, ?dex, ?dey⟩, oneByte_of_lookup rfl, oneByte_of_lookup rfl, oneByte_of_lookup rfl,
    oneByte_of_lookup rfl⟩
  case inx => exact ⟨_, _, BitVec.toNat_add s.x 1#8, keepsFlags_putNZ s.p _, showsNZ_putNZ s.p _, exec_inx s⟩
  case iny => exact ⟨_, _, BitVec.toNat_add s.y 1#8, keepsFlags_putNZ s.p _, showsNZ_putNZ s.p _, exec_iny s⟩
  case dex => exact ⟨_, _, byte_sub_one_toNat s.x, keepsFlags_putNZ s.p _, showsNZ_putNZ s.p _, exec_dex s⟩
  case dey => exact ⟨_, _, byte_sub_one_toNat s.y, keepsFlags_putNZ s.p _, showsNZ_putNZ s.p _, exec_dey s⟩

end Sys2Proof.Machine
end

section
/-! Control transfer: branches, JMP, JSR and RTS, BRK and RTI (44_control.md R290-R311). -/

namespace Sys2Proof.Machine

/-! ## Stack addresses, and sums and differences of PC, in integers -/

/-- SP wraps within a byte, so what it counts up to is in page 1 (10_state.md R44). -/
theorem stackAddr_add_eq (sp : Byte) (k : Nat) :
    stackAddr (sp + BitVec.ofNat 8 k) = BitVec.ofNat 16 (0x100 + (sp.toNat + k) % 256) := by
  rw [stackAddr_eq, BitVec.toNat_add, BitVec.toNat_ofNat, Nat.add_mod_mod]

/-- Counting down by `k` is counting up by `j` modulo 256, so a push also stays in page 1. -/
theorem stackAddr_sub_eq (sp : Byte) {k j : Nat} (h : k + j = 256) :
    stackAddr (sp - BitVec.ofNat 8 k) = BitVec.ofNat 16 (0x100 + (sp.toNat + j) % 256) := by
  have hsub : sp - BitVec.ofNat 8 k = sp + BitVec.ofNat 8 j := by
    rw [BitVec.sub_eq_iff_eq_add, BitVec.add_assoc, ← BitVec.ofNat_add, Nat.add_comm, h]
    exact (BitVec.add_zero sp).symm
  rw [hsub, stackAddr_add_eq]

theorem addr_sub_one_toNat (addr : Addr) : (addr - 1#16).toNat = (addr.toNat + 65535) % 65536 := by
  rw [BitVec.toNat_sub, Nat.add_comm]
  rfl

theorem highByte_eq_ofNat (addr : Addr) : highByte addr = BitVec.ofNat 8 (addr.toNat / 256) := by
  rw [← highByte_toNat, BitVec.ofNat_toNat, BitVec.setWidth_eq]

theorem lowByte_eq_ofNat (addr : Addr) : lowByte addr = BitVec.ofNat 8 (addr.toNat % 256) := by
  rw [← lowByte_toNat, BitVec.ofNat_toNat, BitVec.setWidth_eq]

/-- The sign-extended offset is the offset as an integer, modulo 65536 (30_encoding.md R156). -/
theorem branchTarget_eq_ofInt (rr : Byte) (s : State) :
    branchTarget rr s = BitVec.ofInt 16 ((s.pc.toNat : Int) + rr.toInt) := by
  rw [BitVec.ofInt_add, BitVec.ofInt_natCast, BitVec.ofNat_toNat, BitVec.setWidth_eq]
  rfl

/-! ## Branches -/

theorem branch_of_set (cond : Bool) (rr : Byte) (s : State) :
    branch cond rr s = if cond = true then s.setPC (BitVec.ofInt 16 ((s.pc.toNat : Int) + rr.toInt)) else s := by
  rw [branch, branchTarget_eq_ofInt]

theorem branch_of_clear (flag : Bool) (rr : Byte) (s : State) :
    branch (!flag) rr s = if flag = false then s.setPC (BitVec.ofInt 16 ((s.pc.toNat : Int) + rr.toInt)) else s := by
  simp only [branch_of_set, Bool.not_eq_true']

/-! ## What the pushes of a call or a trap leave in memory -/

@[simp] theorem Memory.map_pushAddr (m : Memory) (sp : Byte) (addr : Addr) : (m.pushAddr sp addr).map = m.map := by
  simp [Memory.pushAddr]

@[simp] theorem Memory.writeEvents_pushAddr (m : Memory) (sp : Byte) (addr addr' : Addr) :
    (m.pushAddr sp addr).writeEvents addr' = m.writeEvents addr' := by
  simp [Memory.pushAddr]

theorem Memory.wf_pushAddr {m : Memory} (sp : Byte) (addr : Addr) (hm : m.wf = true) :
    (m.pushAddr sp addr).wf = true := Memory.wf_write _ _ (Memory.wf_write _ _ hm)

/-- The two stores of a pushed address, each with the byte it stores as a number. -/
theorem storedAt_pushAddr {m : Memory} (hm : m.wf = true) (sp : Byte) (addr : Addr) :
    ∃ mem1, StoredAt m mem1 (stackAddr sp) (BitVec.ofNat 8 (addr.toNat / 256)) ∧
      StoredAt mem1 (m.pushAddr sp addr) (stackAddr (sp - 1#8)) (BitVec.ofNat 8 (addr.toNat % 256)) := by
  rw [← highByte_eq_ofNat, ← lowByte_eq_ofNat]
  exact ⟨_, storedAt_write hm _ _, storedAt_write (Memory.wf_write _ _ hm) _ _⟩

/-- The memory after the three pushes of a trap entry (R311). -/
def Memory.pushBreak (m : Memory) (sp p : Byte) (ret : Addr) : Memory :=
  (m.pushAddr sp ret).write (stackAddr (sp - 2#8)) (pushedP p)

@[simp] theorem Memory.readEvents_pushBreak (m : Memory) (sp p : Byte) (ret : Addr) (addrs : List Addr) :
    (m.pushBreak sp p ret).readEvents addrs = m.readEvents addrs :=
  Memory.readEvents_map (by simp [Memory.pushBreak]) addrs

/-! ## Trap entry and return in closed form -/

/-- The three pushes leave P itself as it was: bits 4 and 5 are set in the byte pushed only (R311). -/
theorem push_pushedP_pushAddr_eq (p : Byte) (ret : Addr) (s : State) :
    push (pushedP p) (pushAddr ret s) =
      { s with
        sp := s.sp - 3#8
        mem := s.mem.pushBreak s.sp p ret
        log := s.log ++ s.mem.writeEvents (stackAddr s.sp) ++ s.mem.writeEvents (stackAddr (s.sp - 1#8)) ++
          s.mem.writeEvents (stackAddr (s.sp - 2#8)) } := by
  have hsp : s.sp - 2#8 - 1#8 = s.sp - 3#8 := by bv_omega
  rw [push_eq_update, pushAddr_eq]
  simp [State.logged, State.setMem, State.setSP, Memory.pushBreak, hsp]

/-- The vector is read after the pushes, so from the memory that they leave (R311). -/
theorem takeBreak_eq (ret : Addr) (s : State) :
    takeBreak ret s =
      { s with
        pc := (s.mem.pushBreak s.sp s.p ret).peekPair 0xFFFE#16 0xFFFF#16
        sp := s.sp - 3#8
        p := maskP (putI s.p true)
        mem := s.mem.pushBreak s.sp s.p ret
        log := s.log ++ s.mem.writeEvents (stackAddr s.sp) ++ s.mem.writeEvents (stackAddr (s.sp - 1#8)) ++
          s.mem.writeEvents (stackAddr (s.sp - 2#8)) ++ s.mem.readEvents [0xFFFE#16, 0xFFFF#16] } := by
  have hp : (pushAddr ret s).p = s.p := by rw [pushAddr_eq]; rfl
  have hvector : Config.brkVector + 1#16 = 0xFFFF#16 := rfl
  simp only [takeBreak, hp, push_pushedP_pushAddr_eq, read16_eq, hvector, State.setP_mem, Memory.readEvents_pushBreak]
  rfl

/-- P comes first, through the mask of FLAGS, then the address with no 1 added (R310). -/
theorem returnFromBreak_eq (s : State) :
    returnFromBreak s =
      { s with
        pc := s.mem.peekPair (stackAddr (s.sp + 2#8)) (stackAddr (s.sp + 3#8))
        sp := s.sp + 3#8
        p := maskP (s.mem.peek (stackAddr (s.sp + 1#8)))
        log := s.log ++
          s.mem.readEvents [stackAddr (s.sp + 1#8), stackAddr (s.sp + 2#8), stackAddr (s.sp + 3#8)] } := by
  have hlo : s.sp + 1#8 + 1#8 = s.sp + 2#8 := by rw [BitVec.add_assoc]; rfl
  have hhi : s.sp + 1#8 + 2#8 = s.sp + 3#8 := by rw [BitVec.add_assoc]; rfl
  simp only [returnFromBreak, pop_eq, popAddr_eq]
  simp [State.logged, State.setSP, State.setP, State.setPC, hlo, hhi, ← Memory.readEvents_append]

/-- A trap entry sets I and no other flag (R311). -/
theorem keepsFlags_putI (p : Byte) (b : Bool) : KeepsFlags [2] p (maskP (putI p b)) := by
  apply keepsFlags_mask
  intro k _ _ hk
  rw [putI, getLsbD_withBit _ _ _ _ (by decide), if_neg (by simpa using hk)]

theorem flagI_putI (p : Byte) (b : Bool) : flagI (maskP (putI p b)) = b := by
  rw [flagI, getLsbD_maskP, if_neg (by decide), putI, getLsbD_withBit _ _ _ _ (by decide), if_pos rfl]

/-! ## The next state of each instruction -/

theorem exec_bpl (rr : Byte) (s : State) : exec (.bpl rr) s = .next (branch (!flagN s.p) rr s) := rfl

theorem exec_bmi (rr : Byte) (s : State) : exec (.bmi rr) s = .next (branch (flagN s.p) rr s) := rfl

theorem exec_bvc (rr : Byte) (s : State) : exec (.bvc rr) s = .next (branch (!flagV s.p) rr s) := rfl

theorem exec_bvs (rr : Byte) (s : State) : exec (.bvs rr) s = .next (branch (flagV s.p) rr s) := rfl

theorem exec_bcc (rr : Byte) (s : State) : exec (.bcc rr) s = .next (branch (!flagC s.p) rr s) := rfl

theorem exec_bcs (rr : Byte) (s : State) : exec (.bcs rr) s = .next (branch (flagC s.p) rr s) := rfl

theorem exec_bne (rr : Byte) (s : State) : exec (.bne rr) s = .next (branch (!flagZ s.p) rr s) := rfl

theorem exec_beq (rr : Byte) (s : State) : exec (.beq rr) s = .next (branch (flagZ s.p) rr s) := rfl

theorem exec_jmp (j : JumpMode) (s : State) :
    exec (.jmp j) s = .next ((jumpTarget j s).2.setPC (jumpTarget j s).1) := rfl

theorem exec_jsr (d : Addr) (s : State) : exec (.jsr d) s = .next ((pushAddr (s.pc - 1#16) s).setPC d) := rfl

theorem exec_rts (s : State) : exec .rts s = .next ((popAddr s).2.setPC ((popAddr s).1 + 1#16)) := rfl

theorem exec_brk (s : State) : exec .brk s = .next (takeBreak (s.pc + 1#16) s) := rfl

theorem exec_rti (s : State) : exec .rti s = .next (returnFromBreak s) := rfl

/-! ## The obligations -/

/-- Settles O50: a branch tests its flag for 1 or for 0, and its target is the sum in integers; the encodings are rows
of the table. -/
theorem branchesAddTheOffsetWhenTheyHold : Obligations.BranchesAddTheOffsetWhenTheyHold := by
  unfold Obligations.BranchesAddTheOffsetWhenTheyHold
  refine ⟨?effect, twoBytes_of_lookup rfl, twoBytes_of_lookup rfl, twoBytes_of_lookup rfl, twoBytes_of_lookup rfl,
    twoBytes_of_lookup rfl, twoBytes_of_lookup rfl, twoBytes_of_lookup rfl, twoBytes_of_lookup rfl⟩
  case effect =>
    rintro s rr _ rfl
    rw [exec_bpl, exec_bvc, exec_bcc, exec_bne, branch_of_clear, branch_of_clear, branch_of_clear, branch_of_clear,
      exec_bmi, exec_bvs, exec_bcs, exec_beq, branch_of_set, branch_of_set, branch_of_set, branch_of_set]
    exact ⟨rfl, rfl, rfl, rfl, rfl, rfl, rfl, rfl⟩

/-- Settles O51: the indirect target is the pair that two byte reads return; the encodings are rows of the table. -/
theorem jumpsGoToTheirTarget : Obligations.JumpsGoToTheirTarget := by
  unfold Obligations.JumpsGoToTheirTarget
  refine ⟨fun s d => ⟨exec_jmp (.abs d) s, ?indirect⟩, threeBytes_of_lookup rfl, threeBytes_of_lookup rfl⟩
  case indirect =>
    obtain ⟨target, htarget, hread⟩ := readsPair_indRead16 d s
    exact ⟨target, htarget, by rw [exec_jmp, jumpTarget, hread]; rfl⟩

/-- Settles O52: the two stores are those of pushing PC - 1; the encoding is a row of the table. -/
theorem jsrPushesTheReturnAddress : Obligations.JsrPushesTheReturnAddress := by
  unfold Obligations.JsrPushesTheReturnAddress
  refine ⟨?effect, threeBytes_of_lookup rfl⟩
  case effect =>
    rintro s d _ _ hwf rfl rfl
    obtain ⟨mem1, hhigh, hlow⟩ := storedAt_pushAddr hwf s.sp (s.pc - 1#16)
    rw [← stackAddr_eq, ← stackAddr_sub_eq s.sp (k := 1) (j := 255) rfl, ← addr_sub_one_toNat]
    refine ⟨mem1, _, hhigh, hlow, ?_⟩
    rw [exec_jsr, pushAddr_eq, List.append_assoc]
    rfl

/-- Settles O53: the pops return the pair at the next two stack bytes, and PC goes one past it; the encoding is a row of
the table. -/
theorem rtsReturnsPastThePoppedAddress : Obligations.RtsReturnsPastThePoppedAddress := by
  unfold Obligations.RtsReturnsPastThePoppedAddress
  refine ⟨?effect, oneByte_of_lookup rfl⟩
  case effect =>
    rintro s _ _ rfl rfl
    rw [← stackAddr_add_eq s.sp 1, ← stackAddr_add_eq s.sp 2, BitVec.ofNat_add, ← Laws.pair_eq_ofNat, exec_rts,
      popAddr_eq]
    rfl

/-- Settles O55: the three stores are those of pushing PC + 1 and then P, and the target is the pair that the vector
shows afterwards; the encoding is a row of the table. -/
theorem brkSavesStateAndTakesTheVector : Obligations.BrkSavesStateAndTakesTheVector := by
  unfold Obligations.BrkSavesStateAndTakesTheVector
  refine ⟨?effect, oneByte_of_lookup rfl⟩
  case effect =>
    rintro s _ _ _ hwf rfl rfl rfl
    have hret : (s.pc + 1#16).toNat = (s.pc.toNat + 1) % 65536 := BitVec.toNat_add s.pc 1#16
    obtain ⟨mem1, hhigh, hlow⟩ := storedAt_pushAddr hwf s.sp (s.pc + 1#16)
    have hstatus := storedAt_write (Memory.wf_pushAddr s.sp (s.pc + 1#16) hwf) (stackAddr (s.sp - 2#8)) (pushedP s.p)
    rw [← stackAddr_eq, ← stackAddr_sub_eq s.sp (k := 1) (j := 255) rfl,
      ← stackAddr_sub_eq s.sp (k := 2) (j := 254) rfl, ← hret]
    refine ⟨mem1, _, s.mem.pushBreak s.sp s.p (s.pc + 1#16), pushedP s.p, _, hhigh, hlow, hstatus, ?bit4, ?bit5, ?others,
      keepsFlags_putI s.p true, flagI_putI s.p true, ?next⟩
    case bit4 => rw [getLsbD_pushedP, if_pos (.inl rfl)]
    case bit5 => rw [getLsbD_pushedP, if_pos (.inr rfl)]
    case others =>
      intro k h4 h5
      rw [getLsbD_pushedP, if_neg (not_or.mpr ⟨h4, h5⟩)]
    case next => rw [exec_brk, takeBreak_eq, Memory.peekPair, Laws.pair_eq_ofNat]

/-- Settles O56: the first pop goes through the mask of FLAGS, and the pair of the other two is the new PC; the encoding
is a row of the table. -/
theorem rtiRestoresStatusAndPC : Obligations.RtiRestoresStatusAndPC := by
  unfold Obligations.RtiRestoresStatusAndPC
  refine ⟨?effect, oneByte_of_lookup rfl⟩
  case effect =>
    rintro s _ _ _ rfl rfl rfl
    rw [← stackAddr_add_eq s.sp 1, ← stackAddr_add_eq s.sp 2, ← stackAddr_add_eq s.sp 3]
    refine ⟨maskP (s.mem.peek (stackAddr (s.sp + 1#8))), maskP_bit5 _, ?bits, ?next⟩
    case bits =>
      intro k h5
      rw [getLsbD_maskP, if_neg h5]
    case next => rw [exec_rti, returnFromBreak_eq, Memory.peekPair, Laws.pair_eq_ofNat]

end Sys2Proof.Machine
end

section
/-! Flag instructions, NOP and Unknown opcodes (45_flags_misc.md R320-R328). -/

namespace Sys2Proof.Machine

/-! ## One flag written in FLAGS -/

/-- A write of one bit of FLAGS keeps every other flag (10_state.md R46). -/
theorem keepsFlags_withBit (p : Byte) {k : Nat} (b : Bool) (hk : k < 8) : KeepsFlags [k] p (maskP (withBit p k b)) := by
  apply keepsFlags_mask
  intro j _ _ hj
  rw [getLsbD_withBit _ _ _ _ hk, if_neg (by simpa using hj)]

/-- Bit 5 excepted, the bit written reads back through the mask of FLAGS (10_state.md R46). -/
theorem getLsbD_maskP_withBit_same (p : Byte) {k : Nat} (b : Bool) (hk : k < 8) (h5 : k ≠ 5) :
    (maskP (withBit p k b)).getLsbD k = b := by
  rw [getLsbD_maskP, if_neg h5, getLsbD_withBit _ _ _ _ hk, if_pos rfl]

/-- An instruction whose whole effect is one bit of FLAGS leaves that flag as written and every other flag as it was
(10_state.md R46). -/
theorem writesOneFlag_of_exec {s : State} {i : Instr} {k : Nat} {b : Bool} (hk : k < 8) (h5 : k ≠ 5)
    (hexec : exec i s = .next (s.setP (withBit s.p k b))) :
    ∃ p', KeepsFlags [k] s.p p' ∧ p'.getLsbD k = b ∧ exec i s = .next { s with p := p' } :=
  ⟨_, keepsFlags_withBit s.p b hk, getLsbD_maskP_withBit_same s.p b hk h5, hexec⟩

/-! ## The next state of each instruction -/

theorem exec_clc (s : State) : exec .clc s = .next (s.setP (putC s.p false)) := rfl

theorem exec_sec (s : State) : exec .sec s = .next (s.setP (putC s.p true)) := rfl

theorem exec_cli (s : State) : exec .cli s = .next (s.setP (putI s.p false)) := rfl

theorem exec_sei (s : State) : exec .sei s = .next (s.setP (putI s.p true)) := rfl

theorem exec_cld (s : State) : exec .cld s = .next (s.setP (putD s.p false)) := rfl

theorem exec_sed (s : State) : exec .sed s = .next (s.setP (putD s.p true)) := rfl

theorem exec_clv (s : State) : exec .clv s = .next (s.setP (putV s.p false)) := rfl

theorem exec_nop (s : State) : exec .nop s = .next s := rfl

theorem exec_unknown (op : Byte) (s : State) :
    exec (.unknown op) s = .next { s with log := s.log ++ [.unknownOpcode op (s.pc - 1#16)] } := rfl

/-! ## A step at an Unknown byte -/

/-- A Running step is the fetch, then the execution of what was fetched (70_reset_and_hazards.md R385). -/
theorem step_of_running {s : State} (h : s.engine = .running) : step s = exec (fetchInstr s).1 (fetchInstr s).2 := by
  rw [step, h]

/-- Where no region answers, memory shows 0x00, which is BRK and not an Unknown byte (20_memory.md R95; 30_encoding.md
R176), so the fetch of an Unknown byte logs nothing. -/
theorem Memory.readEvents_of_peek_mem_unknownOpcodes {m : Memory} {addr : Addr} (h : m.peek addr ∈ unknownOpcodes) :
    m.readEvents [addr] = [] := by
  cases hres : m.resolve addr with
  | none =>
    rw [Memory.byteAt_of_resolve_none hres] at h
    exact absurd h (by decide)
  | some hit => exact Memory.readEvents_of_resolve_some hres

/-- The fetch of an Unknown byte moves PC past it and fills the latch, and that is all (R328). -/
theorem State.fetched_unknown {s : State} {op : Byte} (h : s.mem.peek s.pc ∈ unknownOpcodes) :
    s.fetched (.unknown op) = { s with pc := s.pc + 1#16, latch := (s.fetched (.unknown op)).latch } := by
  have hlog : s.log ++ s.mem.readEvents (addrsFrom s.pc (Instr.unknown op).length) = s.log := by
    change s.log ++ s.mem.readEvents [s.pc] = s.log
    rw [Memory.readEvents_of_peek_mem_unknownOpcodes h, List.append_nil]
  simp only [State.fetched, hlog]
  rfl

/-- The whole next state of a step at an Unknown byte, which is the one that the fetch has just moved past (R328). -/
theorem step_of_mem_unknownOpcodes {s : State} (hrun : s.engine = .running) (h : s.mem.peek s.pc ∈ unknownOpcodes) :
    step s = .next
      { s with
        pc := s.pc + 1#16
        log := s.log ++ [.unknownOpcode (s.mem.peek s.pc) s.pc]
        latch := (s.fetched (.unknown (s.mem.peek s.pc))).latch } := by
  rw [step_of_running hrun, fetchInstr_eq (decode_cons_of_mem_unknownOpcodes h _), exec_unknown,
    State.fetched_unknown h, BitVec.add_sub_cancel]

/-! ## The obligations -/

/-- Settles O58: one argument for the seven, which differ in the bit and in the value written; the encodings are rows of
the table. -/
theorem flagInstructionsWriteOneFlag : Obligations.FlagInstructionsWriteOneFlag := by
  unfold Obligations.FlagInstructionsWriteOneFlag
  refine ⟨fun s => ⟨?clc, ?sec, ?cli, ?sei, ?cld, ?sed, ?clv⟩, oneByte_of_lookup rfl, oneByte_of_lookup rfl,
    oneByte_of_lookup rfl, oneByte_of_lookup rfl, oneByte_of_lookup rfl, oneByte_of_lookup rfl, oneByte_of_lookup rfl⟩
  case clc => exact writesOneFlag_of_exec (by decide) (by decide) (exec_clc s)
  case sec => exact writesOneFlag_of_exec (by decide) (by decide) (exec_sec s)
  case cli => exact writesOneFlag_of_exec (by decide) (by decide) (exec_cli s)
  case sei => exact writesOneFlag_of_exec (by decide) (by decide) (exec_sei s)
  case cld => exact writesOneFlag_of_exec (by decide) (by decide) (exec_cld s)
  case sed => exact writesOneFlag_of_exec (by decide) (by decide) (exec_sed s)
  case clv => exact writesOneFlag_of_exec (by decide) (by decide) (exec_clv s)

/-- Settles O59: an Unknown byte is mapped, so the fetch logs nothing and execution logs the byte at the address that it
was fetched from; the encoding of NOP is a row of the table. -/
theorem nopAndUnknownOnlyAdvance : Obligations.NopAndUnknownOnlyAdvance := by
  unfold Obligations.NopAndUnknownOnlyAdvance
  exact ⟨exec_nop, oneByte_of_lookup rfl, fun s op => exec_unknown op s,
    fun _ hrun hmem => ⟨_, step_of_mem_unknownOpcodes hrun hmem, rfl⟩⟩

end Sys2Proof.Machine
end

section
/-! What a write to a read-only region does (20_memory.md R92, R97; 60_exceptions.md R343). -/

namespace Sys2Proof.Machine

theorem Memory.storable_of_resolve_some {m : Memory} {addr : Addr} {h : Hit} (hres : m.resolve addr = some h) :
    m.storable addr = h.region.writable := by simp [Memory.storable, hres]

theorem Memory.writeEvents_of_readOnly {m : Memory} {addr : Addr} {h : Hit} (hres : m.resolve addr = some h)
    (hro : h.region.writable = false) : m.writeEvents addr = [.readOnlyViolation addr] := by
  simp [Memory.writeEvents, hres, hro]

/-- Settles O18: resolution stops at the newest region, which is read-only, so nothing is stored and the one event is the
violation. -/
theorem readOnlyWriteIsDropped : Obligations.ReadOnlyWriteIsDropped := by
  unfold Obligations.ReadOnlyWriteIsDropped
  intro s addr v h hres hro
  have hst : s.mem.storable addr = false := (Memory.storable_of_resolve_some hres).trans hro
  rw [memWrite_eq, Memory.write_of_not_storable hst, Memory.writeEvents_of_readOnly hres hro]
  rfl

end Sys2Proof.Machine
end

section
/-! The host's `reset()` (70_reset_and_hazards.md R380-R382). -/

namespace Sys2Proof.Machine

/-- The whole state after `reset()`: the six registers and the engine are written, and nothing else (R380, R381). -/
theorem resetCore_eq (s : State) :
    resetCore s =
      { s with
        pc := s.config.resetValues.pc
        sp := s.config.resetValues.sp
        a := s.config.resetValues.a
        x := s.config.resetValues.x
        y := s.config.resetValues.y
        p := maskP s.config.resetValues.p
        engine := .uninitialized } := rfl

/-- What `reset()` writes comes from the configuration, which it leaves, so that a second one writes the same again
(R382). -/
@[simp] theorem resetCore_resetCore (s : State) : resetCore (resetCore s) = resetCore s := by
  simp only [resetCore_eq]

/-- The mask of FLAGS leaves the decided 0x04 as it is (10_state.md R40). -/
theorem resetCore_of_decided {s : State} (h : s.config.resetValues = Config.decidedResetValues) :
    resetCore s =
      { s with
        pc := 0x0000#16
        sp := 0xFD#8
        a := 0x00#8
        x := 0x00#8
        y := 0x00#8
        p := 0x04#8
        engine := .uninitialized } := by
  rw [resetCore_eq, h]
  rfl

theorem hostCall_reset (s : State) : hostCall .reset s = .next (.done, resetCore s) := rfl

/-- Settles O15: the next state is `resetCore s`, which keeps the latch too, so each clause is one of its equations. -/
theorem resetRestoresRegistersOnly : Obligations.ResetRestoresRegistersOnly := by
  unfold Obligations.ResetRestoresRegistersOnly
  intro s
  refine ⟨resetCore s, hostCall_reset s, ?twice, rfl, rfl, rfl, rfl, resetCore_eq s, resetCore_of_decided⟩
  case twice => rw [hostCall_reset, resetCore_resetCore]

end Sys2Proof.Machine
end

section
/-! The decoder and the encoder as inverses of each other (30_encoding.md R140-R146, R170-R177). -/

namespace Sys2Proof

/-- An instruction of the table has an opcode byte, whose row completes to it with its own operand bytes. A case per
mnemonic, and in it one per operand form: the forms that R172 does not list are not well-formed. -/
theorem exists_opcode_of_wellFormed {i : Instr} (h : i.wellFormed = true) :
    ∃ op, i.opcode = some op ∧ Laws.RowGives i (lookup op) := by
  cases i with
  | lda src | ldx src | ldy src | adc src | sbc src | cmp src | cpx src | cpy src | and src | ora src | eor src =>
    cases src with
    | imm d => exact ⟨_, rfl, d, rfl, rfl⟩
    | mem m => cases m <;> cases h <;> exact ⟨_, rfl, _, rfl, rfl⟩
  | sta m | stx m | sty m | bit m | inc m | dec m => cases m <;> cases h <;> exact ⟨_, rfl, _, rfl, rfl⟩
  | asl t | lsr t | rol t | ror t =>
    cases t with
    | acc => exact ⟨_, rfl, rfl, rfl⟩
    | mem m => cases m <;> cases h <;> exact ⟨_, rfl, _, rfl, rfl⟩
  | bpl rr | bmi rr | bvc rr | bvs rr | bcc rr | bcs rr | bne rr | beq rr => exact ⟨_, rfl, rr, rfl, rfl⟩
  | jmp j => cases j <;> exact ⟨_, rfl, _, rfl, rfl⟩
  | jsr d => exact ⟨_, rfl, d, rfl, rfl⟩
  | unknown op =>
    have hmem : op ∈ unknownOpcodes := List.contains_iff_mem.mp h
    refine ⟨op, if_pos h, ?_⟩
    rw [lookup_of_mem_unknownOpcodes hmem]
    exact ⟨rfl, rfl⟩
  | tax | tay | txa | tya | tsx | txs | php | pha | pla | plp | inx | iny | dex | dey | rts | rti | brk | clc | sec
    | cli | sei | cld | sed | clv | nop => exact ⟨_, rfl, rfl, rfl⟩

/-- The decoder reads the operand bytes that the opcode's row asks for, and no more (R142, R143). -/
theorem decode_of_rowGives {i : Instr} {op : Byte} (h : Laws.RowGives i (lookup op)) (rest : List Byte) :
    decode (op :: (i.operandBytes ++ rest)) = .ok (i, rest) := by
  cases hrow : lookup op with
  | one j =>
    rw [hrow] at h
    obtain ⟨hbytes, rfl⟩ := h
    simp [decode, hrow, hbytes]
  | two f =>
    rw [hrow] at h
    obtain ⟨d, hbytes, rfl⟩ := h
    simp [decode, hrow, hbytes]
  | three f =>
    rw [hrow] at h
    obtain ⟨d, hbytes, rfl⟩ := h
    simp [decode, hrow, hbytes, addrBytes]

theorem encode_of_opcode {i : Instr} {op : Byte} (h : i.opcode = some op) : encode i = some (op :: i.operandBytes) := by
  rw [encode, h, Option.map_some]

/-- Settles O1: the encoding is the opcode byte and the operand bytes, and the opcode's row completes to the instruction. -/
theorem decodeInvertsEncode : Obligations.DecodeInvertsEncode := by
  unfold Obligations.DecodeInvertsEncode
  intro i rest hwf
  obtain ⟨op, hop, hrow⟩ := exists_opcode_of_wellFormed hwf
  exact ⟨op :: i.operandBytes, encode_of_opcode hop, Nat.add_comm _ _, decode_of_rowGives hrow rest⟩

/-- Settles O2: every row of the table agrees with the encoder, so the bytes that it reads are the instruction's own. -/
theorem encodeInvertsDecode : Obligations.EncodeInvertsDecode := by
  unfold Obligations.EncodeInvertsDecode
  intro bytes rest i hdecode
  cases bytes with
  | nil => cases hdecode
  | cons op tail =>
    obtain ⟨hwf, hop, htail⟩ := decode_cons_ok hdecode
    exact ⟨hwf, op :: i.operandBytes, encode_of_opcode hop, by rw [htail, List.cons_append]⟩

/-- Settles O3: the decoder evaluated on the ten words. -/
theorem writtenWordsDecode : Obligations.WrittenWordsDecode := by
  unfold Obligations.WrittenWordsDecode
  decide

end Sys2Proof
end

section
/-! The step: what it runs, what it can change, and that it always has a next state (30_encoding.md R141, R142;
70_reset_and_hazards.md R383-R385). -/

namespace Sys2Proof.Machine

/-! ## What a step can do -/

/-- The reset-vector step in closed form (70_reset_and_hazards.md R383, R384). -/
theorem resetVectorStep_eq (s : State) :
    resetVectorStep s =
      { s with
        pc := s.mem.peekPair 0xFFFC#16 0xFFFD#16
        engine := .running
        log := s.log ++ s.mem.readEvents [0xFFFC#16, 0xFFFD#16] } := by
  have hhigh : Config.resetVector + 1#16 = 0xFFFD#16 := rfl
  rw [resetVectorStep, read16_eq, hhigh]
  rfl

theorem step_of_uninitialized {s : State} (h : s.engine = .uninitialized) : step s = .next (resetVectorStep s) := by
  rw [step, h]

/-- A fetch moves PC, logs its reads and fills the latch, and that is all (30_encoding.md R142). -/
theorem Evolves.fetched (s : State) (i : Instr) : Evolves s (s.fetched i) :=
  (((Evolves.refl s).logged (ofCore_readEvents s.mem (addrsFrom s.pc i.length))).setPC _).setLatch _

theorem fetchInstr_evolves (s : State) : Evolves s (fetchInstr s).2 := by
  obtain ⟨i, rest, hdecode⟩ := decode_three (s.mem.peek s.pc) (s.mem.peek (s.pc + 1#16)) (s.mem.peek (s.pc + 2#16))
  rw [fetchInstr_eq hdecode]
  exact Evolves.fetched s i

theorem Evolves.trans {s t u : State} (h : Evolves s t) (h' : Evolves t u) : Evolves s u := by
  obtain ⟨ws, hws⟩ := h.mem
  obtain ⟨ws', hws'⟩ := h'.mem
  obtain ⟨es, hes, hcore⟩ := h.log
  obtain ⟨es', hes', hcore'⟩ := h'.log
  refine ⟨h'.config.trans h.config, h'.engine.trans h.engine, ⟨ws ++ ws', ?mem⟩, ⟨es ++ es', ?log, ?core⟩, ?flags⟩
  case mem => rw [List.foldl_append, ← hws, hws']
  case log => rw [hes', hes, List.append_assoc]
  case core => exact List.forall_mem_append.mpr ⟨hcore, hcore'⟩
  case flags =>
    rcases h'.flags with hp | hp
    · rw [hp]
      exact h.flags
    · exact .inr hp

/-- Every step has one next state; but for the engine, which it makes Running, it gets there as an execution does. -/
theorem step_evolves (s : State) : ∃ t, step s = .next (t.setEngine .running) ∧ Evolves s t := by
  cases hengine : s.engine with
  | uninitialized =>
    exact ⟨_, step_of_uninitialized hengine, ((Evolves.refl s).readPair _ _).setPC _⟩
  | running =>
    have hfetch := fetchInstr_evolves s
    obtain ⟨t, hexec, hevolves⟩ := exec_evolves (fetchInstr s).1 (fetchInstr s).2
    have ht : Evolves s t := hfetch.trans hevolves
    have hrunning : t = t.setEngine .running := by rw [← hengine, ← ht.engine]; rfl
    exact ⟨t, by rw [step_of_running hengine, hexec, ← hrunning], ht⟩

/-- The same for a next state that is given. -/
theorem evolves_of_step {s u : State} (h : step s = .next u) : ∃ t, u = t.setEngine .running ∧ Evolves s t := by
  obtain ⟨t, hstep, ht⟩ := step_evolves s
  rw [hstep] at h
  cases h
  exact ⟨t, rfl, ht⟩

/-! ## What an execution leaves in memory -/

theorem Evolves.regions_of_readOnly {s t : State} (h : Evolves s t) {k : Nat} {r : Region} {cells : Cells}
    (hk : s.mem.regions[k]? = some r) (hro : r.writable = false) (hs : r.storage = .owned cells) :
    t.mem.regions[k]? = some r := by
  obtain ⟨ws, hws⟩ := h.mem
  rw [hws]
  exact readOnly_region_writes ws hk hro hs

/-- An address that shows a byte of a region's own buffer reads as before while the address map and that region stay. -/
theorem Memory.peek_of_region_kept {m n : Memory} {addr : Addr} {hit : Hit} {cells : Cells} (hmap : n.map = m.map)
    (hres : m.resolve addr = some hit) (hs : hit.region.storage = .owned cells)
    (hkept : n.regions[hit.k]? = some hit.region) : n.peek addr = m.peek addr := by
  have hregion := (Memory.resolve_some hres).1
  have hsite : m.siteOf addr = some (.owned hit.k hit.o) := by simp [Memory.siteOf, hres, Hit.site, hs]
  simp [Memory.peek, Memory.siteOf_map hmap, hsite, Memory.byteAt, hregion, hkept]

theorem Evolves.peek_of_readOnly {s t : State} (h : Evolves s t) {addr : Addr} {hit : Hit} {cells : Cells}
    (hres : s.mem.resolve addr = some hit) (hs : hit.region.storage = .owned cells) (hro : hit.region.writable = false) :
    t.mem.peek addr = s.mem.peek addr :=
  Memory.peek_of_region_kept h.map hres hs (h.regions_of_readOnly (Memory.resolve_some hres).1 hro hs)

theorem Evolves.peek_of_unmapped {s t : State} (h : Evolves s t) {addr : Addr} (hres : s.mem.resolve addr = none) :
    t.mem.peek addr = s.mem.peek addr := by
  have ht : t.mem.resolve addr = none := by
    have hsome := Memory.resolve_isSome_map h.map addr
    rwa [hres, Option.isSome_none, Option.isSome_eq_false_iff, Option.isNone_iff_eq_none] at hsome
  rw [Memory.byteAt_of_resolve_none ht, Memory.byteAt_of_resolve_none hres]

/-! ## The obligations -/

/-- Settles O8: an execution keeps the invariant, and the engine is no part of it. -/
theorem stepKeepsStateInvariant : Obligations.StepKeepsStateInvariant := by
  unfold Obligations.StepKeepsStateInvariant
  intro s u hinv hstep
  obtain ⟨t, rfl, hevolves⟩ := evolves_of_step hstep
  exact hevolves.inv hinv

/-- Settles O13: what an execution does to the configuration, the address map and the log. -/
theorem stepOnlyAppendsAndKeepsMap : Obligations.StepOnlyAppendsAndKeepsMap := by
  unfold Obligations.StepOnlyAppendsAndKeepsMap
  intro s u hstep
  obtain ⟨t, rfl, hevolves⟩ := evolves_of_step hstep
  obtain ⟨es, hlog, hcore⟩ := hevolves.log
  exact ⟨hevolves.config, hevolves.map, es, hlog, fun e he => ⟨hcore e he, code_of_ofCore (hcore e he)⟩⟩

/-- Settles O14: no write of an execution reaches a read-only region's own buffer, and the address map stays. -/
theorem stepSparesReadOnlyBytes : Obligations.StepSparesReadOnlyBytes := by
  unfold Obligations.StepSparesReadOnlyBytes
  intro s u addr hstep
  obtain ⟨t, rfl, hevolves⟩ := evolves_of_step hstep
  exact ⟨fun k r cells hk hro hs => hevolves.regions_of_readOnly hk hro hs,
    fun hit cells hres hs hro => hevolves.peek_of_readOnly hres hs hro, hevolves.peek_of_unmapped⟩

/-- Settles O12: the next state of every step is one whose engine was set to Running. -/
theorem stepAlwaysHasASuccessor : Obligations.StepAlwaysHasASuccessor := by
  unfold Obligations.StepAlwaysHasASuccessor
  intro s
  obtain ⟨t, hstep, -⟩ := step_evolves s
  exact ⟨_, hstep, rfl⟩

/-- Settles O5: a Running step executes what was fetched, and the fetch has a closed form. -/
theorem stepRunsTheFetchedInstruction : Obligations.StepRunsTheFetchedInstruction := by
  unfold Obligations.StepRunsTheFetchedInstruction
  intro s i rest hrunning hdecode
  rw [step_of_running hrunning, fetchInstr_eq hdecode]

/-- Settles O6: three bytes always begin with an instruction, whose own encoding is the bytes read. -/
theorem everyRunningStateFetches : Obligations.EveryRunningStateFetches := by
  unfold Obligations.EveryRunningStateFetches
  intro s
  obtain ⟨i, rest, hdecode⟩ := decode_three (s.mem.peek s.pc) (s.mem.peek (s.pc + 1#16)) (s.mem.peek (s.pc + 2#16))
  obtain ⟨hwf, -, htail⟩ := decode_cons_ok hdecode
  have hlength : 2 = i.operandBytes.length + rest.length := by simpa using congrArg List.length htail
  exact ⟨i, rest, hdecode, hwf, by rw [Instr.length]; omega, by rw [Instr.length]; omega⟩

/-- Settles O7: the reset-vector step in closed form, its PC as a number. -/
theorem resetVectorStepLoadsOnlyPC : Obligations.ResetVectorStepLoadsOnlyPC := by
  unfold Obligations.ResetVectorStepLoadsOnlyPC
  intro s hengine
  refine ⟨s.mem.peekPair 0xFFFC#16 0xFFFD#16, Laws.pair_toNat _ _, ?_⟩
  rw [step_of_uninitialized hengine, resetVectorStep_eq]

/-- Settles O9: the state after reset, evaluated. -/
theorem resetStateMeetsInvariant : Obligations.ResetStateMeetsInvariant := by
  unfold Obligations.ResetStateMeetsInvariant
  decide

end Sys2Proof.Machine
end

section
/-! The state invariant under host operations and along runs (60_exceptions.md R370-R373; 20_memory.md R80-R89, R120). -/

namespace Sys2Proof.Machine

/-! ## The invariant under updates of a state -/

theorem State.Inv.setMem {s : State} (h : s.Inv) {m : Memory} (hm : m.wf = true) : (s.setMem m).Inv := ⟨h.1, hm⟩

theorem State.Inv.raise {s : State} (h : s.Inv) (e : Event) : (s.raise e).Inv := h

theorem State.Inv.logged {s : State} (h : s.Inv) (es : List Event) : (s.logged es).Inv := h

theorem State.Inv.resetCore {s : State} (h : s.Inv) : (resetCore s).Inv := ⟨maskP_bit5 _, h.2⟩

theorem State.Inv.setCpuReg {s : State} (h : s.Inv) (r : CpuReg) (v : Int) : (r.set v s).Inv := by
  cases r with
  | flags => exact ⟨maskP_bit5 _, h.2⟩
  | pc | sp | a | x | y => exact h

theorem State.Inv.memRead {s : State} (h : s.Inv) (addr : Addr) : (memRead addr s).2.Inv := by
  rw [memRead_eq]
  exact h.logged _

theorem State.Inv.memWrite {s : State} (h : s.Inv) (addr : Addr) (v : Byte) : (memWrite addr v s).Inv := by
  rw [memWrite_eq]
  exact (h.setMem (Memory.wf_write addr v h.2)).logged _

/-! ## The invariant under the host's operations -/

theorem State.Inv.hostGet {s : State} (h : s.Inv) (name : Text) : (hostGet name s).2.Inv := by
  rw [Machine.hostGet]
  split
  · exact h
  · exact h.raise _

theorem State.Inv.hostSet {s : State} (h : s.Inv) (name : Text) (v : Int) : (hostSet name v s).2.Inv := by
  rw [Machine.hostSet]
  split
  next r _ => exact h.setCpuReg r v
  next => exact h.raise _

theorem State.Inv.hostPointer {s : State} (h : s.Inv) (addr : Addr) : (hostPointer addr s).2.Inv := by
  rw [Machine.hostPointer]
  split
  · exact h
  · exact h.raise _

theorem State.Inv.hostReadThrough {s t : State} {addr : Addr} {i : Nat} {reply : HostReply} (h : s.Inv)
    (hcall : hostReadThrough addr i s = .next (reply, t)) : t.Inv := by
  rw [Machine.hostReadThrough] at hcall
  split at hcall
  · split at hcall <;> cases hcall
    exact h
  · cases hcall
    exact h.raise _

theorem State.Inv.hostWriteThrough {s t : State} {addr : Addr} {i : Nat} {v : Byte} {reply : HostReply} (h : s.Inv)
    (hcall : hostWriteThrough addr i v s = .next (reply, t)) : t.Inv := by
  rw [Machine.hostWriteThrough] at hcall
  split at hcall
  next hit hres =>
    split at hcall
    next site hpast =>
      cases hcall
      exact h.setMem (Memory.wf_putAt v h.2 (siteInside_past h.2 hres hpast))
    next => cases hcall
  next =>
    cases hcall
    exact h.raise _

theorem State.Inv.mapZeroed {s : State} (h : s.Inv) (id : RegionId) (base : Addr) (size : Nat) (writable : Bool) :
    (mapZeroed id base size writable s).Inv := by
  by_cases hsize : size = 0
  · rwa [Machine.mapZeroed, if_pos hsize]
  · refine ⟨?_, wf_mapZeroed id base writable hsize h.2⟩
    rw [Machine.mapZeroed, if_neg hsize]
    exact h.1

theorem State.Inv.mapFileWritable {s : State} (h : s.Inv) (id : RegionId) (base : Addr) {size : Nat} (path : Text)
    (opened : Bool) (hsize : size ≠ 0) : (mapFileWritable id base size path opened s).2.Inv := by
  refine ⟨?_, wf_mapFileWritable id path base opened hsize h.2⟩
  cases opened <;> exact h.1

theorem State.Inv.mapFileReadOnly {s : State} (h : s.Inv) (id : RegionId) (base : Addr) (path : Text) (opened : Bool) :
    (mapFileReadOnly id base path opened s).2.Inv := by
  refine ⟨?_, wf_mapFileReadOnly id path base opened h.2⟩
  rw [Machine.mapFileReadOnly]
  split <;> exact h.1

theorem State.Inv.unmap {s : State} (h : s.Inv) (id : RegionId) : (unmap id s).2.Inv := by
  refine ⟨?_, wf_unmap id h.2⟩
  rw [Machine.unmap]
  split <;> exact h.1

theorem State.Inv.hostWriteFile {s t : State} {path : Text} {bytes : List Byte} {reply : HostReply} (h : s.Inv)
    (hcall : hostWriteFile path bytes s = .next (reply, t)) : t.Inv := by
  rw [Machine.hostWriteFile] at hcall
  split at hcall
  next f hindex =>
    split at hcall
    next => cases hcall
    next hfree =>
      cases hcall
      exact h.setMem (Memory.wf_modifyFile (g := fun _ => imageOf bytes) h.2 (fun _ _ => imageWf_imageOf bytes)
        fun _ _ hmaps => absurd hmaps hfree)
  next hnone =>
    cases hcall
    exact h.setMem (Memory.wf_addFile h.2 hnone (imageWf_imageOf bytes))

theorem State.Inv.hostWriteBuffer {s t : State} {b i : Nat} {v : Byte} {reply : HostReply} (h : s.Inv)
    (hcall : hostWriteBuffer b i v s = .next (reply, t)) : t.Inv := by
  rw [Machine.hostWriteBuffer] at hcall
  split at hcall
  next im him =>
    split at hcall
    next hlt =>
      cases hcall
      refine h.setMem (Memory.wf_putAt v h.2 fun im' him' => ?_)
      rw [him] at him'
      cases him'
      exact hlt
    next => cases hcall
  next => cases hcall

/-- Every case of a call that answers is `.next` of a pair whose state meets the invariant. -/
theorem inv_of_next {answer : HostReply × State} {reply : HostReply} {t : State}
    (hcall : (.next answer : Host.Outcome (HostReply × State) Fault Refusal) = .next (reply, t))
    (h : answer.2.Inv) : t.Inv := by
  cases hcall
  exact h

theorem State.Inv.hostCall_mapZeroed {s t : State} {id : RegionId} {base : Addr} {size : Nat}
    {writable allocated : Bool} {reply : HostReply} (h : s.Inv)
    (hcall : hostCall (.mapZeroed id base size writable allocated) s = .next (reply, t)) : t.Inv := by
  simp only [hostCall] at hcall
  split at hcall
  next => cases hcall
  next =>
    split at hcall
    next => exact inv_of_next hcall (h.mapZeroed id base size writable)
    next => cases hcall

theorem State.Inv.hostCall_mapBuffer {s t : State} {id : RegionId} {base : Addr} {size buffer : Nat} {writable : Bool}
    {reply : HostReply} (h : s.Inv)
    (hcall : hostCall (.mapBuffer id base size buffer writable) s = .next (reply, t)) : t.Inv := by
  simp only [hostCall] at hcall
  split at hcall
  next => cases hcall
  next im him =>
    split at hcall
    next => cases hcall
    next hsize =>
      split at hcall
      next => cases hcall
      next hfits =>
        exact inv_of_next hcall ⟨h.1, wf_mapBuffer id base writable hsize him (Nat.le_of_not_lt hfits) h.2⟩

/-- A writable `mapFile` and `loadOverlay` are this call, for an id that the host gives or for the overlay's (20_memory.md
R86, R122). -/
theorem State.Inv.of_mapFileWritable {s t : State} {id : RegionId} {base : Addr} {size : Nat} {path : Text}
    {opened : Bool} {reply : HostReply} (h : s.Inv)
    (hcall : (if size = 0 then .refused .zeroSizeMap else .next (Machine.mapFileWritable id base size path opened s) :
      Host.Outcome (HostReply × State) Fault Refusal) = .next (reply, t)) : t.Inv := by
  split at hcall
  next => cases hcall
  next hsize => exact inv_of_next hcall (h.mapFileWritable id base path opened hsize)

theorem State.Inv.hostCall_mapFile {s t : State} {id : RegionId} {base : Addr} {size : Nat} {path : Text}
    {writable opened allocated : Bool} {reply : HostReply} (h : s.Inv)
    (hcall : hostCall (.mapFile id base size path writable opened allocated) s = .next (reply, t)) : t.Inv := by
  cases writable with
  | true => exact h.of_mapFileWritable hcall
  | false =>
    simp only [hostCall] at hcall
    split at hcall
    next => cases hcall
    next => exact inv_of_next hcall (h.mapFileReadOnly id base path opened)

/-- Settles O10: one case per operation, by what that operation keeps. -/
theorem hostCallKeepsStateInvariant : Obligations.HostCallKeepsStateInvariant := by
  unfold Obligations.HostCallKeepsStateInvariant
  intro op s t reply h hcall
  cases op with
  | reset => exact inv_of_next hcall h.resetCore
  | getRegister name => exact inv_of_next hcall (h.hostGet name)
  | setRegister name v => exact inv_of_next hcall (h.hostSet name v)
  | forEach | readLog | readLatch => exact inv_of_next hcall h
  | read addr => exact inv_of_next hcall (h.memRead addr)
  | write addr v => exact inv_of_next hcall (h.memWrite addr v)
  | pointer addr => exact inv_of_next hcall (h.hostPointer addr)
  | readThrough addr i => exact h.hostReadThrough hcall
  | writeThrough addr i v => exact h.hostWriteThrough hcall
  | mapZeroed id base size writable allocated => exact h.hostCall_mapZeroed hcall
  | mapBuffer id base size buffer writable => exact h.hostCall_mapBuffer hcall
  | mapFile id base size path writable opened allocated => exact h.hostCall_mapFile hcall
  | unmap id => exact inv_of_next hcall (h.unmap id)
  | loadOverlay path addr size opened => exact h.of_mapFileWritable hcall
  | unloadOverlay => exact inv_of_next hcall (h.unmap overlayId)
  | newBuffer bytes => exact inv_of_next hcall (h.setMem (Memory.wf_addBuffer h.2 (imageWf_imageOf bytes)))
  | writeBuffer b i v => exact h.hostWriteBuffer hcall
  | writeFile path bytes => exact h.hostWriteFile hcall

/-! ## The invariant along runs -/

/-- The ROM image is the one file and no region is mapped yet (20_memory.md R120). -/
theorem State.inv_blank {c : Config} (h : imageWf c.romImage = true) : (State.blank c).Inv :=
  ⟨maskP_bit5 _, by simp [State.blank, Memory.wf, h]⟩

theorem State.inv_build {c : Config} (romOpened : Bool) (h : imageWf c.romImage = true) :
    (State.build c romOpened).Inv :=
  ((State.inv_blank h).mapZeroed _ _ _ _).mapFileReadOnly _ _ _ _

theorem State.Inv.move {s t : State} {mv : Move} (h : s.Inv) (hmove : move mv s = .next t) : t.Inv := by
  cases mv with
  | core => exact stepKeepsStateInvariant s t h hmove
  | host op =>
    simp only [Machine.move] at hmove
    split at hmove
    next answer hcall =>
      cases hmove
      exact hostCallKeepsStateInvariant op s _ answer.1 h hcall
    next => cases hmove
    next => cases hmove

/-- Settles O11: by induction on the moves of the run, from the built Machine on. -/
theorem runsOfBuiltMachinesKeepInvariant : Obligations.RunsOfBuiltMachinesKeepInvariant := by
  unfold Obligations.RunsOfBuiltMachinesKeepInvariant
  intro c romOpened s himage hreaches
  induction hreaches with
  | refl => exact State.inv_build romOpened himage
  | move mv _ hmove ih => exact ih.move hmove

end Sys2Proof.Machine
end

section
/-! Resolution, the bytes that a write spares, and the newest region (20_memory.md R81-R100, R111). -/

namespace Sys2Proof.Machine

/-! ## What a write spares -/

theorem memWrite_mem (addr : Addr) (v : Byte) (s : State) : (memWrite addr v s).mem = s.mem.write addr v := by
  rw [memWrite_eq]
  rfl

/-- Settles O20: the model writes the one storage byte that the address shows, and an owned one shows at one address. -/
theorem writeSparesOtherBytes : Obligations.WriteSparesOtherBytes := by
  unfold Obligations.WriteSparesOtherBytes
  intro s addr addr' v
  rw [memWrite_mem]
  refine ⟨fun h => Memory.peek_write_ne h v, fun site h => Memory.byteAt_write_ne h v, ?_⟩
  intro k o hsite hne hsame
  exact hne (Memory.siteOf_owned_inj (hsame.trans hsite) hsite)

/-- Settles O24: a read shows what the write stored when both addresses show one storage byte. -/
theorem sharedStorageShowsWritesAtBoth : Obligations.SharedStorageShowsWritesAtBoth := by
  unfold Obligations.SharedStorageShowsWritesAtBoth
  intro s addr addr' v hwf hst hsame
  rw [memWrite_mem, Memory.peek_write hwf, if_pos ⟨hst, hsame⟩]

/-! ## Which region resolution finds -/

/-- Region `k` contains the address and no newer region does (20_memory.md R91). -/
def Memory.NewestAt (m : Memory) (addr : Addr) (k : Nat) (r : Region) : Prop :=
  m.regions[k]? = some r ∧ r.contains addr.toNat = true ∧
    ∀ j q, k < j → m.regions[j]? = some q → q.contains addr.toNat = false

theorem Memory.newestAt_of_resolve {m : Memory} {addr : Addr} {h : Hit} (hres : m.resolve addr = some h) :
    m.NewestAt addr h.k h.region := by
  obtain ⟨-, hreg, hcontains, -, hnewest⟩ := resolveFrom_some hres
  exact ⟨by simpa using hreg, hcontains, fun j q hj hq => hnewest j q (by omega) hq⟩

/-- Of two regions that contain an address the newer has the greater index, so there is one newest. -/
theorem Memory.newestAt_unique {m : Memory} {addr : Addr} {k k' : Nat} {r r' : Region} (h : m.NewestAt addr k r)
    (h' : m.NewestAt addr k' r') : k = k' ∧ r = r' := by
  obtain ⟨hreg, hcontains, hnewest⟩ := h
  obtain ⟨hreg', hcontains', hnewest'⟩ := h'
  rcases Nat.lt_trichotomy k k' with hlt | rfl | hgt
  · rw [hnewest k' r' hlt hreg'] at hcontains'
    cases hcontains'
  · exact ⟨rfl, Option.some.inj (hreg.symm.trans hreg')⟩
  · rw [hnewest' k r hgt hreg] at hcontains
    cases hcontains

theorem Memory.resolve_of_newestAt {m : Memory} {addr : Addr} {k : Nat} {r : Region} (h : m.NewestAt addr k r) :
    m.resolve addr = some { k := k, region := r, o := addr.toNat - r.base.toNat } := by
  cases hres : m.resolve addr with
  | none =>
    obtain ⟨hreg, hcontains, -⟩ := h
    rw [resolveFrom_none hres r (List.mem_of_getElem? hreg)] at hcontains
    cases hcontains
  | some hit =>
    obtain ⟨rfl, rfl⟩ := Memory.newestAt_unique h (Memory.newestAt_of_resolve hres)
    rw [← (Memory.resolve_some hres).2.2.1]

theorem Memory.resolve_eq_some_iff (m : Memory) (addr : Addr) (k o : Nat) (r : Region) :
    m.resolve addr = some { k := k, region := r, o := o } ↔
      m.NewestAt addr k r ∧ o = addr.toNat - r.base.toNat := by
  constructor
  · intro hres
    exact ⟨Memory.newestAt_of_resolve hres, (Memory.resolve_some hres).2.2.1⟩
  · rintro ⟨hnewest, rfl⟩
    exact Memory.resolve_of_newestAt hnewest

/-- Settles O21: the index that resolution finds is that of the newest region that contains the address, and there is one
newest. -/
theorem newestContainingRegionWins : Obligations.NewestContainingRegionWins := by
  unfold Obligations.NewestContainingRegionWins
  intro m addr
  refine ⟨m.resolve_eq_none_iff addr, fun k o r => ?_⟩
  simp only [Memory.resolve_eq_some_iff, Memory.NewestAt, ← Bool.not_eq_true, Region.contains_eq_true_iff]
  constructor
  · rintro ⟨⟨hreg, ⟨hlo, hhi⟩, hnewest⟩, ho⟩
    exact ⟨hreg, hlo, hhi, ho, hnewest⟩
  · rintro ⟨hreg, hlo, hhi, ho, hnewest⟩
    exact ⟨⟨hreg, ⟨hlo, hhi⟩, hnewest⟩, ho⟩

/-! ## Which region `unmap` finds -/

theorem newestMatchFrom_none {k : Nat} {rs : List Region} {id : RegionId} (h : newestMatchFrom k rs id = none) :
    ∀ r ∈ rs, idMatch r.id id = false := by
  induction rs generalizing k with
  | nil => simp
  | cons r rs ih =>
    simp only [newestMatchFrom] at h
    split at h
    next => cases h
    next hrest =>
      split at h
      next => cases h
      next hr => exact List.forall_mem_cons.mpr ⟨Bool.not_eq_true _ ▸ hr, ih hrest⟩

theorem newestMatchFrom_some {k n : Nat} {rs : List Region} {id : RegionId} (h : newestMatchFrom k rs id = some n) :
    ∃ i r, n = k + i ∧ rs[i]? = some r ∧ idMatch r.id id = true ∧
      ∀ j q, i < j → rs[j]? = some q → idMatch q.id id = false := by
  induction rs generalizing k with
  | nil => cases h
  | cons r rs ih =>
    simp only [newestMatchFrom] at h
    split at h
    next hrest =>
      cases h
      obtain ⟨i, q, rfl, hq, hmatch, hnewest⟩ := ih hrest
      refine ⟨i + 1, q, by omega, hq, hmatch, fun j q' hj hq' => ?_⟩
      cases j with
      | zero => omega
      | succ j => exact hnewest j q' (by omega) hq'
    next hrest =>
      split at h
      next hr =>
        cases h
        refine ⟨0, r, rfl, rfl, hr, fun j q hj hq => ?_⟩
        cases j with
        | zero => omega
        | succ j => exact newestMatchFrom_none hrest q (List.mem_of_getElem? hq)
      next => cases h

theorem idMatch_eq_true_iff (s t : RegionId) : idMatch s t = true ↔ s.chars.take 16 = t.chars.take 16 :=
  decide_eq_true_iff

theorem hostCall_unmap_of_newestMatch {s : State} {id : RegionId} {k : Nat} (h : s.mem.newestMatch id = some k) :
    hostCall (.unmap id) s = .next (.done, s.setMem (s.mem.dropRegion k)) := by
  simp [hostCall, unmap, h]

theorem hostCall_unmap_of_noMatch {s : State} {id : RegionId} (h : s.mem.newestMatch id = none) :
    hostCall (.unmap id) s = .next (.failed, s.raise (.unmappedRegionId id)) := by
  simp [hostCall, unmap, h]

/-- Settles O23: the search for a match finds the newest, or none. -/
theorem unmapRemovesTheNewestMatch : Obligations.UnmapRemovesTheNewestMatch := by
  unfold Obligations.UnmapRemovesTheNewestMatch
  intro s id
  simp only [ne_eq, ← idMatch_eq_true_iff, Bool.not_eq_true]
  cases hmatch : s.mem.newestMatch id with
  | none => exact .inr ⟨newestMatchFrom_none hmatch, hostCall_unmap_of_noMatch hmatch⟩
  | some n =>
    obtain ⟨k, r, hn, hr, hid, hnewest⟩ := newestMatchFrom_some hmatch
    obtain rfl : n = k := by omega
    exact .inl ⟨n, r, hr, hid, hnewest, hostCall_unmap_of_newestMatch hmatch⟩

/-! ## The newest region -/

/-- The hit at an address of the newest region (20_memory.md R91). -/
def Memory.newestHit (m : Memory) (r : Region) (addr : Addr) : Hit :=
  { k := m.regions.length, region := r, o := addr.toNat - r.base.toNat }

theorem Memory.resolve_addRegion_inside {m : Memory} {r : Region} {addr : Addr} (h : r.contains addr.toNat = true) :
    (m.addRegion r).resolve addr = some (m.newestHit r addr) := by
  rw [Memory.resolve_addRegion, if_pos h]
  rfl

theorem Memory.storable_addRegion_inside {m : Memory} {r : Region} {addr : Addr} (h : r.contains addr.toNat = true) :
    (m.addRegion r).storable addr = r.writable :=
  Memory.storable_of_resolve_some (Memory.resolve_addRegion_inside h)

theorem Memory.peek_of_resolve_some {m : Memory} {addr : Addr} {h : Hit} (hres : m.resolve addr = some h) :
    m.peek addr = m.byteAt h.site := by simp [Memory.peek, Memory.siteOf, hres]

theorem Memory.write_of_resolve_some {m : Memory} {addr : Addr} {h : Hit} (hres : m.resolve addr = some h)
    (hw : h.region.writable = true) (v : Byte) : m.write addr v = m.putAt h.site v := by
  simp [Memory.write, hres, hw]

/-- A region with a buffer of its own shows that buffer (20_memory.md R81). -/
theorem Memory.peek_addRegion_owned {m : Memory} {r : Region} {addr : Addr} {cells : Cells}
    (h : r.contains addr.toNat = true) (hs : r.storage = .owned cells) :
    (m.addRegion r).peek addr = Cells.get cells (addr.toNat - r.base.toNat) := by
  rw [Memory.peek_of_resolve_some (Memory.resolve_addRegion_inside h)]
  simp [Memory.newestHit, Hit.site, hs, Memory.byteAt, Memory.addRegion, Storage.ownedCells]

theorem modify_concat_length {α : Type} (f : α → α) (l : List α) (x : α) :
    (l ++ [x]).modify l.length f = l ++ [f x] := by
  simp [List.modify_eq_take_drop]

theorem Memory.write_addRegion_owned {m : Memory} {r : Region} {addr : Addr} {cells : Cells}
    (h : r.contains addr.toNat = true) (hw : r.writable = true) (hs : r.storage = .owned cells) (v : Byte) :
    (m.addRegion r).write addr v =
      m.addRegion { r with storage := .owned (Cells.put cells (addr.toNat - r.base.toNat) v) } := by
  rw [Memory.write_of_resolve_some (Memory.resolve_addRegion_inside h) hw]
  simp [Memory.newestHit, Hit.site, hs, Memory.putAt, Memory.addRegion, modify_concat_length, Storage.putOwned]

/-- Unmapping the newest region gives back the memory before it (20_memory.md R89). -/
theorem Memory.dropRegion_addRegion (m : Memory) (r : Region) : (m.addRegion r).dropRegion m.regions.length = m := by
  simp [Memory.dropRegion, Memory.addRegion, List.eraseIdx_append_of_length_le]

theorem hostCall_unmap_addRegion {m : Memory} {r : Region} {id : RegionId} {s : State} (hs : s.mem = m.addRegion r)
    (hid : idMatch r.id id = true) : hostCall (.unmap id) s = .next (.done, s.setMem m) := by
  have hmatch : s.mem.newestMatch id = some m.regions.length := by rw [hs, newestMatch_addRegion hid]
  rw [hostCall_unmap_of_newestMatch hmatch, hs, Memory.dropRegion_addRegion]

@[simp] theorem idMatch_self (id : RegionId) : idMatch id id = true := by simp [idMatch]

/-! ## A zeroed overlay -/

/-- The region that `mapZeroed` maps, once its own buffer holds `cells` (20_memory.md R84). -/
def overlayRegion (id : RegionId) (base : Addr) (size : Nat) (cells : Cells) : Region :=
  { id := id, base := base, size := size, storage := .owned cells, writable := true }

theorem hostCall_mapZeroed {size : Nat} (h : 0 < size) (id : RegionId) (base : Addr) (s : State) :
    hostCall (.mapZeroed id base size true true) s =
      .next (.done, s.setMem (s.mem.addRegion (overlayRegion id base size []))) := by
  have hne : size ≠ 0 := by omega
  simp [hostCall, mapZeroed, hne, overlayRegion]

section Overlay

variable {id : RegionId} {base : Addr} {size : Nat} {cells : Cells} {s : State}

/-- A write inside the overlay changes the overlay's own buffer and nothing else (20_memory.md R97, R100). -/
theorem memWrite_overlay {addr : Addr} (h : base.toNat ≤ addr.toNat ∧ addr.toNat < base.toNat + size) (v : Byte) :
    memWrite addr v (s.setMem (s.mem.addRegion (overlayRegion id base size cells))) =
      s.setMem (s.mem.addRegion (overlayRegion id base size (Cells.put cells (addr.toNat - base.toNat) v))) := by
  have hcontains := (Region.contains_eq_true_iff (overlayRegion id base size cells) addr.toNat).mpr h
  rw [memWrite_of_storable (Memory.storable_addRegion_inside hcontains), State.setMem_mem,
    Memory.write_addRegion_owned hcontains rfl rfl]
  rfl

/-- Any number of writes inside the overlay. -/
theorem foldl_memWrite_overlay {ws : List (Addr × Byte)}
    (h : ∀ w ∈ ws, base.toNat ≤ w.1.toNat ∧ w.1.toNat < base.toNat + size) :
    ∃ cells', ws.foldl (fun u w => memWrite w.1 w.2 u)
        (s.setMem (s.mem.addRegion (overlayRegion id base size cells))) =
      s.setMem (s.mem.addRegion (overlayRegion id base size cells')) := by
  induction ws generalizing cells with
  | nil => exact ⟨cells, rfl⟩
  | cons w ws ih =>
    obtain ⟨hw, hws⟩ := List.forall_mem_cons.mp h
    rw [List.foldl_cons, memWrite_overlay hw]
    exact ih hws

theorem peek_overlay {addr : Addr} (h : base.toNat ≤ addr.toNat ∧ addr.toNat < base.toNat + size) (m : Memory) :
    (m.addRegion (overlayRegion id base size cells)).peek addr = Cells.get cells (addr.toNat - base.toNat) :=
  Memory.peek_addRegion_owned ((Region.contains_eq_true_iff _ _).mpr h) rfl

end Overlay

theorem Memory.peek_addRegion_of_not_mem {m : Memory} {r : Region} {addr : Addr}
    (h : ¬(r.base.toNat ≤ addr.toNat ∧ addr.toNat < r.base.toNat + r.size)) : (m.addRegion r).peek addr = m.peek addr :=
  peek_addRegion_outside (Bool.not_eq_true _ ▸ mt (Region.contains_eq_true_iff r addr.toNat).mp h)

/-- Settles O22: every state between the map and the unmap is the first one with the overlay added. -/
theorem overlayShadowsUntilUnmapped : Obligations.OverlayShadowsUntilUnmapped := by
  unfold Obligations.OverlayShadowsUntilUnmapped
  intro s id base size ws hsize hws
  obtain ⟨cells, hwrites⟩ := foldl_memWrite_overlay (s := s) (id := id) (cells := []) hws
  refine ⟨_, s, hostCall_mapZeroed hsize id base s, ?inside, ?outside, ?unmap, rfl⟩
  case inside =>
    intro addr hlo hhi
    refine ⟨peek_overlay ⟨hlo, hhi⟩ s.mem, fun v => ?_⟩
    rw [memWrite_overlay ⟨hlo, hhi⟩, State.setMem_mem, peek_overlay ⟨hlo, hhi⟩, Cells.get_put, if_pos rfl]
  case outside => exact fun addr hout => Memory.peek_addRegion_of_not_mem hout
  case unmap =>
    rw [hwrites, hostCall_unmap_addRegion (State.setMem_mem _ _) (idMatch_self id)]
    rfl

end Sys2Proof.Machine
end

section
/-! Pointer handles, and the maps of files and of caller-owned buffers (20_memory.md R81-R94; 60_exceptions.md R372,
R373). -/

namespace Sys2Proof.Machine

/-! ## Pointer handles -/

/-- A handle reaches byte `i` past its address while the storage holds it and its address is below 0x10000 (R80, R82). -/
theorem Hit.past_of_lt {m : Memory} {addr : Addr} {h : Hit} {i : Nat} (hres : m.resolve addr = some h)
    (hsize : h.o + i < h.region.size) (hspace : addr.toNat + i < 0x10000) :
    h.past i = some (Hit.site { h with o := h.o + i }) := by
  have hbase := resolve_base hres
  exact if_pos ⟨hsize, by omega⟩

theorem Hit.past_of_ge {m : Memory} {addr : Addr} {h : Hit} {i : Nat} (hres : m.resolve addr = some h)
    (hpast : h.region.size ≤ h.o + i ∨ 0x10000 ≤ addr.toNat + i) : h.past i = none := by
  have hbase := resolve_base hres
  exact if_neg (by omega)

theorem hostCall_pointer {s : State} {addr : Addr} {h : Hit} (hres : s.mem.resolve addr = some h) :
    hostCall (.pointer addr) s = .next (.handle h.k h.o, s) := by
  simp [hostCall, hostPointer, hres]

section Through

variable {s : State} {addr : Addr} {h : Hit} {i : Nat} {site : Site}

theorem hostCall_writeThrough (hres : s.mem.resolve addr = some h) (hpast : h.past i = some site) (v : Byte) :
    hostCall (.writeThrough addr i v) s = .next (.done, s.setMem (s.mem.putAt site v)) := by
  simp [hostCall, hostWriteThrough, hres, hpast]

theorem hostCall_readThrough (hres : s.mem.resolve addr = some h) (hpast : h.past i = some site) :
    hostCall (.readThrough addr i) s = .next (.byte (s.mem.byteAt site), s) := by
  simp [hostCall, hostReadThrough, hres, hpast]

theorem hostCall_writeThrough_refused (hres : s.mem.resolve addr = some h) (hpast : h.past i = none) (v : Byte) :
    hostCall (.writeThrough addr i v) s = .refused .pastStorage := by
  simp [hostCall, hostWriteThrough, hres, hpast]

theorem hostCall_readThrough_refused (hres : s.mem.resolve addr = some h) (hpast : h.past i = none) :
    hostCall (.readThrough addr i) s = .refused .pastStorage := by
  simp [hostCall, hostReadThrough, hres, hpast]

/-- A write to storage moves no region, so the same handle is taken at the address afterwards and reaches the same byte. -/
theorem hostCall_readThrough_putAt (hres : s.mem.resolve addr = some h) (hpast : h.past i = some site)
    (hsite : s.mem.hasSite site) (v : Byte) :
    hostCall (.readThrough addr i) (s.setMem (s.mem.putAt site v)) =
      .next (.byte v, s.setMem (s.mem.putAt site v)) := by
  have hshape := Memory.resolve_map (Memory.map_putAt s.mem site v) addr
  rw [hres, Option.map_some, Option.map_eq_some_iff] at hshape
  obtain ⟨h', hres', hsame⟩ := hshape
  rw [hostCall_readThrough (s := s.setMem (s.mem.putAt site v)) hres' ((past_shape hsame i).trans hpast),
    State.setMem_mem,
    Memory.byteAt_putAt hsite, if_pos rfl]

end Through

/-- Settles O29: a handle names a region and an offset, and a write through it puts one storage byte. -/
theorem pointerWriteIgnoresWritable : Obligations.PointerWriteIgnoresWritable := by
  unfold Obligations.PointerWriteIgnoresWritable
  intro s addr v h hwf hres
  obtain ⟨hreg, -, -, ho⟩ := Memory.resolve_some hres
  refine ⟨hostCall_pointer hres, ?first, fun i => ⟨?reached, ?refused⟩⟩
  case first =>
    have hpast : h.past 0 = some h.site := Hit.past_of_lt hres ho addr.isLt
    have hsite : (s.mem.putAt h.site v).siteOf addr = some h.site := by
      rw [Memory.siteOf_map (Memory.map_putAt s.mem h.site v), Memory.siteOf, hres, Option.map_some]
    refine ⟨_, hostCall_writeThrough hres hpast v, ?_, rfl, Memory.map_putAt _ _ _⟩
    rw [State.setMem_mem, Memory.peek, hsite]
    exact (Memory.byteAt_putAt (Memory.hasSite_of_wf hwf hres) v h.site).trans (if_pos rfl)
  case reached =>
    intro hsize hspace
    have hpast := Hit.past_of_lt hres hsize hspace
    exact ⟨_, hostCall_writeThrough hres hpast v, rfl, Memory.map_putAt _ _ _,
      hostCall_readThrough_putAt hres hpast (Memory.hasSite_of_region (h := { h with o := h.o + i }) hwf hreg) v,
      fun site hne => Memory.byteAt_putAt_ne s.mem (Ne.symm hne) v⟩
  case refused =>
    intro hbeyond
    have hpast := Hit.past_of_ge hres hbeyond
    exact ⟨hostCall_writeThrough_refused hres hpast v, hostCall_readThrough_refused hres hpast⟩

/-! ## A borrowed buffer -/

/-- The region that `mapBuffer` maps (20_memory.md R85). -/
def bufferRegion (id : RegionId) (base : Addr) (size b : Nat) (writable : Bool) : Region :=
  { id := id, base := base, size := size, storage := .borrowed b, writable := writable }

theorem hostCall_mapBuffer {s : State} {size b : Nat} {im : Image} (hsize : 0 < size) (hb : s.mem.buffers[b]? = some im)
    (hfits : size ≤ im.size) (id : RegionId) (base : Addr) (writable : Bool) :
    hostCall (.mapBuffer id base size b writable) s =
      .next (.done, s.setMem (s.mem.addRegion (bufferRegion id base size b writable))) := by
  have hne : size ≠ 0 := by omega
  have hlong : ¬im.size < size := by omega
  simp [hostCall, hb, hne, hlong, mapBuffer, bufferRegion]

theorem hostCall_mapBuffer_short {s : State} {size b : Nat} {im : Image} (hsize : 0 < size)
    (hb : s.mem.buffers[b]? = some im) (hshort : im.size < size) (id : RegionId) (base : Addr) (writable : Bool) :
    hostCall (.mapBuffer id base size b writable) s = .refused .shortBuffer := by
  have hne : size ≠ 0 := by omega
  simp [hostCall, hb, hne, hshort]

theorem hostCall_writeBuffer {s : State} {b i : Nat} {im : Image} (hb : s.mem.buffers[b]? = some im) (hi : i < im.size)
    (v : Byte) : hostCall (.writeBuffer b i v) s = .next (.done, s.setMem (s.mem.putAt (.buffer b i) v)) := by
  simp [hostCall, hostWriteBuffer, hb, hi]

theorem Memory.buffers_putAt_buffer {m : Memory} {b : Nat} {im : Image} (hb : m.buffers[b]? = some im) (i : Nat)
    (v : Byte) : (m.putAt (.buffer b i) v).buffers[b]? = some (putImage im i v) := by
  simp [Memory.putAt, hb]

theorem get_putImage_same (im : Image) (i : Nat) (v : Byte) : Cells.get (putImage im i v).cells i = v := by
  rw [putImage, Cells.get_put, if_pos rfl]

section Buffer

variable {m : Memory} {id : RegionId} {base addr : Addr} {size b : Nat} {im : Image} {writable : Bool}

theorem Memory.peek_bufferRegion (h : base.toNat ≤ addr.toNat ∧ addr.toNat < base.toNat + size)
    (hb : m.buffers[b]? = some im) :
    (m.addRegion (bufferRegion id base size b writable)).peek addr =
      Cells.get im.cells (addr.toNat - base.toNat) := by
  have hcontains := (Region.contains_eq_true_iff (bufferRegion id base size b writable) addr.toNat).mpr h
  rw [Memory.peek_of_resolve_some (Memory.resolve_addRegion_inside hcontains)]
  simp [Memory.newestHit, bufferRegion, Hit.site, Memory.byteAt, Memory.addRegion, hb]

/-- A write to the region is a write to the buffer, the region above it staying as it is (20_memory.md R97). -/
theorem Memory.write_bufferRegion (h : base.toNat ≤ addr.toNat ∧ addr.toNat < base.toNat + size) (v : Byte) :
    (m.addRegion (bufferRegion id base size b true)).write addr v =
      (m.putAt (.buffer b (addr.toNat - base.toNat)) v).addRegion (bufferRegion id base size b true) := by
  have hcontains := (Region.contains_eq_true_iff (bufferRegion id base size b true) addr.toNat).mpr h
  rw [Memory.write_of_resolve_some (Memory.resolve_addRegion_inside hcontains) rfl]
  rfl

end Buffer

/-- Settles O27: the region's bytes are the buffer's own, so every write goes to the buffer and stays there. -/
theorem borrowedMapSharesTheBuffer : Obligations.BorrowedMapSharesTheBuffer := by
  unfold Obligations.BorrowedMapSharesTheBuffer
  intro s id base size b im writable _ hb hsize
  refine ⟨fun hfits => ⟨_, hostCall_mapBuffer hsize hb hfits id base writable, rfl, rfl, ?inside, ?outside⟩,
    fun hshort => hostCall_mapBuffer_short hsize hb hshort id base writable⟩
  case outside => exact fun addr hout => Memory.peek_addRegion_of_not_mem hout
  case inside =>
    intro addr hlo hhi
    refine ⟨Memory.peek_bufferRegion ⟨hlo, hhi⟩ hb, ?owner, ?region⟩
    case owner =>
      intro v
      have hi : addr.toNat - base.toNat < im.size := by omega
      refine ⟨_, hostCall_writeBuffer (s := s.setMem (s.mem.addRegion _)) hb hi v, ?_⟩
      exact (Memory.peek_bufferRegion ⟨hlo, hhi⟩ (Memory.buffers_putAt_buffer hb _ v)).trans (get_putImage_same im _ v)
    case region =>
      rintro rfl v
      have hmem : (memWrite addr v (s.setMem (s.mem.addRegion (bufferRegion id base size b true)))).mem =
          (s.mem.putAt (.buffer b (addr.toNat - base.toNat)) v).addRegion (bufferRegion id base size b true) := by
        rw [memWrite_mem, State.setMem_mem, Memory.write_bufferRegion ⟨hlo, hhi⟩]
      refine ⟨putImage im (addr.toNat - base.toNat) v, _, ?_, get_putImage_same im _ v,
        hostCall_unmap_addRegion hmem (idMatch_self id), Memory.buffers_putAt_buffer hb _ v⟩
      rw [hmem]
      exact Memory.buffers_putAt_buffer hb _ v

end Sys2Proof.Machine
end

section
/-! The maps of files, read-only and writable (20_memory.md R86-R89; 60_exceptions.md R372). -/

namespace Sys2Proof.Machine

/-! ## A read-only map: a copy -/

/-- The region that a read-only `mapFile` maps: a buffer of its own with the file's bytes (20_memory.md R87). -/
def copyRegion (id : RegionId) (base : Addr) (im : Image) : Region :=
  { id := id, base := base, size := im.size, storage := .owned im.cells, writable := false }

section ReadOnly

variable {s : State} {path : Text} {opened : Bool}

theorem readableFile_of_index {f : Nat} {hf : HostFile} (hindex : s.mem.fileIndex path = some f)
    (hfile : s.mem.files[f]? = some hf) :
    readableFile path opened s = if opened && decide (0 < hf.content.size) then some hf.content else none := by
  simp [readableFile, hindex, hfile]

theorem hostCall_mapFile_copy {im : Image} (h : readableFile path opened s = some im) (id : RegionId) (base : Addr)
    (size : Nat) :
    hostCall (.mapFile id base size path false opened true) s =
      .next (.done, s.setMem (s.mem.addRegion (copyRegion id base im))) := by
  simp [hostCall, mapFileReadOnly, h, copyRegion]

theorem hostCall_mapFile_unreadable (h : readableFile path opened s = none) (id : RegionId) (base : Addr) (size : Nat)
    (allocated : Bool) :
    hostCall (.mapFile id base size path false opened allocated) s =
      .next (.failed, s.raise (.fileOpenFailure path)) := by
  simp [hostCall, mapFileReadOnly, fileOpenFailure, h]

end ReadOnly

/-- The host's own write of a file changes no region (60_exceptions.md R372). -/
theorem regions_of_hostCall_writeFile {s t : State} {path : Text} {bytes : List Byte} {reply : HostReply}
    (hcall : hostCall (.writeFile path bytes) s = .next (reply, t)) : t.mem.regions = s.mem.regions := by
  simp only [hostCall, hostWriteFile] at hcall
  split at hcall
  next =>
    split at hcall
    next => cases hcall
    next => cases hcall; rfl
  next => cases hcall; rfl

theorem hostCall_writeFile_of_not_maps {s : State} {path : Text} {f : Nat} {hf : HostFile}
    (hindex : s.mem.fileIndex path = some f) (hfile : s.mem.files[f]? = some hf) (hfree : s.mem.maps f = false)
    (bytes : List Byte) :
    ∃ t, hostCall (.writeFile path bytes) s = .next (.done, t) ∧
      t.mem.files[f]? = some { hf with content := imageOf bytes } := by
  refine ⟨_, by simp only [hostCall, hostWriteFile, hindex, hfree, Bool.false_eq_true, if_false]; rfl, ?_⟩
  simp [hfile]

/-- A handle into a region with a buffer of its own writes that buffer, so no file (20_memory.md R81, R94). -/
theorem files_of_hostCall_writeThrough {s t : State} {addr : Addr} {h : Hit} {cells : Cells} {i : Nat} {v : Byte}
    {reply : HostReply} (hres : s.mem.resolve addr = some h) (hs : h.region.storage = .owned cells)
    (hcall : hostCall (.writeThrough addr i v) s = .next (reply, t)) : t.mem.files = s.mem.files := by
  cases hpast : h.past i with
  | none =>
    rw [hostCall_writeThrough_refused hres hpast] at hcall
    cases hcall
  | some site =>
    obtain rfl := past_owned hs hpast
    rw [hostCall_writeThrough hres hpast] at hcall
    cases hcall
    rfl

/-- A new region with a buffer of its own maps no file. -/
theorem Memory.maps_addRegion_owned {m : Memory} {r : Region} {cells : Cells} (hs : r.storage = .owned cells) (f : Nat) :
    (m.addRegion r).maps f = m.maps f := by
  simp [Memory.maps, Memory.addRegion, hs]

/-- Settles O25: the region has a buffer of its own and cannot be written, so its bytes stay while the region does. -/
theorem readOnlyFileMapCopiesTheFile : Obligations.ReadOnlyFileMapCopiesTheFile := by
  unfold Obligations.ReadOnlyFileMapCopiesTheFile
  intro s id path base size f hf hindex hfile
  have hreadable (opened : Bool) := readableFile_of_index (opened := opened) hindex hfile
  refine ⟨?mapped, ?empty, ?notOpened⟩
  case empty =>
    intro hsize
    exact hostCall_mapFile_unreadable (by rw [hreadable, hsize]; rfl) id base size true
  case notOpened => exact hostCall_mapFile_unreadable (hreadable false) id base size true
  case mapped =>
    intro hsize
    have hcopy : readableFile path true s = some hf.content := by rw [hreadable, decide_eq_true hsize]; rfl
    refine ⟨_, hostCall_mapFile_copy hcopy id base size, rfl, rfl, ?inside, ?newContent, ?outside⟩
    case outside => exact fun addr hout => Memory.peek_addRegion_of_not_mem hout
    case newContent =>
      intro hfree bytes
      exact hostCall_writeFile_of_not_maps (s := s.setMem (s.mem.addRegion _)) hindex hfile
        ((Memory.maps_addRegion_owned rfl f).trans hfree) bytes
    case inside =>
      intro addr hlo hhi
      have hcontains := (Region.contains_eq_true_iff (copyRegion id base hf.content) addr.toNat).mpr ⟨hlo, hhi⟩
      have hres := Memory.resolve_addRegion_inside (m := s.mem) hcontains
      refine ⟨Memory.peek_addRegion_owned hcontains rfl, Memory.storable_addRegion_inside hcontains, ?write, ?writeFile,
        ?writeThrough⟩
      case write => exact fun addr' v _ => ((Evolves.refl _).memWrite addr' v).peek_of_readOnly hres rfl rfl
      case writeFile =>
        intro bytes reply u hcall
        have hregions := regions_of_hostCall_writeFile hcall
        refine Memory.peek_of_region_kept (congrArg (List.map Region.shape) hregions) hres rfl ?_
        rw [hregions]
        exact (Memory.resolve_some hres).1
      case writeThrough => exact fun i v reply u hcall => files_of_hostCall_writeThrough hres rfl hcall

/-! ## A writable map: the file itself -/

/-- The region that a writable `mapFile` maps (20_memory.md R86). -/
def fileRegion (id : RegionId) (base : Addr) (size f : Nat) : Region :=
  { id := id, base := base, size := size, storage := .mappedFile f, writable := true }

theorem hostCall_mapFile_opened {size : Nat} (hsize : 0 < size) (id : RegionId) (base : Addr) (path : Text)
    (allocated : Bool) (s : State) :
    hostCall (.mapFile id base size path true true allocated) s =
      .next (.done, s.setMem ((s.mem.openWritable path size).1.addRegion
        (fileRegion id base size (s.mem.openWritable path size).2))) := by
  have hne : size ≠ 0 := by omega
  simp [hostCall, mapFileWritable, hne, fileRegion]

theorem hostCall_mapFile_notOpened {size : Nat} (hsize : 0 < size) (id : RegionId) (base : Addr) (path : Text)
    (allocated : Bool) (s : State) :
    hostCall (.mapFile id base size path true false allocated) s =
      .next (.failed, s.raise (.fileOpenFailure path)) := by
  have hne : size ≠ 0 := by omega
  simp [hostCall, mapFileWritable, hne, fileOpenFailure]

/-- The search for a path reads the paths alone. -/
theorem fileIndexFrom_congr {fs gs : List HostFile} (h : fs.map HostFile.path = gs.map HostFile.path) (k : Nat)
    (path : Text) : fileIndexFrom k fs path = fileIndexFrom k gs path := by
  induction fs generalizing gs k with
  | nil =>
    obtain rfl := List.map_eq_nil_iff.mp h.symm
    rfl
  | cons hf fs ih =>
    cases gs with
    | nil => cases h
    | cons hg gs =>
      obtain ⟨hpath, hpaths⟩ := List.cons.inj h
      simp only [fileIndexFrom, hpath, ih hpaths]

theorem fileIndexFrom_concat {k : Nat} {fs : List HostFile} {path : Text} (h : fileIndexFrom k fs path = none)
    (im : Image) : fileIndexFrom k (fs ++ [{ path := path, content := im }]) path = some (k + fs.length) := by
  induction fs generalizing k with
  | nil => simp [fileIndexFrom]
  | cons hf fs ih =>
    simp only [fileIndexFrom] at h
    split at h
    next => cases h
    next hne =>
      simp only [List.cons_append, fileIndexFrom, if_neg hne, ih h, List.length_cons, Option.some.injEq]
      omega

/-- What opening a file for a writable map leaves at its index: the file of that path, no shorter than `size`, with the
bytes that it had and 0x00 after them (20_memory.md R86). -/
structure OpenedFile (m n : Memory) (path : Text) (size f : Nat) (hf : HostFile) : Prop where
  index : n.fileIndex path = some f
  file : n.files[f]? = some hf
  old : ∀ old, m.files[f]? = some old → hf.content.size = max old.content.size size ∧
    ∀ i, Cells.get hf.content.cells i = Cells.get old.content.cells i
  new : m.fileIndex path = none → hf.content.size = size ∧ ∀ i, Cells.get hf.content.cells i = 0x00#8

theorem Memory.openedFile_openWritable (m : Memory) (path : Text) (size : Nat) :
    ∃ hf, OpenedFile m (m.openWritable path size).1 path size (m.openWritable path size).2 hf := by
  cases hindex : m.fileIndex path with
  | some f =>
    obtain ⟨old, hold, -⟩ := Memory.fileIndex_some hindex
    have hopen : m.openWritable path size =
        ({ m with files := m.files.modify f fun hf => { hf with content := extendImage hf.content size } }, f) := by
      simp [Memory.openWritable, hindex]
    rw [hopen]
    refine ⟨{ old with content := extendImage old.content size }, ?index, ?file, ?old, ?new⟩
    case index => exact (fileIndexFrom_congr (map_modify_of_comp (by intro hf; rfl) m.files f) 0 path).trans hindex
    case file => simp [hold]
    case old =>
      intro old' hold'
      rw [hold] at hold'
      cases hold'
      exact ⟨rfl, fun _ => rfl⟩
    case new =>
      intro hnone
      rw [hnone] at hindex
      cases hindex
  | none =>
    have hopen : m.openWritable path size =
        ({ m with files := m.files ++ [{ path := path, content := { size := size, cells := [] } }] },
          m.files.length) := by
      simp [Memory.openWritable, hindex]
    rw [hopen]
    refine ⟨{ path := path, content := { size := size, cells := [] } }, ?index, ?file, ?old, ?new⟩
    case index => exact (fileIndexFrom_concat hindex _).trans (congrArg some (Nat.zero_add _))
    case file => simp
    case old => simp
    case new => exact fun _ => ⟨rfl, fun _ => rfl⟩

/-- Opening a file changes no byte: a longer file, and a new one, holds 0x00 where there was nothing (20_memory.md R86). -/
theorem Memory.byteAt_openWritable (m : Memory) (path : Text) (size : Nat) (site : Site) :
    (m.openWritable path size).1.byteAt site = m.byteAt site := by
  rw [Memory.openWritable]
  split
  next f _ =>
    cases site with
    | owned k o => rfl
    | buffer b o => rfl
    | file g o =>
      simp only [Memory.byteAt, List.getElem?_modify]
      cases m.files[g]? <;> by_cases hfg : f = g <;> simp [hfg, extendImage]
  next =>
    cases site with
    | owned k o => rfl
    | buffer b o => rfl
    | file g o =>
      simp only [Memory.byteAt]
      rcases Nat.lt_trichotomy g m.files.length with hlt | rfl | hgt
      · rw [List.getElem?_append_left hlt]
      · simp
      · rw [List.getElem?_eq_none (by simpa using hgt), List.getElem?_eq_none hgt.le]

theorem Memory.regions_openWritable (m : Memory) (path : Text) (size : Nat) :
    (m.openWritable path size).1.regions = m.regions := by
  rw [Memory.openWritable]
  split <;> rfl

theorem Memory.peek_openWritable (m : Memory) (path : Text) (size : Nat) (addr : Addr) :
    (m.openWritable path size).1.peek addr = m.peek addr := by
  have hmap : (m.openWritable path size).1.map = m.map :=
    congrArg (List.map Region.shape) (m.regions_openWritable path size)
  simp only [Memory.peek, Memory.siteOf_map hmap, Memory.byteAt_openWritable]

section File

variable {m : Memory} {id : RegionId} {base addr : Addr} {size f : Nat} {hf : HostFile}

theorem Memory.peek_fileRegion (h : base.toNat ≤ addr.toNat ∧ addr.toNat < base.toNat + size)
    (hfile : m.files[f]? = some hf) :
    (m.addRegion (fileRegion id base size f)).peek addr = Cells.get hf.content.cells (addr.toNat - base.toNat) := by
  have hcontains := (Region.contains_eq_true_iff (fileRegion id base size f) addr.toNat).mpr h
  rw [Memory.peek_of_resolve_some (Memory.resolve_addRegion_inside hcontains)]
  simp [Memory.newestHit, fileRegion, Hit.site, Memory.byteAt, Memory.addRegion, hfile]

/-- A write to the region is a write to the file, the region above it staying as it is (20_memory.md R97). -/
theorem Memory.write_fileRegion (h : base.toNat ≤ addr.toNat ∧ addr.toNat < base.toNat + size) (v : Byte) :
    (m.addRegion (fileRegion id base size f)).write addr v =
      (m.putAt (.file f (addr.toNat - base.toNat)) v).addRegion (fileRegion id base size f) := by
  have hcontains := (Region.contains_eq_true_iff (fileRegion id base size f) addr.toNat).mpr h
  rw [Memory.write_of_resolve_some (Memory.resolve_addRegion_inside hcontains) rfl]
  rfl

theorem Memory.files_putAt_file (hfile : m.files[f]? = some hf) (i : Nat) (v : Byte) :
    (m.putAt (.file f i) v).files[f]? = some { hf with content := putImage hf.content i v } := by
  simp [Memory.putAt, hfile]

end File

/-- Settles O26: the region's bytes are the file's own, so every write goes to the file and stays there. -/
theorem writableFileMapWritesTheFile : Obligations.WritableFileMapWritesTheFile := by
  unfold Obligations.WritableFileMapWritesTheFile
  intro s id path base size _ hsize
  obtain ⟨hf, hopened⟩ := s.mem.openedFile_openWritable path size
  have hcall := hostCall_mapFile_opened hsize id base path true s
  have houtside := s.mem.peek_openWritable path size
  generalize (s.mem.openWritable path size).1 = n at hopened hcall houtside
  generalize (s.mem.openWritable path size).2 = f at hopened hcall
  refine ⟨⟨_, f, hf, hcall, rfl, hopened.index, hopened.file, hopened.old, hopened.new, ?inside, ?outside⟩,
    hostCall_mapFile_notOpened hsize id base path true s⟩
  case outside => exact fun addr hout => (Memory.peek_addRegion_of_not_mem hout).trans (houtside addr)
  case inside =>
    intro addr hlo hhi
    refine ⟨Memory.peek_fileRegion ⟨hlo, hhi⟩ hopened.file, fun v => ?_⟩
    have hmem : (memWrite addr v (s.setMem (n.addRegion (fileRegion id base size f)))).mem =
        (n.putAt (.file f (addr.toNat - base.toNat)) v).addRegion (fileRegion id base size f) := by
      rw [memWrite_mem, State.setMem_mem, Memory.write_fileRegion ⟨hlo, hhi⟩]
    have hfile := Memory.files_putAt_file hopened.file (addr.toNat - base.toNat) v
    refine ⟨_, _, ?_, get_putImage_same hf.content _ v, hostCall_unmap_addRegion hmem (idMatch_self id), hfile⟩
    rw [hmem]
    exact hfile

end Sys2Proof.Machine
end

section
/-! The Machine layout and its boot (20_memory.md R120, R121; 70_reset_and_hazards.md R390). -/

namespace Sys2Proof.Machine

/-! ## The Machine as it is built -/

/-- The Machine with its RAM mapped, before the ROM (20_memory.md R120). -/
def State.withRam (c : Config) : State := mapZeroed ramId 0x0000#16 c.romBase.toNat true (State.blank c)

/-- RAM is the one region, and with ROM_BASE = 0 there is none (20_memory.md R82, R120). -/
theorem State.withRam_eq (c : Config) :
    State.withRam c = (State.blank c).setMem
      { (State.blank c).mem with regions := if c.romBase = 0x0000#16 then [] else [ramRegion c] } := by
  rw [State.withRam, mapZeroed]
  by_cases hbase : c.romBase = 0x0000#16
  · rw [if_pos hbase, if_pos (by rw [hbase]; rfl)]
    rfl
  · have hne : c.romBase.toNat ≠ 0 := fun h => hbase (BitVec.eq_of_toNat_eq h)
    rw [if_neg hbase, if_neg hne]
    rfl

theorem State.withRam_mem_of_ne {c : Config} (hbase : c.romBase ≠ 0x0000#16) :
    (State.withRam c).mem = (State.blank c).mem.addRegion (ramRegion c) := by
  rw [State.withRam_eq, if_neg hbase]
  rfl

theorem readableFile_withRam (c : Config) (opened : Bool) :
    readableFile c.romPath opened (State.withRam c) =
      if opened && decide (0 < c.romImage.size) then some c.romImage else none := by
  rw [State.withRam_eq]
  exact readableFile_of_index (f := 0) (hf := { path := c.romPath, content := c.romImage }) (if_pos rfl) rfl

/-- The ROM is mapped when its image opened and is not empty (20_memory.md R87, R120). -/
theorem State.build_of_readable {c : Config} (hsize : 0 < c.romImage.size) :
    State.build c true = (State.withRam c).setMem ((State.withRam c).mem.addRegion (romRegion c)) := by
  have hread : readableFile c.romPath true (State.withRam c) = some c.romImage := by
    rw [readableFile_withRam, decide_eq_true hsize]
    rfl
  rw [State.build, ← State.withRam, mapFileReadOnly, hread]
  rfl

theorem State.build_not_opened (c : Config) :
    State.build c false = (State.withRam c).raise (.fileOpenFailure c.romPath) := by
  have hread : readableFile c.romPath false (State.withRam c) = none := readableFile_withRam c false
  rw [State.build, ← State.withRam, mapFileReadOnly, hread]
  rfl

/-- Building writes memory and the log only. -/
theorem State.build_eq_update (c : Config) (romOpened : Bool) :
    ∃ m es, State.build c romOpened = ((State.blank c).setMem m).logged es := by
  rw [State.build, ← State.withRam, mapFileReadOnly, State.withRam_eq]
  split
  · exact ⟨_, [], (State.logged_nil _).symm⟩
  · exact ⟨_, [.fileOpenFailure c.romPath], rfl⟩

theorem State.build_config (c : Config) (romOpened : Bool) : (State.build c romOpened).config = c := by
  obtain ⟨m, es, hbuild⟩ := State.build_eq_update c romOpened
  rw [hbuild]
  rfl

/-- A built Machine has the reset values already, so it needs no `reset()` (10_state.md R61). -/
theorem resetCore_build (c : Config) (romOpened : Bool) :
    resetCore (State.build c romOpened) = State.build c romOpened := by
  obtain ⟨m, es, hbuild⟩ := State.build_eq_update c romOpened
  rw [hbuild]
  rfl

/-! ## Boot -/

section Boot

variable {c : Config} (h : c.bootWellFormed = true)
include h

theorem Config.romImage_pos_of_boot : 0 < c.romImage.size := by
  obtain ⟨-, hsize, -⟩ := (Config.bootWellFormed_iff c).mp h
  omega

theorem Config.romBase_ne_of_boot : c.romBase ≠ 0x0000#16 := by
  obtain ⟨-, -, hbase⟩ := (Config.bootWellFormed_iff c).mp h
  rintro hzero
  rw [hzero] at hbase
  cases hbase

/-- The RAM region below the ROM region (20_memory.md R120). -/
theorem State.build_mem_of_boot :
    (State.build c true).mem = ((State.blank c).mem.addRegion (ramRegion c)).addRegion (romRegion c) := by
  rw [State.build_of_readable (Config.romImage_pos_of_boot h), State.setMem_mem,
    State.withRam_mem_of_ne (Config.romBase_ne_of_boot h)]

theorem romRegion_contains_of_boot {addr : Addr} (haddr : c.romBase.toNat ≤ addr.toNat) :
    (romRegion c).contains addr.toNat = true := by
  obtain ⟨hend, -, -⟩ := (Config.bootWellFormed_iff c).mp h
  have hspace := addr.isLt
  refine (Region.contains_eq_true_iff _ _).mpr ⟨haddr, ?_⟩
  change addr.toNat < c.romBase.toNat + c.romImage.size
  omega

/-- Byte `k` below the end of the image is shown `k` below the end of the space (20_memory.md R121). -/
theorem State.peek_build_rom {addr : Addr} {k : Nat} (hk : k ≤ 6) (haddr : addr.toNat + k = 0x10000) :
    (State.build c true).mem.peek addr = Cells.get c.romImage.cells (c.romImage.size - k) := by
  obtain ⟨hend, hsize, -⟩ := (Config.bootWellFormed_iff c).mp h
  have hcontains := romRegion_contains_of_boot h (addr := addr) (by omega)
  have hoffset : addr.toNat - c.romBase.toNat = c.romImage.size - k := by omega
  rw [State.build_mem_of_boot h, Memory.peek_addRegion_owned hcontains rfl]
  exact congrArg _ hoffset

theorem State.readEvents_build_rom {addr : Addr} {k : Nat} (hk : k ≤ 6) (haddr : addr.toNat + k = 0x10000) :
    (State.build c true).mem.readEvents [addr] = [] := by
  obtain ⟨hend, hsize, -⟩ := (Config.bootWellFormed_iff c).mp h
  have hcontains := romRegion_contains_of_boot h (addr := addr) (by omega)
  rw [State.build_mem_of_boot h]
  exact Memory.readEvents_of_resolve_some (Memory.resolve_addRegion_inside hcontains)

/-- Both vector bytes are mapped, so the step logs nothing (R383, R390). -/
theorem step_build_of_boot :
    step (State.build c true) = .next
      { State.build c true with
        pc := pair (Cells.get c.romImage.cells (c.romImage.size - 3)) (Cells.get c.romImage.cells (c.romImage.size - 4))
        engine := .running } := by
  have hengine : (State.build c true).engine = .uninitialized := by
    obtain ⟨m, es, hbuild⟩ := State.build_eq_update c true
    rw [hbuild]
    rfl
  have hevents : (State.build c true).mem.readEvents [0xFFFC#16, 0xFFFD#16] = [] := by
    rw [← List.singleton_append, Memory.readEvents_append, State.readEvents_build_rom h (k := 4) (by decide) rfl,
      State.readEvents_build_rom h (k := 3) (by decide) rfl, List.append_nil]
  rw [step_of_uninitialized hengine, resetVectorStep_eq, hevents, List.append_nil, Memory.peekPair,
    State.peek_build_rom h (addr := 0xFFFC#16) (k := 4) (by decide) rfl,
    State.peek_build_rom h (addr := 0xFFFD#16) (k := 3) (by decide) rfl]

/-- Below ROM_BASE the Machine shows its zeroed, writable RAM (R390). -/
theorem State.build_ram_of_boot {addr : Addr} (haddr : addr.toNat < c.romBase.toNat) :
    (State.build c true).mem.peek addr = 0x00#8 ∧ (State.build c true).mem.storable addr = true := by
  have houtside : (romRegion c).contains addr.toNat = false := by
    rw [← Bool.not_eq_true, Region.contains_eq_true_iff]
    exact fun hin => absurd hin.1 (Nat.not_le_of_lt haddr)
  have hram : (ramRegion c).contains addr.toNat = true :=
    (Region.contains_eq_true_iff _ _).mpr ⟨Nat.zero_le _, haddr.trans_le (Nat.le_add_left _ _)⟩
  rw [State.build_mem_of_boot h]
  constructor
  · rw [peek_addRegion_outside houtside, Memory.peek_addRegion_owned hram rfl]
    rfl
  · rw [Memory.storable, Memory.resolve_addRegion, if_neg (by simp [houtside])]
    exact Memory.storable_addRegion_inside hram

end Boot

/-! ## Well-formed for boot -/

theorem State.build_bootWellFormed_of_boot {c : Config} (h : c.bootWellFormed = true) :
    (State.build c true).bootWellFormed = true := by
  rw [State.bootWellFormed_iff, State.build_config]
  have hmem := State.build_mem_of_boot h
  exact ⟨h, by simp [hmem, Memory.addRegion], by simp [hmem, Memory.addRegion, Memory.map]⟩

/-- Without its ROM image a Machine holds at most the RAM region, which is not the ROM's. -/
theorem State.build_not_bootWellFormed (c : Config) : (State.build c false).bootWellFormed = false := by
  rw [← Bool.not_eq_true, State.bootWellFormed_iff, State.build_config, State.build_not_opened, State.withRam_eq]
  rintro ⟨-, hrom, -⟩
  change romRegion c ∈ (if c.romBase = 0x0000#16 then [] else [ramRegion c]) at hrom
  split at hrom
  · cases hrom
  · rw [List.mem_singleton] at hrom
    cases congrArg Region.writable hrom

theorem State.bootWellFormed_build (c : Config) (romOpened : Bool) :
    (State.build c romOpened).bootWellFormed = (romOpened && c.bootWellFormed) := by
  cases romOpened with
  | false => exact State.build_not_bootWellFormed c
  | true =>
    cases hboot : c.bootWellFormed with
    | true => exact State.build_bootWellFormed_of_boot hboot
    | false => rw [State.bootWellFormed, State.build_config, hboot]; rfl

/-- Settles O28: the layout from what building writes, the boot from what the ROM and the RAM region show. -/
theorem builtMachineHoldsRamThenRom : Obligations.BuiltMachineHoldsRamThenRom := by
  unfold Obligations.BuiltMachineHoldsRamThenRom
  refine ⟨?layout, fun c romOpened => ⟨State.bootWellFormed_build c romOpened, ?reset⟩, ?boot, ?default, by decide⟩
  case layout =>
    rintro c _ _ rfl rfl
    have hram := State.withRam_eq c
    refine ⟨fun hsize => ?_, ?_⟩
    · rw [State.build_of_readable hsize, hram]
      exact ⟨rfl, rfl⟩
    · rw [State.build_not_opened, hram]
      exact ⟨rfl, rfl⟩
  case reset => rw [hostCall_reset, resetCore_build]
  case boot =>
    rintro c _ h rfl
    exact ⟨⟨_, Laws.pair_toNat _ _, step_build_of_boot h⟩, State.peek_build_rom h (by decide) rfl,
      State.peek_build_rom h (by decide) rfl, fun addr haddr => State.build_ram_of_boot h haddr⟩
  case default => rfl

end Sys2Proof.Machine
end

section
/-! The Register mechanism: what a `set` stores, and the counts (10_state.md R30-R34, R40). -/

namespace Sys2Proof.Machine

/-! ## The stored value bit by bit, and in integers -/

theorem testBit_clearBits (v m k : Nat) : (clearBits v m).testBit k = (v.testBit k && !m.testBit k) := by
  rw [clearBits, Nat.testBit_xor, Nat.testBit_and]
  cases v.testBit k <;> cases m.testBit k <;> rfl

/-- The formula of the Register invariant and of `set`, bit by bit (R30, R31). -/
theorem Register.testBit_formula (r : Register) (v k : Nat) :
    (clearBits ((v &&& r.widthMask) ||| r.maskOn) r.maskOff).testBit k =
      (((decide (k < r.width) && v.testBit k) || r.maskOn.testBit k) && !r.maskOff.testBit k) := by
  rw [testBit_clearBits, Nat.testBit_or, Nat.testBit_and, Register.widthMask, Nat.testBit_two_pow_sub_one,
    Bool.and_comm (v.testBit k)]

theorem Register.testBit_masked (r : Register) (v : Int) (k : Nat) :
    (r.masked v).testBit k =
      (((decide (k < r.width) && (v % 2 ^ r.width).toNat.testBit k) || r.maskOn.testBit k) &&
        !r.maskOff.testBit k) := by
  rw [Register.masked, Register.testBit_formula, Int.natCast_pow]
  rfl

/-- Masking a masked value changes nothing. -/
theorem Register.ok_set (r : Register) (v : Int) : (r.set v).ok = true := by
  refine decide_eq_true (Nat.eq_of_testBit_eq fun k => ?_)
  rw [Register.testBit_formula (r.set v)]
  simp only [Register.set, Register.testBit_masked]
  by_cases hk : k < r.width <;> cases r.maskOn.testBit k <;> cases r.maskOff.testBit k <;> simp [hk]

theorem toNat_emod_two_pow_lt (v : Int) (w : Nat) : (v % 2 ^ w).toNat < 2 ^ w := by
  have hpos : (0 : Int) < 2 ^ w := Int.pow_pos (by decide)
  have hlt := Int.emod_lt_of_pos v hpos
  have hnonneg := Int.emod_nonneg v hpos.ne'
  zify
  rwa [Int.toNat_of_nonneg hnonneg]

/-- Without masks a `set` stores the integer modulo 2^width. -/
theorem Register.masked_of_unmasked {r : Register} (hon : r.maskOn = 0) (hoff : r.maskOff = 0) (v : Int) :
    r.masked v = (v % 2 ^ r.width).toNat := by
  have hlt := toNat_emod_two_pow_lt v r.width
  apply Nat.eq_of_testBit_eq
  intro k
  rw [Register.testBit_masked, hon, hoff]
  by_cases hk : k < r.width
  · simp [hk]
  · simp [hk, Nat.testBit_lt_two_pow (hlt.trans_le (Nat.pow_le_pow_right (by decide) (Nat.le_of_not_lt hk)))]

theorem Register.masked_lt {r : Register} (hon : r.maskOn = 0) (hoff : r.maskOff = 0) (v : Int) :
    r.masked v < 2 ^ r.width := by
  rw [Register.masked_of_unmasked hon hoff]
  exact toNat_emod_two_pow_lt v r.width

/-- Settles O30: the formula of `set` bit by bit; a second application of it changes no bit. -/
theorem registerSetKeepsMasks : Obligations.RegisterSetKeepsMasks := by
  unfold Obligations.RegisterSetKeepsMasks
  intro r v
  exact ⟨r.ok_set v, r.ok_set r.resetValue, r.testBit_masked v⟩

/-! ## Counts -/

section Unmasked

variable {r : Register} (hon : r.maskOn = 0) (hoff : r.maskOff = 0)
include hon hoff

theorem Register.set_value_add_one :
    r.set (r.value + 1) = { r with value := (r.value + 1) % 2 ^ r.width } := by
  rw [Register.set, Register.masked_of_unmasked hon hoff]
  congr 1

/-- One less, modulo 2^width, in natural numbers. -/
theorem Register.set_value_sub_one :
    r.set (r.value - 1) = { r with value := (r.value + 2 ^ r.width - 1) % 2 ^ r.width } := by
  have hpos : 0 < 2 ^ r.width := Nat.two_pow_pos r.width
  have hshift : ((r.value + 2 ^ r.width - 1 : Nat) : Int) = (r.value : Int) - 1 + 2 ^ r.width := by
    push_cast [show 1 ≤ r.value + 2 ^ r.width by omega]
    ring
  have hmod : ((r.value : Int) - 1) % 2 ^ r.width = ((r.value + 2 ^ r.width - 1) % 2 ^ r.width : Nat) := by
    rw [Int.natCast_emod, hshift]
    simp
  rw [Register.set, Register.masked_of_unmasked hon hoff, hmod, Int.toNat_natCast]

end Unmasked

/-- Settles O31: each count is a `set` of the value one up or one down, which wraps at the width. -/
theorem registerCountsWrapAtWidth : Obligations.RegisterCountsWrapAtWidth := by
  unfold Obligations.RegisterCountsWrapAtWidth
  intro r hon hoff _
  have hup := Register.set_value_add_one hon hoff
  have hdown := Register.set_value_sub_one hon hoff
  refine ⟨?_, ?_, ?_, ?_⟩
  · rw [Register.preIncrement, hup]
  · rw [Register.postIncrement, hup]
  · rw [Register.preDecrement, hdown]
  · rw [Register.postDecrement, hdown]

/-! ## The CPU registers -/

theorem hostCall_setRegister_name (r : CpuReg) (v : Int) (s : State) :
    hostCall (.setRegister r.name v) s = .next (.done, r.set v s) := by
  simp [hostCall, hostSet]

/-- An unmasked register holds the integer as its two's-complement pattern (R31). -/
theorem ofNat_masked_of_unmasked {r : Register} (hon : r.maskOn = 0) (hoff : r.maskOff = 0) (v : Int) :
    BitVec.ofNat r.width (r.masked v) = BitVec.ofInt r.width v := by
  apply BitVec.eq_of_toNat_eq
  rw [BitVec.toNat_ofNat, BitVec.toNat_ofInt, Int.natCast_pow, Nat.mod_eq_of_lt (Register.masked_lt hon hoff v),
    Register.masked_of_unmasked hon hoff]
  rfl

theorem CpuReg.set_pc (v : Int) (s : State) : CpuReg.pc.set v s = { s with pc := BitVec.ofInt 16 v } :=
  congrArg s.setPC (ofNat_masked_of_unmasked (r := CpuReg.pc.view s) rfl rfl v)

theorem CpuReg.set_sp (v : Int) (s : State) : CpuReg.sp.set v s = { s with sp := BitVec.ofInt 8 v } :=
  congrArg s.setSP (ofNat_masked_of_unmasked (r := CpuReg.sp.view s) rfl rfl v)

theorem CpuReg.set_a (v : Int) (s : State) : CpuReg.a.set v s = { s with a := BitVec.ofInt 8 v } :=
  congrArg s.setA (ofNat_masked_of_unmasked (r := CpuReg.a.view s) rfl rfl v)

theorem CpuReg.set_x (v : Int) (s : State) : CpuReg.x.set v s = { s with x := BitVec.ofInt 8 v } :=
  congrArg s.setX (ofNat_masked_of_unmasked (r := CpuReg.x.view s) rfl rfl v)

theorem CpuReg.set_y (v : Int) (s : State) : CpuReg.y.set v s = { s with y := BitVec.ofInt 8 v } :=
  congrArg s.setY (ofNat_masked_of_unmasked (r := CpuReg.y.view s) rfl rfl v)

theorem getLsbD_ofInt (w : Nat) (v : Int) (k : Nat) :
    (BitVec.ofInt w v).getLsbD k = (v % 2 ^ w).toNat.testBit k := by
  change (BitVec.ofInt w v).toNat.testBit k = _
  rw [BitVec.toNat_ofInt, Int.natCast_pow]
  rfl

/-- FLAGS has a mask for bit 5 alone, which the write of P clears as well (R40, R46). -/
theorem CpuReg.set_flags (v : Int) (s : State) : CpuReg.flags.set v s = { s with p := maskP (BitVec.ofInt 8 v) } := by
  refine congrArg (fun p => { s with p := p }) (BitVec.eq_of_getLsbD_eq fun k hk => ?_)
  change (maskP (BitVec.ofNat 8 ((CpuReg.flags.view s).masked v))).getLsbD k = _
  rw [getLsbD_maskP, getLsbD_maskP]
  split
  next => rfl
  next h5 =>
    have hoff : ∀ k < 8, k ≠ 5 → (0x20).testBit k = false := by decide
    rw [BitVec.getLsbD_ofNat, Register.testBit_masked, getLsbD_ofInt]
    simp [CpuReg.view, hk, hoff k hk h5]

/-- Settles O32: the five registers without masks store the integer at their width, and FLAGS through its mask. -/
theorem hostRegisterSetIsMasked : Obligations.HostRegisterSetIsMasked := by
  unfold Obligations.HostRegisterSetIsMasked
  intro s v
  have hset (r : CpuReg) := hostCall_setRegister_name r v s
  refine ⟨?pc, ?sp, ?a, ?x, ?y, maskP (BitVec.ofInt 8 v), ?flags, maskP_bit5 _, ?bits⟩
  case pc => exact CpuReg.set_pc v s ▸ hset .pc
  case sp => exact CpuReg.set_sp v s ▸ hset .sp
  case a => exact CpuReg.set_a v s ▸ hset .a
  case x => exact CpuReg.set_x v s ▸ hset .x
  case y => exact CpuReg.set_y v s ▸ hset .y
  case flags => exact CpuReg.set_flags v s ▸ hset .flags
  case bits =>
    intro k h5
    rw [getLsbD_maskP, if_neg h5]

end Sys2Proof.Machine
end

section
/-! Instructions that store nothing, and the laws of calls and breaks (44_control.md R301-R312; 10_state.md R54). -/

namespace Sys2Proof.Machine

/-! ## Operations that leave memory -/

@[simp] theorem memRead_mem (addr : Addr) (s : State) : (memRead addr s).2.mem = s.mem := by rw [memRead_eq]; rfl

@[simp] theorem loadMem_mem (m : MemMode) (s : State) : (loadMem m s).2.mem = s.mem := by rw [loadMem_eq]; rfl

@[simp] theorem loadSrc_mem (src : Src) (s : State) : (loadSrc src s).2.mem = s.mem := by rw [loadSrc_eq]; rfl

@[simp] theorem pop_mem (s : State) : (pop s).2.mem = s.mem := by rw [pop_eq]; rfl

@[simp] theorem popAddr_mem (s : State) : (popAddr s).2.mem = s.mem := by rw [popAddr_eq]; rfl

@[simp] theorem returnFromBreak_mem (s : State) : (returnFromBreak s).mem = s.mem := by rw [returnFromBreak_eq]

@[simp] theorem jumpTarget_mem (j : JumpMode) (s : State) : (jumpTarget j s).2.mem = s.mem := by
  cases j with
  | abs d => rfl
  | ind d => rw [jumpTarget, indRead16, readPair_eq]; rfl

@[simp] theorem branch_mem (cond : Bool) (rr : Byte) (s : State) : (branch cond rr s).mem = s.mem := by
  cases cond <;> rfl

/-- A form that stores nothing goes through reads, register writes and the log alone. -/
theorem exec_mem_of_not_storesMemory {i : Instr} {s t : State} (hstores : storesMemory i = false)
    (hexec : exec i s = .next t) : t.mem = s.mem := by
  cases i with
  | sta m | stx m | sty m | inc m | dec m | pha | php | jsr d | brk => cases hstores
  | asl k | lsr k | rol k | ror k =>
    cases k with
    | acc => cases hexec; rfl
    | mem m => cases hstores
  | lda src | ldx src | ldy src | adc src | sbc src | cmp src | cpx src | cpy src | and src | ora src | eor src =>
    cases hexec; exact loadSrc_mem src s
  | bit m => cases hexec; exact loadMem_mem m s
  | pla | plp => cases hexec; exact pop_mem s
  | rts => cases hexec; exact popAddr_mem s
  | rti => cases hexec; exact returnFromBreak_mem s
  | jmp j => cases hexec; exact jumpTarget_mem j s
  | bpl rr | bmi rr | bvc rr | bvs rr | bcc rr | bcs rr | bne rr | beq rr => cases hexec; exact branch_mem _ rr s
  | tax | tay | txa | tya | tsx | txs | inx | iny | dex | dey | clc | sec | cli | sei | cld | sed | clv | nop
    | unknown op => cases hexec; rfl

/-- Settles O60: the memory is the same, so every address reads as before. -/
theorem nonStoringInstructionsLeaveMemory : Obligations.NonStoringInstructionsLeaveMemory := by
  unfold Obligations.NonStoringInstructionsLeaveMemory
  intro i s t hstores hexec
  have hmem := exec_mem_of_not_storesMemory hstores hexec
  exact ⟨hmem, fun addr => by rw [hmem]⟩

/-! ## What the stack shows after pushes -/

section Pushed

variable {m : Memory} {sp : Byte}

theorem Memory.peek_write_same {addr : Addr} (hm : m.wf = true) (hst : m.storable addr = true) (v : Byte) :
    (m.write addr v).peek addr = v := by rw [Memory.peek_write hm, if_pos ⟨hst, rfl⟩]

/-- A pushed address reads back when its two bytes are writable and are storage bytes of their own. -/
theorem Memory.peekPair_pushAddr (hm : m.wf = true) (h0 : m.storable (stackAddr sp) = true)
    (h1 : m.storable (stackAddr (sp - 1#8)) = true)
    (hne : m.siteOf (stackAddr sp) ≠ m.siteOf (stackAddr (sp - 1#8))) (ret : Addr) :
    (m.pushAddr sp ret).peekPair (stackAddr (sp - 1#8)) (stackAddr sp) = ret := by
  have hhigh : (m.pushAddr sp ret).peek (stackAddr sp) = highByte ret := by
    rw [Memory.pushAddr, Memory.peek_write_ne (by simpa using hne), Memory.peek_write_same hm h0]
  have hlow : (m.pushAddr sp ret).peek (stackAddr (sp - 1#8)) = lowByte ret :=
    Memory.peek_write_same (Memory.wf_write _ _ hm) (by simpa using h1) _
  rw [Memory.peekPair, hhigh, hlow, Laws.pair_highByte_lowByte]

@[simp] theorem Memory.siteOf_pushAddr (ret addr : Addr) : (m.pushAddr sp ret).siteOf addr = m.siteOf addr := by
  simp [Memory.pushAddr]

@[simp] theorem Memory.storable_pushAddr (ret addr : Addr) : (m.pushAddr sp ret).storable addr = m.storable addr := by
  simp [Memory.pushAddr]

/-- The third push of a trap entry leaves the address that the first two pushed. -/
theorem Memory.peekPair_pushBreak (h0 : m.siteOf (stackAddr sp) ≠ m.siteOf (stackAddr (sp - 2#8)))
    (h1 : m.siteOf (stackAddr (sp - 1#8)) ≠ m.siteOf (stackAddr (sp - 2#8))) (p : Byte) (ret : Addr) :
    (m.pushBreak sp p ret).peekPair (stackAddr (sp - 1#8)) (stackAddr sp) =
      (m.pushAddr sp ret).peekPair (stackAddr (sp - 1#8)) (stackAddr sp) := by
  rw [Memory.pushBreak, Memory.peekPair, Memory.peek_write_ne (by simpa using h0),
    Memory.peek_write_ne (by simpa using h1), Memory.peekPair]

theorem Memory.peek_pushBreak_status (hm : m.wf = true) (h2 : m.storable (stackAddr (sp - 2#8)) = true) (p : Byte)
    (ret : Addr) : (m.pushBreak sp p ret).peek (stackAddr (sp - 2#8)) = pushedP p :=
  Memory.peek_write_same (Memory.wf_pushAddr sp ret hm) (by simpa using h2) _

end Pushed

/-! ## A step at a known opcode byte -/

/-- A Running step at a one-byte instruction. -/
theorem step_of_oneByte {s : State} {op : Byte} {i : Instr} (hrun : s.engine = .running) (hop : s.mem.peek s.pc = op)
    (h : OneByte op i) : step s = exec i (s.fetched i) := by
  have hdecode := h [s.mem.peek (s.pc + 1#16), s.mem.peek (s.pc + 2#16)]
  rw [← hop] at hdecode
  exact stepRunsTheFetchedInstruction s i _ hrun hdecode

/-- A Running step at a three-byte instruction, whatever its address. -/
theorem step_of_threeBytes {s : State} {op : Byte} {f : Addr → Instr} (hrun : s.engine = .running)
    (hop : s.mem.peek s.pc = op) (h : ThreeBytes op f) : ∃ d, step s = exec (f d) (s.fetched (f d)) := by
  have hdecode := h (s.mem.peek (s.pc + 1#16)) (s.mem.peek (s.pc + 2#16)) []
  rw [← hop] at hdecode
  exact ⟨_, stepRunsTheFetchedInstruction s _ _ hrun hdecode⟩

/-- What a JSR step leaves on the stack and in the registers (44_control.md R301). -/
theorem jsr_step {s t : State} (hrun : s.engine = .running) (hop : s.mem.peek s.pc = 0x20#8) (hstep : step s = .next t) :
    t.mem = s.mem.pushAddr s.sp (s.pc + 2#16) ∧ t.sp = s.sp - 2#8 ∧ t.engine = .running ∧
      t.a = s.a ∧ t.x = s.x ∧ t.y = s.y ∧ t.p = s.p := by
  obtain ⟨d, hexec⟩ := step_of_threeBytes hrun hop (threeBytes_of_lookup (f := .jsr) rfl)
  have hret : (s.fetched (.jsr d)).pc - 1#16 = s.pc + 2#16 := by
    change s.pc + 3#16 - 1#16 = s.pc + 2#16
    bv_omega
  rw [hexec, exec_jsr, pushAddr_eq, hret] at hstep
  cases hstep
  exact ⟨rfl, rfl, hrun, rfl, rfl, rfl, rfl⟩

/-- Where an RTS step goes, and that it leaves the other registers (44_control.md R302). -/
theorem rts_step {s : State} (hrun : s.engine = .running) (hop : s.mem.peek s.pc = 0x60#8) :
    ∃ u, step s = .next u ∧
      u.pc = s.mem.peekPair (stackAddr (s.sp + 1#8)) (stackAddr (s.sp + 2#8)) + 1#16 ∧ u.sp = s.sp + 2#8 ∧
      u.a = s.a ∧ u.x = s.x ∧ u.y = s.y ∧ u.p = s.p := by
  have hstep := step_of_oneByte hrun hop (oneByte_of_lookup (i := .rts) rfl)
  rw [exec_rts, popAddr_eq] at hstep
  exact ⟨_, hstep, rfl, rfl, rfl, rfl, rfl, rfl⟩

/-- What a BRK step leaves on the stack (44_control.md R311). -/
theorem brk_step {s t : State} (hrun : s.engine = .running) (hop : s.mem.peek s.pc = 0x00#8) (hstep : step s = .next t) :
    t.mem = s.mem.pushBreak s.sp s.p (s.pc + 2#16) ∧ t.sp = s.sp - 3#8 := by
  have hret : (s.fetched .brk).pc + 1#16 = s.pc + 2#16 := BitVec.add_assoc _ _ _
  rw [step_of_oneByte hrun hop (oneByte_of_lookup (i := .brk) rfl), exec_brk, takeBreak_eq, hret] at hstep
  cases hstep
  exact ⟨rfl, rfl⟩

/-- Where an RTI step goes, and the P that it pulls (44_control.md R310). -/
theorem rti_step {s : State} (hrun : s.engine = .running) (hop : s.mem.peek s.pc = 0x40#8) :
    ∃ u, step s = .next u ∧
      u.pc = s.mem.peekPair (stackAddr (s.sp + 2#8)) (stackAddr (s.sp + 3#8)) ∧ u.sp = s.sp + 3#8 ∧
      u.p = maskP (s.mem.peek (stackAddr (s.sp + 1#8))) := by
  have hstep := step_of_oneByte hrun hop (oneByte_of_lookup (i := .rti) rfl)
  rw [exec_rti, returnFromBreak_eq] at hstep
  exact ⟨_, hstep, rfl, rfl, rfl⟩

/-! ## The obligations -/

/-- Settles O54: the JSR step pushes its PC + 2, and the RTS step pops it and goes one past it. -/
theorem callThenReturnResumesAfterTheCall : Obligations.CallThenReturnResumesAfterTheCall := by
  unfold Obligations.CallThenReturnResumesAfterTheCall
  intro s t hinv hrun hjsr h0 h1 hne hstep hrts
  obtain ⟨hmem, hsp, hrun', ha, hx, hy, hp⟩ := jsr_step hrun hjsr hstep
  obtain ⟨u, hreturn, hpc, husp, hua, hux, huy, hup⟩ := rts_step hrun' hrts
  have hlow : t.sp + 1#8 = s.sp - 1#8 := by rw [hsp]; bv_omega
  have hhigh : t.sp + 2#8 = s.sp := by rw [hsp]; exact BitVec.sub_add_cancel _ _
  refine ⟨u, hreturn, ?_, husp.trans hhigh, hua.trans ha, hux.trans hx, huy.trans hy, hup.trans hp⟩
  rw [hpc, hlow, hhigh, hmem, Memory.peekPair_pushAddr hinv.2 h0 h1 hne, BitVec.add_assoc]
  rfl

/-- P comes back from the pushed byte but for bit 4, which every push of P sets (44_control.md R312). -/
theorem getLsbD_maskP_pushedP {p : Byte} (h5 : p.getLsbD 5 = false) {k : Nat} (h4 : k ≠ 4) :
    (maskP (pushedP p)).getLsbD k = p.getLsbD k := by
  rw [getLsbD_maskP]
  split
  next hk => rw [hk, h5]
  next hk => rw [getLsbD_pushedP, if_neg (not_or.mpr ⟨h4, hk⟩)]

/-- Settles O57: the BRK step pushes its PC + 2 and P, and the RTI step pulls them from the same three stack bytes. -/
theorem returnFromBreakResumesPastIt : Obligations.ReturnFromBreakResumesPastIt := by
  unfold Obligations.ReturnFromBreakResumesPastIt
  rintro s t u _ _ _ hinv hrun hbrk rfl rfl rfl h0 h1 h2 hne01 hne02 hne12 hstep hurun husp hrti hu0 hu1 hu2
  obtain ⟨hmem, hsp⟩ := brk_step hrun hbrk hstep
  obtain ⟨w, hreturn, hpc, hwsp, hp⟩ := rti_step hurun hrti
  have hstatus : u.sp + 1#8 = s.sp - 2#8 := by rw [husp, hsp]; bv_omega
  have hlow : u.sp + 2#8 = s.sp - 1#8 := by rw [husp, hsp]; bv_omega
  have hhigh : u.sp + 3#8 = s.sp := by rw [husp, hsp]; exact BitVec.sub_add_cancel _ _
  have hpulled : w.p = maskP (pushedP s.p) := by
    rw [hp, hstatus, hu2, hmem, Memory.peek_pushBreak_status hinv.2 h2]
  refine ⟨w, hreturn, ?pc, hwsp.trans hhigh, ?flagB, ?others⟩
  case pc =>
    rw [hpc, hlow, hhigh, Memory.peekPair, hu0, hu1, hmem, ← Memory.peekPair, Memory.peekPair_pushBreak hne02 hne12,
      Memory.peekPair_pushAddr hinv.2 h0 h1 hne01]
  case flagB =>
    rw [hpulled, flagB, getLsbD_maskP, if_neg (by decide), getLsbD_pushedP, if_pos (.inl rfl)]
  case others =>
    intro k h4
    rw [hpulled, getLsbD_maskP_pushedP hinv.1 h4]

end Sys2Proof.Machine
end
